-- ==== Sys2Proof/Word.lean ====
section
/-! DEFINITION. The 64-bit word of every register, buffer word and command (10_state.md R16, 20_memory.md R64). -/

namespace Sys2Proof

/-- A 64-bit register, buffer word or command word; a binary64 value is its IEEE 754 bit pattern (R64). -/
abbrev Word := BitVec 64

end Sys2Proof
end

