-- ==== Sys2Proof/Syntax.lean ====
section
/-! DEFINITION. The commands of QMD command set 1, one constructor per row of opcode_table.json (30_encoding.md R83). -/

namespace Sys2Proof

/-- A command. `dst` and `src` are the buffer numbers of the fields DST and SRC (R80, R81), written in the order
of the assembler syntax `MNEMONIC bD, bS` (R86). -/
inductive Instr where
  /-- NOP (R88) -/
  | nop
  /-- CONFIG (R89) -/
  | config
  /-- MAP bD, bS (R102) -/
  | map (dst src : Nat)
  /-- COMB bD, bS (R104) -/
  | comb (dst src : Nat)
  /-- RRC bD, bS (R105) -/
  | rrc (dst src : Nat)
  /-- UPCONV bD, bS (R106) -/
  | upconv (dst src : Nat)
  /-- AWGN bD, bS (R109) -/
  | awgn (dst src : Nat)
  /-- FADE.RAY bD, bS (R110) -/
  | fadeRay (dst src : Nat)
  /-- FADE.RIC bD, bS (R111) -/
  | fadeRic (dst src : Nat)
  /-- FOFS bD, bS (R112) -/
  | fofs (dst src : Nat)
  /-- FDRIFT bD, bS (R113) -/
  | fdrift (dst src : Nat)
  /-- FDELAY bD, bS (R114) -/
  | fdelay (dst src : Nat)
  /-- DOWNCONV bD, bS (R116) -/
  | downconv (dst src : Nat)
  /-- MATCH bD, bS (R117) -/
  | matchFull (dst src : Nat)
  /-- MATCH.T bD, bS (R118) -/
  | matchTrim (dst src : Nat)
  /-- SAMPLE bD, bS (R120) -/
  | sample (dst src : Nat)
  /-- SAMPLE.A bD, bS (R121) -/
  | sampleAuto (dst src : Nat)
  /-- DEMAP bD, bS (R122) -/
  | demap (dst src : Nat)
deriving DecidableEq, Repr

end Sys2Proof
end

