-- ==== Sys2Proof/WellFormed.lean ====
section
/-! DEFINITION. Which commands the encoding can express: SRC and DST are 4-bit fields (30_encoding.md R80, R81). -/

namespace Sys2Proof

/-- The destination and source buffer numbers of a command that has them (R83). -/
def Instr.operands : Instr → Option (Nat × Nat)
  | .nop => none
  | .config => none
  | .map d s => some (d, s)
  | .comb d s => some (d, s)
  | .rrc d s => some (d, s)
  | .upconv d s => some (d, s)
  | .awgn d s => some (d, s)
  | .fadeRay d s => some (d, s)
  | .fadeRic d s => some (d, s)
  | .fofs d s => some (d, s)
  | .fdrift d s => some (d, s)
  | .fdelay d s => some (d, s)
  | .downconv d s => some (d, s)
  | .matchFull d s => some (d, s)
  | .matchTrim d s => some (d, s)
  | .sample d s => some (d, s)
  | .sampleAuto d s => some (d, s)
  | .demap d s => some (d, s)

/-- A command is well formed if its buffer numbers fit their 4-bit fields. Numbers 8 to 15 are legal to encode and
fail at execution with E_BUFID (R81). -/
def Instr.wellFormed (i : Instr) : Bool :=
  match i.operands with
  | none => true
  | some (d, s) => decide (d < 16) && decide (s < 16)

end Sys2Proof
end

