-- ==== Sys2Proof/Decode.lean ====
section
/-! DEFINITION. Decoding and encoding of command words (30_encoding.md R79 to R86). -/

namespace Sys2Proof

/-- Why a word is no command (R84, R85). Issued, such a word completes with E_ILLEGAL. -/
inductive DecodeError where
  /-- RSV, bits 63:24, is not 0 -/
  | reservedBits
  /-- OPC, bits 7:0, is no opcode of R83 -/
  | reservedOpcode
  /-- a FLAGS bit that R82 does not define is set -/
  | reservedFlags
  /-- SRC or DST is not 0 on NOP or CONFIG -/
  | operandOnControl
deriving DecidableEq, Repr

/-- OPC, bits 7:0 (R80). -/
def fieldOpc (c : Word) : BitVec 8 := c.extractLsb' 0 8
/-- SRC, bits 11:8, zero-extended (R80). -/
def fieldSrc (c : Word) : Nat := (c.extractLsb' 8 4).toNat
/-- DST, bits 15:12, zero-extended (R80). -/
def fieldDst (c : Word) : Nat := (c.extractLsb' 12 4).toNat
/-- FLAGS, bits 23:16 (R80). -/
def fieldFlags (c : Word) : BitVec 8 := c.extractLsb' 16 8
/-- RSV, bits 63:24 (R80). -/
def fieldRsv (c : Word) : BitVec 40 := c.extractLsb' 24 40

/-- NOP and CONFIG: legal only with SRC, DST and FLAGS 0 (R84). -/
def decodeControl (c : Word) (i : Instr) : Except DecodeError Instr :=
  if fieldFlags c ≠ 0#8 then .error .reservedFlags
  else if fieldSrc c ≠ 0 ∨ fieldDst c ≠ 0 then .error .operandOnControl
  else .ok i

/-- A data command without option bits: legal only with FLAGS 0 (R84). -/
def decodePlain (c : Word) (i : (dst src : Nat) → Instr) : Except DecodeError Instr :=
  if fieldFlags c = 0#8 then .ok (i (fieldDst c) (fieldSrc c)) else .error .reservedFlags

/-- A data command whose FLAGS bit 0 selects the variant (R82, R84). -/
def decodeVariant (c : Word) (i0 i1 : (dst src : Nat) → Instr) : Except DecodeError Instr :=
  if fieldFlags c = 0#8 then .ok (i0 (fieldDst c) (fieldSrc c))
  else if fieldFlags c = 1#8 then .ok (i1 (fieldDst c) (fieldSrc c))
  else .error .reservedFlags

/-- The command a word stands for, or why it is illegal: a function of the word alone (R84). -/
def decode (c : Word) : Except DecodeError Instr :=
  if fieldRsv c ≠ 0#40 then .error .reservedBits else
  match (fieldOpc c).toNat with
  | 0x00 => decodeControl c .nop
  | 0x01 => decodeControl c .config
  | 0x10 => decodePlain c .map
  | 0x11 => decodePlain c .comb
  | 0x12 => decodePlain c .rrc
  | 0x13 => decodePlain c .upconv
  | 0x20 => decodePlain c .awgn
  | 0x21 => decodeVariant c .fadeRay .fadeRic
  | 0x22 => decodePlain c .fofs
  | 0x23 => decodePlain c .fdrift
  | 0x24 => decodePlain c .fdelay
  | 0x30 => decodePlain c .downconv
  | 0x31 => decodeVariant c .matchFull .matchTrim
  | 0x32 => decodeVariant c .sample .sampleAuto
  | 0x33 => decodePlain c .demap
  | _ => .error .reservedOpcode

/-- The instruction the decoder reads from the table's word of `nbits` bits; every bit above `nbits` is 0. A
command is one 64-bit word (R79), so no layout in smaller units is involved. -/
def decodeTableWord (nbits w : Nat) : Option Instr :=
  match decode (BitVec.ofNat 64 (w % 2 ^ nbits)) with
  | .ok i => some i
  | .error _ => none

/-- The opcode of each command (R83). -/
def Instr.opcode : Instr → BitVec 8
  | .nop => 0x00#8
  | .config => 0x01#8
  | .map _ _ => 0x10#8
  | .comb _ _ => 0x11#8
  | .rrc _ _ => 0x12#8
  | .upconv _ _ => 0x13#8
  | .awgn _ _ => 0x20#8
  | .fadeRay _ _ => 0x21#8
  | .fadeRic _ _ => 0x21#8
  | .fofs _ _ => 0x22#8
  | .fdrift _ _ => 0x23#8
  | .fdelay _ _ => 0x24#8
  | .downconv _ _ => 0x30#8
  | .matchFull _ _ => 0x31#8
  | .matchTrim _ _ => 0x31#8
  | .sample _ _ => 0x32#8
  | .sampleAuto _ _ => 0x32#8
  | .demap _ _ => 0x33#8

/-- The FLAGS field of each command (R82, R83). -/
def Instr.flags : Instr → BitVec 8
  | .nop => 0#8
  | .config => 0#8
  | .map _ _ => 0#8
  | .comb _ _ => 0#8
  | .rrc _ _ => 0#8
  | .upconv _ _ => 0#8
  | .awgn _ _ => 0#8
  | .fadeRay _ _ => 0#8
  | .fadeRic _ _ => 1#8
  | .fofs _ _ => 0#8
  | .fdrift _ _ => 0#8
  | .fdelay _ _ => 0#8
  | .downconv _ _ => 0#8
  | .matchFull _ _ => 0#8
  | .matchTrim _ _ => 1#8
  | .sample _ _ => 0#8
  | .sampleAuto _ _ => 1#8
  | .demap _ _ => 0#8

/-- `word = {RSV, FLAGS, DST, SRC, OPC}` (R80) with RSV 0, of a well-formed command. -/
def encode (i : Instr) : Word :=
  let (d, s) := i.operands.getD (0, 0)
  0#40 ++ i.flags ++ BitVec.ofNat 4 d ++ BitVec.ofNat 4 s ++ i.opcode

end Sys2Proof
end

