-- ==== Sys2Proof/Config.lean ====
section
/-! DEFINITION. The implementation parameters of 00_scope.md R5 and the free values of the model.

A constant declared `opaque` has no body: nothing evaluates it and no proof knows a value of it. Each is a
parameter the spec leaves OPEN (GAUSS, TIE, BASE) or a value the spec leaves unspecified
(93_implementation_defined.md Part 1). The first argument of a free value is the model's draw counter
`State.draws`, so that each use draws afresh. -/

namespace Sys2Proof.Config

/-- N_BUF (R5, R19): the number of sample buffers. Log 9. -/
def nBuf : Nat := 8

/-- BUF_WORDS (R5, R19): the words of one buffer. Log 9. -/
def bufWords : Nat := 0x100000

/-- KERN_CAP (R5, R19): the largest RRC kernel length. Log 9. -/
def kernCap : Nat := 0x10000

/-- CONST_CAP (R5, R55): the entries of the constellation memory. -/
def constCap : Nat := 4096

/-- LPF_TAPS (R5, R54): the taps of the receiver low-pass filter. -/
def lpfTaps : Nat := 101

/-- LPF_HALF (R5, R93): the low-pass filter's group delay in samples. -/
def lpfHalf : Nat := 50

/-- FD_TAPS (R5, R114): the taps of the fractional-delay filter. -/
def fdTaps : Nat := 21

/-- BASE / 4096 (R5, R62): the platform's choice, OPEN. Log 8. -/
opaque basePage : BitVec 52

/-- BASE (R62): the host address of the register block, a multiple of 4096. -/
@[irreducible] def base : Nat := basePage.toNat * 4096

/-- The platform's Gaussian generator before the restriction to finite values (R108), OPEN. Log 7. -/
opaque gaussRaw : (seed : BitVec 64) → (index : Nat) → BitVec 64

/-- GAUSS (R5, R108): total, and finite: a non-finite word of the free generator has its exponent's top bit
cleared, which makes it finite; every function with finite values arises so. Log 7. -/
def gauss (seed : BitVec 64) (index : Nat) : BitVec 64 :=
  let r := gaussRaw seed index
  if r.extractLsb' 52 11 = 0x7FF#11 then r &&& 0xBFFFFFFFFFFFFFFF#64 else r

/-- TIE (R5, R122): the free number by which a draw from a list of candidates is made, per decision of a
command. Log 6. -/
opaque tie : (draw : Nat) → (element : Nat) → Nat

/-- What a command reads in an unwritten word of a buffer (R52, I1), by word index. Log 2. -/
opaque freeWord : (draw : Nat) → (index : Nat) → BitVec 64

/-- What a host read returns where the spec leaves the value unspecified (R43, R46, R47, R152). Logs 2, 3, 4. -/
opaque freeRead : (draw : Nat) → BitVec 64

/-- The kernel words a command would read beyond what CONFIG wrote (R53, R54), which no command does in a
reachable state. Log 4. -/
opaque freeTap : (draw : Nat) → (index : Nat) → BitVec 64

/-- The pair of a CONST entry that is not valid (R55), which no command reads in a reachable state. Log 4. -/
opaque freePoint : (draw : Nat) → (index : Nat) → BitVec 32 × BitVec 32

/-- The sign and payload of a NaN produced by one arithmetic step (R8, I7); `site` names the step within the
command. Log 5. -/
opaque freeNaN : (draw : Nat) → (site : List Nat) → BitVec 64

/-- Which of the binary64 values that an enclosure leaves possible RN answers where the model's precision ladder
ends without a single one; a function of the enclosure alone. Log 10. -/
opaque freeRound : (lo hi : Int) → (den : Nat) → Nat

end Sys2Proof.Config
end

