-- ==== Sys2Proof/Machine/State.lean ====
section
/-! DEFINITION. The state of QMD (10_state.md), the events that reach it from outside, its faults and refusals, and
its reset state. Plain data throughout. -/

namespace Sys2Proof.Machine

/-- A sparse memory: pairs of an address (a word or entry index) and its contents, addresses strictly rising; an
address that is not listed is unwritten (R52, R55). Its unit is the 64-bit word or the CONST entry, the smallest
unit any access reaches (R65, R69). Log 15. -/
abbrev Memory (α : Type) := List (Nat × α)

/-- The kind of a buffer's elements (R49, R50). -/
inductive BufKind where
  | none | bits | real | cplx
deriving DecidableEq, Repr

/-- A sample buffer (R49). -/
structure Buffer where
  /-- BUF_LEN: the element count (R44) -/
  len : Word
  /-- BUF_KIND: the element kind (R45) -/
  kind : BufKind
  /-- the words that have been written (R52) -/
  words : Memory Word
deriving DecidableEq, Repr

/-- A buffer after reset (R60). -/
def Buffer.empty : Buffer := ⟨0#64, .none, []⟩

/-- A valid entry of the constellation memory: an s32 pair (R55). -/
structure ConstEntry where
  i : BitVec 32
  q : BitVec 32
deriving DecidableEq, Repr

/-- The fields of STATUS (R21); reserved bits read 0 and hold nothing. -/
structure Status where
  busy : Bool
  done : Bool
  cfgValid : Bool
  ovr : Bool
  wbusy : Bool
  kValid : Bool
  err : BitVec 8
  lastOpc : BitVec 8
deriving DecidableEq, Repr

/-- STATUS after reset (R21, R146). -/
def Status.reset : Status := ⟨false, false, false, false, false, false, 0#8, 0#8⟩

/-- The error codes of R128. -/
inductive ErrCode where
  /-- E_ILLEGAL: the word decodes as illegal -/
  | illegal
  /-- E_BUFID: SRC or DST names no buffer -/
  | bufId
  /-- E_NOCFG: CFG_VALID is 0 -/
  | noCfg
  /-- E_KIND: the source's kind is not one the command takes -/
  | kind
  /-- E_PARAM: a parameter register is outside its domain -/
  | param
  /-- E_NOK: RICIAN_K_DB has not been written -/
  | noK
  /-- E_ALIGN: the BITS length is no multiple of the order -/
  | align
  /-- E_RANGE: a sampling index is outside the source -/
  | range
  /-- E_CAP: the source or the result exceeds BUF_WORDS -/
  | cap
  /-- E_CFG_SCHEME: SCHEME is above 6 -/
  | cfgScheme
  /-- E_CFG_PARAM: a link parameter is out of range -/
  | cfgParam
  /-- E_CFG_TABLE: a CONST entry is missing or doubled -/
  | cfgTable
deriving DecidableEq, Repr

/-- One host access on the bus port (R61): `addr` is the host's byte address, `width` its bytes. -/
structure BusAccess where
  addr : Nat
  width : Nat
  /-- `none` a read, `some v` a write of `v` -/
  wdata : Option Word
deriving DecidableEq, Repr

/-- What the outside does in one step of the interleaving (R12, R13, R61, R134). Log 1. -/
inductive HostEvent where
  /-- a host access -/
  | bus (a : BusAccess)
  /-- the rst input is asserted (R146) -/
  | rst
  /-- the engine is let to step, if a command is in flight (R13) -/
  | engine
deriving DecidableEq, Repr

/-- What the bus port answers (R61); a buserror is the model's fault, not a response. Log 16. -/
inductive BusResp where
  /-- no access has been answered yet -/
  | none
  /-- a write was admitted -/
  | ok
  /-- a read returned a word -/
  | data (v : Word)
deriving DecidableEq, Repr

/-- The machine's state: the registers of 10_state.md R16 (each under its own name), the buffers, the coefficient
and constellation memories, and three fields of the model's own at the end. -/
structure State where
  /-- CTRL.IRQ_EN (R20) -/
  irqEn : Bool
  /-- STATUS (R21) -/
  status : Status
  /-- CMD, CMDREG (R22, R126): the last accepted command word, in flight while BUSY -/
  cmd : Word
  /-- SCHEME (R23) -/
  scheme : Word
  /-- BIT_RATE (R24) -/
  bitRate : Word
  /-- CARRIER_HZ (R25) -/
  carrierHz : Word
  /-- ALPHA, binary64 (R26) -/
  alpha : Word
  /-- LPF_MULT, binary64 (R27) -/
  lpfMult : Word
  /-- ORDER (R29) -/
  order : Word
  /-- FS (R29) -/
  fs : Word
  /-- SPS (R29) -/
  sps : Word
  /-- RRC_LEN (R29) -/
  rrcLen : Word
  /-- TOTAL_DELAY (R29) -/
  totalDelay : Word
  /-- S_SCALE, binary64 (R29) -/
  sScale : Word
  /-- BAUD, binary64 (R29) -/
  baud : Word
  /-- KERN_E, binary64 (R29) -/
  kernE : Word
  /-- SNR_DB, binary64 (R30) -/
  snrDb : Word
  /-- AWGN_SEED (R31) -/
  awgnSeed : Word
  /-- AWGN_POS (R31) -/
  awgnPos : Word
  /-- AWGN_SIGMA, binary64 (R32) -/
  awgnSigma : Word
  /-- FADE_SEED (R33) -/
  fadeSeed : Word
  /-- FADE_POS (R33) -/
  fadePos : Word
  /-- RICIAN_K_DB, binary64 (R34) -/
  ricianKDb : Word
  /-- FADE_H_RE, binary64 (R35) -/
  fadeHRe : Word
  /-- FADE_H_IM, binary64 (R35) -/
  fadeHIm : Word
  /-- FOFS_HZ, binary64 (R36) -/
  fofsHz : Word
  /-- FDRIFT_RATE, binary64 (R37) -/
  fdriftRate : Word
  /-- FDELAY_FRAC, binary64 (R38) -/
  fdelayFrac : Word
  /-- SAMPLE_COUNT (R39) -/
  sampleCount : Word
  /-- TIMING_ADJ, s64 (R40) -/
  timingAdj : Word
  /-- BUF_SEL (R41) -/
  bufSel : Word
  /-- BUF_PTR (R42) -/
  bufPtr : Word
  /-- CONST_IDX (R46) -/
  constIdx : Word
  /-- KERN_IDX (R47) -/
  kernIdx : Word
  /-- LPF_IDX (R47) -/
  lpfIdx : Word
  /-- B[0] .. B[7] (R49) -/
  bufs : Vector Buffer Config.nBuf
  /-- KERN (R53): the taps the last successful CONFIG wrote, from index 0 -/
  kern : List Word
  /-- LPF (R54): the taps the last successful CONFIG wrote, from index 0 -/
  lpf : List Word
  /-- CONST (R55): the valid entries; an index not listed has valid = 0 -/
  consts : Memory ConstEntry
  /-- the model's own: what the outside will do, first event first. Log 1 -/
  inbox : List HostEvent
  /-- the model's own: the bus port's answer to the last host access. Log 16 -/
  resp : BusResp
  /-- the model's own: the draw counter by which free values are drawn afresh. Log 2 -/
  draws : Nat
deriving DecidableEq, Repr

/-- The state right after reset (R16, R60, R146): every register at the spec's reset value. -/
def State.reset : State where
  irqEn := false
  status := Status.reset
  cmd := 0#64
  scheme := 0#64
  bitRate := 0#64
  carrierHz := 0#64
  alpha := 0x3FD6666666666666#64
  lpfMult := 0x3FF8000000000000#64
  order := 0#64
  fs := 0#64
  sps := 0#64
  rrcLen := 0#64
  totalDelay := 0#64
  sScale := 0#64
  baud := 0#64
  kernE := 0#64
  snrDb := 0#64
  awgnSeed := 0#64
  awgnPos := 0#64
  awgnSigma := 0#64
  fadeSeed := 0#64
  fadePos := 0#64
  ricianKDb := 0#64
  fadeHRe := 0#64
  fadeHIm := 0#64
  fofsHz := 0#64
  fdriftRate := 0#64
  fdelayFrac := 0#64
  sampleCount := 0#64
  timingAdj := 0#64
  bufSel := 0#64
  bufPtr := 0#64
  constIdx := 0#64
  kernIdx := 0#64
  lpfIdx := 0#64
  bufs := Vector.replicate Config.nBuf Buffer.empty
  kern := []
  lpf := []
  consts := []
  inbox := []
  resp := .none
  draws := 0

/-- Why the machine stops with a fault. Only a host access faults, never a command (R127). -/
inductive Fault where
  /-- buserror of a host access that is not 8 bytes wide or not at a multiple of 8 (R65; R66, step 1). Raised by
  `busStep`. Safe: the hardware answers buserror and goes on, the model stops (log 13). -/
  | busWidthOrAlignment
  /-- buserror of a window access while idle whose index is out of range (R66, step 2). Raised by `busStep`. Safe:
  the hardware answers buserror and goes on, the model stops (log 13). -/
  | busWindowRange
deriving DecidableEq, Repr

/-- Why the model refuses an instruction. -/
inductive Refusal where
  /-- The instruction has no meaning in the model. Raised by an arm of `exec`; no arm does. Safe: the model stops. -/
  | notModelled (mnemonic : String)
deriving DecidableEq, Repr

end Sys2Proof.Machine
end

