-- ==== Sys2Proof/Machine/Flags.lean ====
section
/-! DEFINITION. STATUS, CTRL and the irq output as bits (10_state.md R20, R21, R48; 60_exceptions.md R128, R133).
QMD has no arithmetic condition codes (R48). -/

namespace Sys2Proof.Machine

/-- The code of an error in STATUS.ERR (R128). -/
def ErrCode.code : ErrCode → BitVec 8
  | .illegal => 1#8
  | .bufId => 2#8
  | .noCfg => 3#8
  | .kind => 4#8
  | .param => 5#8
  | .noK => 6#8
  | .align => 7#8
  | .range => 8#8
  | .cap => 9#8
  | .cfgScheme => 16#8
  | .cfgParam => 17#8
  | .cfgTable => 18#8

/-- The values ERR can hold: 0 and the codes of R128. -/
def legalErr (e : BitVec 8) : Bool := e.toNat ≤ 9 || (16 ≤ e.toNat && e.toNat ≤ 18)

/-- STATUS as a read returns it (R21). -/
def Status.word (t : Status) : Word :=
  0#40 ++ t.lastOpc ++ t.err ++ 0#2 ++ BitVec.ofBool t.kValid ++ BitVec.ofBool t.wbusy ++ BitVec.ofBool t.ovr
    ++ BitVec.ofBool t.cfgValid ++ BitVec.ofBool t.done ++ BitVec.ofBool t.busy

/-- A STATUS write: DONE, OVR and WBUSY are cleared where the written bit is 1, nothing else changes (R21). -/
def Status.writeOneToClear (t : Status) (v : Word) : Status :=
  { t with
    done := t.done && !v.getLsbD 1
    ovr := t.ovr && !v.getLsbD 3
    wbusy := t.wbusy && !v.getLsbD 4 }

/-- STATUS when a command is issued: BUSY set, DONE cleared, ERR and LAST_OPC kept (R126). -/
def Status.issued (t : Status) : Status := { t with busy := true, done := false }

/-- STATUS when a command completes with an ERR byte (R127). -/
def Status.completed (t : Status) (opc err : BitVec 8) : Status :=
  { t with busy := false, done := true, err := err, lastOpc := opc }

/-- CTRL as a read returns it: SRST and the reserved bits read 0 (R20). -/
def ctrlWord (irqEn : Bool) : Word := 0#63 ++ BitVec.ofBool irqEn

/-- The irq output (R133): the level DONE and IRQ_EN. -/
def State.irq (s : State) : Bool := s.status.done && s.irqEn

/-- The code of a kind in BUF_KIND (R45). -/
def BufKind.code : BufKind → Word
  | .none => 0#64
  | .bits => 1#64
  | .real => 2#64
  | .cplx => 3#64

/-- BUF_KIND is write-any-read-legal: a value above 3 stores NONE (R45). -/
def BufKind.ofCode (v : Word) : BufKind :=
  match v.toNat with
  | 1 => .bits
  | 2 => .real
  | 3 => .cplx
  | _ => .none

end Sys2Proof.Machine
end

