-- ==== Sys2Proof/Machine/Float.lean ====
section
/-! DEFINITION. IEEE 754 binary64 in roundTiesToEven (00_scope.md R8): the f-operations, the exact value of a
binary64 word, and RN of an exact rational and of the square root of one.

Every operation computes the exact result as a ratio of natural numbers and rounds it once. An operation that
IEEE 754 says returns a quiet NaN returns a free quiet NaN (log 5); `Site` names the step it is drawn for. -/

namespace Sys2Proof.Machine

/-- The place of an arithmetic step: the draw counter of its command and the path of the step within the command. -/
structure Site where
  draw : Nat
  path : List Nat
deriving DecidableEq, Repr

/-- The `k`-th step below `σ`. -/
def Site.sub (σ : Site) (k : Nat) : Site := { σ with path := k :: σ.path }

/-- A binary64 value: NaN, a signed infinity, or `± m · 2^(e - 1075)`. -/
inductive FVal where
  | nan
  | inf (neg : Bool)
  | fin (neg : Bool) (m e : Nat)
deriving DecidableEq, Repr

/-- Bit 63: the sign (R64). -/
def F64.sign (x : Word) : Bool := x.getLsbD 63
/-- Bits 62:52: the exponent field (R64). -/
def F64.expo (x : Word) : Nat := (x.extractLsb' 52 11).toNat
/-- Bits 51:0: the fraction field (R64). -/
def F64.frac (x : Word) : Nat := (x.extractLsb' 0 52).toNat

/-- The value of a binary64 word (R64): the biased exponent `e` of a finite value is at least 1, and the hidden bit
of a normal value stands in `m`. -/
def F64.val (x : Word) : FVal :=
  if F64.expo x = 0x7FF then (if F64.frac x = 0 then .inf (F64.sign x) else .nan)
  else if F64.expo x = 0 then .fin (F64.sign x) (F64.frac x) 1
  else .fin (F64.sign x) (2 ^ 52 + F64.frac x) (F64.expo x)

/-- A word that is neither a NaN nor an infinity. -/
def F64.isFinite (x : Word) : Bool := F64.expo x ≠ 0x7FF

/-- A NaN word. -/
def F64.isNaN (x : Word) : Bool := F64.expo x = 0x7FF && F64.frac x ≠ 0

/-- The exact value of a finite word (R8); 0 for a word that is not finite, which no rule uses. -/
def F64.toRat (x : Word) : ℚ :=
  match F64.val x with
  | .fin neg m e =>
    let q : ℚ := if 1075 ≤ e then ((m * 2 ^ (e - 1075) : Nat) : ℚ) else mkRat m (2 ^ (1075 - e))
    if neg then -q else q
  | _ => 0

/-- A word from its sign and its lower 63 bits. -/
def F64.pack (neg : Bool) (bits : Nat) : Word := BitVec.ofNat 64 ((if neg then 2 ^ 63 else 0) + bits)

/-- ± infinity. -/
def F64.infinity (neg : Bool) : Word := F64.pack neg (0x7FF * 2 ^ 52)
/-- ± 0.0. -/
def F64.zero (neg : Bool) : Word := F64.pack neg 0

/-- `⌊log2 (n / d)⌋` for positive `n` and `d`. -/
def ratLog2 (n d : Nat) : Int :=
  let k : Int := (Nat.log2 n : Int) - (Nat.log2 d : Int)
  let ge : Bool := if 0 ≤ k then d * 2 ^ k.toNat ≤ n else d ≤ n * 2 ^ (-k).toNat
  if ge then k else k - 1

/-- The exponent of the unit in the last place of a binary64 value whose binary logarithm has the floor `e`. -/
def ulpExp (e : Int) : Int := max (e - 52) (-1074)

/-- The word of `± m · 2^q` rounded already, for `q` a unit exponent and `m ≤ 2^53`; infinity on overflow. -/
def F64.ofUlps (neg : Bool) (m : Nat) (q : Int) : Word :=
  let bits := (q + 1074).toNat * 2 ^ 52 + m
  if 0x7FF * 2 ^ 52 ≤ bits then F64.infinity neg else F64.pack neg bits

/-- The integer nearest `N / D`, ties to the even one. -/
def roundNearestEven (N D : Nat) : Nat :=
  let m := N / D
  let r := N % D
  if D < 2 * r ∨ (D = 2 * r ∧ m % 2 = 1) then m + 1 else m

/-- The binary64 value nearest `± n / d`, ties to even (R8); the sign is kept when the result is 0. -/
def F64.roundRatio (neg : Bool) (n d : Nat) : Word :=
  if n = 0 then F64.zero neg else
  let q := ulpExp (ratLog2 n d)
  let m := if 0 ≤ q then roundNearestEven n (d * 2 ^ q.toNat) else roundNearestEven (n * 2 ^ (-q).toNat) d
  F64.ofUlps neg m q

/-- RN of an exact rational (R8): `RN(0) = +0.0`. -/
def rnRat (x : ℚ) : Word := F64.roundRatio (decide (x < 0)) x.num.natAbs x.den

/-- `⌊√n⌋` of an `n` below `4^fuel`, one bit of the root per level. -/
def isqrtFuel : (fuel n : Nat) → Nat
  | 0, _ => 0
  | k + 1, n =>
    let r := 2 * isqrtFuel k (n / 4)
    if (r + 1) * (r + 1) ≤ n then r + 1 else r

/-- `⌊√n⌋`. -/
def isqrt (n : Nat) : Nat := isqrtFuel (Nat.log2 n / 2 + 1) n

/-- RN of `√(N / D)` scaled to units, ties to even, with the exact square as the test. -/
def roundSqrtUlps (N D : Nat) : Nat :=
  let s := isqrt (N / D)
  let twice := (2 * s + 1) * (2 * s + 1) * D
  if twice < 4 * N ∨ (twice = 4 * N ∧ s % 2 = 1) then s + 1 else s

/-- The binary64 value nearest `√(n / d)`, ties to even. -/
def F64.roundSqrt (n d : Nat) : Word :=
  if n = 0 then F64.zero false else
  let q := ulpExp (ratLog2 n d / 2)
  let m := if 0 ≤ q then roundSqrtUlps n (d * 4 ^ q.toNat) else roundSqrtUlps (n * 4 ^ (-q).toNat) d
  F64.ofUlps false m q

/-- RN of the square root of an exact non-negative rational (R8). -/
def rnSqrtRat (x : ℚ) : Word := F64.roundSqrt x.num.natAbs x.den

/-- The free quiet NaN of one arithmetic step (R8, I7): exponent all ones, fraction's top bit 1, the rest free. -/
def F64.qnan (σ : Site) : Word := Config.freeNaN σ.draw σ.path ||| 0x7FF8000000000000#64

/-- `fneg` (R8): the sign bit inverted. -/
def fneg (a : Word) : Word := a ^^^ 0x8000000000000000#64

/-- `± m · 2^(e - 1075)` rounded. -/
def F64.roundDyadic (neg : Bool) (m e : Nat) : Word :=
  if 1075 ≤ e then F64.roundRatio neg (m * 2 ^ (e - 1075)) 1 else F64.roundRatio neg m (2 ^ (1075 - e))

/-- The sum of two finite values: exact, then rounded; an exact zero is +0.0 unless both operands are negative
(IEEE 754, roundTiesToEven). -/
def F64.addFin (s : Bool) (m e : Nat) (t : Bool) (n f : Nat) : Word :=
  let g := min e f
  let a : Int := (m * 2 ^ (e - g) : Nat)
  let b : Int := (n * 2 ^ (f - g) : Nat)
  let sum := (if s then -a else a) + (if t then -b else b)
  if sum = 0 then F64.zero (s && t) else F64.roundDyadic (decide (sum < 0)) sum.natAbs g

/-- `fadd` (R8). -/
def fadd (σ : Site) (a b : Word) : Word :=
  match F64.val a, F64.val b with
  | .nan, _ => F64.qnan σ
  | _, .nan => F64.qnan σ
  | .inf s, .inf t => if s = t then a else F64.qnan σ
  | .inf _, .fin _ _ _ => a
  | .fin _ _ _, .inf _ => b
  | .fin s m e, .fin t n f => F64.addFin s m e t n f

/-- `fsub` (R8): IEEE 754 subtraction is the addition of the negated operand. -/
def fsub (σ : Site) (a b : Word) : Word := fadd σ a (fneg b)

/-- `fmul` (R8). -/
def fmul (σ : Site) (a b : Word) : Word :=
  match F64.val a, F64.val b with
  | .nan, _ => F64.qnan σ
  | _, .nan => F64.qnan σ
  | .inf s, .inf t => F64.infinity (s ^^ t)
  | .inf s, .fin t n _ => if n = 0 then F64.qnan σ else F64.infinity (s ^^ t)
  | .fin s m _, .inf t => if m = 0 then F64.qnan σ else F64.infinity (s ^^ t)
  | .fin s m e, .fin t n f =>
    let g := e + f
    if 2150 ≤ g then F64.roundRatio (s ^^ t) (m * n * 2 ^ (g - 2150)) 1
    else F64.roundRatio (s ^^ t) (m * n) (2 ^ (2150 - g))

/-- `fdiv` (R8). -/
def fdiv (σ : Site) (a b : Word) : Word :=
  match F64.val a, F64.val b with
  | .nan, _ => F64.qnan σ
  | _, .nan => F64.qnan σ
  | .inf _, .inf _ => F64.qnan σ
  | .inf s, .fin t _ _ => F64.infinity (s ^^ t)
  | .fin s _ _, .inf t => F64.zero (s ^^ t)
  | .fin s m e, .fin t n f =>
    if n = 0 then (if m = 0 then F64.qnan σ else F64.infinity (s ^^ t))
    else F64.roundRatio (s ^^ t) (m * 2 ^ (e - f)) (n * 2 ^ (f - e))

/-- `fsqrt` (R8): the square root of -0.0 is -0.0, of any other negative value a NaN. -/
def fsqrt (σ : Site) (a : Word) : Word :=
  match F64.val a with
  | .nan => F64.qnan σ
  | .inf s => if s then F64.qnan σ else a
  | .fin s m e =>
    if m = 0 then a
    else if s then F64.qnan σ
    else if 1075 ≤ e then F64.roundSqrt (m * 2 ^ (e - 1075)) 1 else F64.roundSqrt m (2 ^ (1075 - e))

/-- `f64` (R8): the binary64 value of an integer. -/
def f64 (n : Int) : Word := F64.roundRatio (decide (n < 0)) n.natAbs 1

/-- The IEEE 754 comparison `a > 0` (R122): false for a NaN and for both zeros. -/
def fgtZero (a : Word) : Bool :=
  match F64.val a with
  | .nan => false
  | .inf s => !s
  | .fin s m _ => !s && m ≠ 0

/-- "Σ in order k = lo .. lo + n - 1 of t k" (R8): sequential from +0.0, `k` ascending. The addition of term `k`
is step `k` below `σ`. -/
def fsum (σ : Site) (lo n : Nat) (t : Nat → Word) : Word :=
  (List.range' lo n).foldl (fun acc k => fadd (σ.sub k) acc (t k)) 0#64

/-- A complex value (R8). -/
structure Cplx where
  re : Word
  im : Word
deriving DecidableEq, Repr

/-- (+0.0, +0.0). -/
def Cplx.zero : Cplx := ⟨0#64, 0#64⟩

/-- `cmul` (R8): its six operations are steps 0 to 5 below `σ`. -/
def cmul (σ : Site) (x y : Cplx) : Cplx :=
  ⟨fsub (σ.sub 2) (fmul (σ.sub 0) x.re y.re) (fmul (σ.sub 1) x.im y.im),
   fadd (σ.sub 5) (fmul (σ.sub 3) x.re y.im) (fmul (σ.sub 4) x.im y.re)⟩

end Sys2Proof.Machine
end

