-- ==== Sys2Proof/Machine/Ops.lean ====
section
/-! DEFINITION. The shared operations over memories and registers, and the completion of a command with or without an
error (60_exceptions.md R126 to R130), the block's only form of exception (R135): no state is saved but ERR,
LAST_OPC and CMD, control goes nowhere, and there is no return (R136). -/

namespace Sys2Proof.Machine

/-- The contents of an address, if it has been written. -/
def Memory.read {α : Type} : Memory α → Nat → Option α
  | [], _ => none
  | (k, v) :: r, a => if k = a then some v else Memory.read r a

/-- An address written; the addresses stay strictly rising. -/
def Memory.write {α : Type} : Memory α → Nat → α → Memory α
  | [], a, v => [(a, v)]
  | (k, w) :: r, a, v =>
    if a < k then (a, v) :: (k, w) :: r
    else if a = k then (a, v) :: r
    else (k, w) :: Memory.write r a v

/-- The memory that holds a list from address `a` on and nothing else. -/
def Memory.ofList {α : Type} (a : Nat) : List α → Memory α
  | [] => []
  | v :: vs => (a, v) :: Memory.ofList (a + 1) vs

/-- The addresses are strictly rising, from `lo` on, and below `bound`. -/
def Memory.risingFrom {α : Type} (lo bound : Nat) : Memory α → Bool
  | [] => true
  | (k, _) :: r => decide (lo ≤ k) && decide (k < bound) && Memory.risingFrom (k + 1) bound r

/-- The canonical form: addresses strictly rising and below `bound`. No entry can equal what an unlisted address
reads as, since that has no value (R52). -/
def Memory.wf {α : Type} (bound : Nat) (m : Memory α) : Bool := Memory.risingFrom 0 bound m

/-- The `n` contents from address `a` on, an unwritten address `i` read as `free i`. One pass over the list; on a
canonical memory it is `Memory.read` at each address. -/
def Memory.run {α : Type} (free : Nat → α) : (a n : Nat) → Memory α → List α
  | a, n, [] => (List.range' a n).map free
  | a, n, (k, v) :: r =>
    if k < a then Memory.run free a n r
    else if k - a < n then (List.range' a (k - a)).map free ++ v :: Memory.run free (k + 1) (n - (k - a) - 1) r
    else (List.range' a n).map free

/-- `B[b]` (R49); an index that names no buffer reads as an empty one, which no rule uses. -/
def State.buf (s : State) (b : Nat) : Buffer := (s.bufs[b]?).getD Buffer.empty

/-- `B[b]` replaced. -/
def State.setBuf (s : State) (b : Nat) (x : Buffer) : State := { s with bufs := s.bufs.setIfInBounds b x }

/-- `B[b].w[i]`, if it has been written (R49, R52). -/
def State.word (s : State) (b i : Nat) : Option Word := Memory.read (s.buf b).words i

/-- The site of a command's arithmetic: its own draw. -/
def State.site (s : State) : Site := ⟨s.draws, []⟩

/-- KERN[k] (R53). -/
def State.tap (s : State) (k : Nat) : Word := s.kern.getD k (Config.freeTap s.draws k)

/-- LPF[k] (R54). -/
def State.lpfTap (s : State) (k : Nat) : Word := s.lpf.getD k (Config.freeTap s.draws k)

/-- CONST[v] (R55). -/
def State.point (s : State) (v : Nat) : ConstEntry :=
  (Memory.read s.consts v).getD (let f := Config.freePoint s.draws v; ⟨f.1, f.2⟩)

/-- The completion of a command that raised no error, after its writes (R127). The draw counter advances (log 2). -/
def State.complete (opc : BitVec 8) (t : State) : State :=
  { t with status := t.status.completed opc 0#8, draws := t.draws + 1 }

/-- The completion of a command with an error: nothing but STATUS changes; CFG_VALID is cleared if the opcode is
CONFIG's (R127, R130). -/
def State.raiseError (opc : BitVec 8) (e : ErrCode) (s : State) : State :=
  { s with
    status :=
      { s.status.completed opc e.code with
        cfgValid := if opc = 0x01#8 then false else s.status.cfgValid } }

/-- The engine step of a command (R127): its writes or its error, then STATUS. -/
def finish (opc : BitVec 8) (s : State) (r : Except ErrCode State) : Host.Outcome State Fault Refusal :=
  match r with
  | .ok t => .next (t.complete opc)
  | .error e => .next (s.raiseError opc e)

/-- The issue of a command by an accepted CMD write (R126). -/
def State.issue (c : Word) (s : State) : State :=
  if s.status.busy then { s with status := { s.status with ovr := true } }
  else { s with cmd := c, status := s.status.issued }

/-- The reset of R146: the whole state of R60. What the outside will do, and the draw counter, are the model's own
and stay (logs 2, 17). -/
def State.hardReset (s : State) : State := { State.reset with inbox := s.inbox, draws := s.draws }

/-- `n` values, one per index. -/
def tabulate {α : Type} (n : Nat) (f : Nat → α) : List α := (List.range n).map f

end Sys2Proof.Machine
end

