-- ==== Sys2Proof/Machine/Bus.lean ====
section
/-! DEFINITION. The host's bus accesses to the register block (10_state.md R16 to R47, 20_memory.md R61 to R69,
70_reset_and_hazards.md R147 to R152). -/

namespace Sys2Proof.Machine

/-- The registers and windows of the map of R16, and the reserved offsets. -/
inductive Reg where
  | id | nbuf | bufWords | kernCap | ctrl | status | cmd
  | scheme | bitRate | carrierHz | alpha | lpfMult
  | order | fs | sps | rrcLen | totalDelay | sScale | baud | kernE
  | snrDb | awgnSeed | awgnPos | awgnSigma | fadeSeed | fadePos | ricianKDb | fadeHRe | fadeHIm
  | fofsHz | fdriftRate | fdelayFrac | sampleCount | timingAdj
  | bufSel | bufPtr | bufData | bufLen | bufKind
  | constIdx | constData | kernIdx | kernData | lpfIdx | lpfData
  | reserved
deriving DecidableEq, Repr

/-- The register at a byte offset of the block (R16). -/
def regAt (off : Nat) : Reg :=
  match off with
  | 0x000 => .id
  | 0x008 => .nbuf
  | 0x010 => .bufWords
  | 0x018 => .kernCap
  | 0x020 => .ctrl
  | 0x028 => .status
  | 0x030 => .cmd
  | 0x040 => .scheme
  | 0x048 => .bitRate
  | 0x050 => .carrierHz
  | 0x058 => .alpha
  | 0x060 => .lpfMult
  | 0x080 => .order
  | 0x088 => .fs
  | 0x090 => .sps
  | 0x098 => .rrcLen
  | 0x0A0 => .totalDelay
  | 0x0A8 => .sScale
  | 0x0B0 => .baud
  | 0x0B8 => .kernE
  | 0x0C0 => .snrDb
  | 0x0C8 => .awgnSeed
  | 0x0D0 => .awgnPos
  | 0x0D8 => .awgnSigma
  | 0x0E0 => .fadeSeed
  | 0x0E8 => .fadePos
  | 0x0F0 => .ricianKDb
  | 0x0F8 => .fadeHRe
  | 0x100 => .fadeHIm
  | 0x108 => .fofsHz
  | 0x110 => .fdriftRate
  | 0x118 => .fdelayFrac
  | 0x120 => .sampleCount
  | 0x128 => .timingAdj
  | 0x180 => .bufSel
  | 0x188 => .bufPtr
  | 0x190 => .bufData
  | 0x198 => .bufLen
  | 0x1A0 => .bufKind
  | 0x1C0 => .constIdx
  | 0x1C8 => .constData
  | 0x1D0 => .kernIdx
  | 0x1D8 => .kernData
  | 0x1E0 => .lpfIdx
  | 0x1E8 => .lpfData
  | _ => .reserved

/-- The offset an address reaches in the register block at BASE, if it reaches it (R62). -/
def blockOffset (addr : Nat) : Option Nat :=
  if Config.base ≤ addr ∧ addr < Config.base + 4096 then some (addr - Config.base) else none

/-- ID (R18). -/
def idWord : Word := 0x000000000001514D#64

/-- The value of a register whose read has no side effect (R16, R68), windows apart. -/
def State.regValue (s : State) : Reg → Word
  | .id => idWord
  | .nbuf => BitVec.ofNat 64 Config.nBuf
  | .bufWords => BitVec.ofNat 64 Config.bufWords
  | .kernCap => BitVec.ofNat 64 Config.kernCap
  | .ctrl => ctrlWord s.irqEn
  | .status => s.status.word
  | .cmd => s.cmd
  | .scheme => s.scheme
  | .bitRate => s.bitRate
  | .carrierHz => s.carrierHz
  | .alpha => s.alpha
  | .lpfMult => s.lpfMult
  | .order => s.order
  | .fs => s.fs
  | .sps => s.sps
  | .rrcLen => s.rrcLen
  | .totalDelay => s.totalDelay
  | .sScale => s.sScale
  | .baud => s.baud
  | .kernE => s.kernE
  | .snrDb => s.snrDb
  | .awgnSeed => s.awgnSeed
  | .awgnPos => s.awgnPos
  | .awgnSigma => s.awgnSigma
  | .fadeSeed => s.fadeSeed
  | .fadePos => s.fadePos
  | .ricianKDb => s.ricianKDb
  | .fadeHRe => s.fadeHRe
  | .fadeHIm => s.fadeHIm
  | .fofsHz => s.fofsHz
  | .fdriftRate => s.fdriftRate
  | .fdelayFrac => s.fdelayFrac
  | .sampleCount => s.sampleCount
  | .timingAdj => s.timingAdj
  | .bufSel => s.bufSel
  | .bufPtr => s.bufPtr
  | .bufData => 0#64
  | .bufLen => (s.buf s.bufSel.toNat).len
  | .bufKind => (s.buf s.bufSel.toNat).kind.code
  | .constIdx => s.constIdx
  | .constData => 0#64
  | .kernIdx => s.kernIdx
  | .kernData => 0#64
  | .lpfIdx => s.lpfIdx
  | .lpfData => 0#64
  | .reserved => 0#64

/-- The bus answers a read: with `v`, or with a free value where the spec leaves it unspecified (R52, R46, R47,
R152), which uses up a draw (logs 2, 3, 4). -/
def State.answer (s : State) (v : Option Word) : State :=
  match v with
  | some w => { s with resp := .data w }
  | none => { s with resp := .data (Config.freeRead s.draws), draws := s.draws + 1 }

/-- The word of a CONST entry as CONST_DATA shows it (R46). -/
def ConstEntry.word (e : ConstEntry) : Word := e.q ++ e.i

/-- What KERN_DATA shows at an index (R47). -/
def State.kernShown (s : State) (i : Nat) : Option Word :=
  if s.status.cfgValid && decide (i < s.rrcLen.toNat) then s.kern[i]? else none

/-- What LPF_DATA shows at an index (R47). -/
def State.lpfShown (s : State) (i : Nat) : Option Word := if s.status.cfgValid then s.lpf[i]? else none

/-- A read while idle (R43, R46, R47, R68): the four data windows advance their index. -/
def State.readIdle (s : State) (r : Reg) : State :=
  match r with
  | .bufData => { s with bufPtr := s.bufPtr + 1#64 }.answer (s.word s.bufSel.toNat s.bufPtr.toNat)
  | .constData =>
    { s with constIdx := s.constIdx + 1#64 }.answer ((Memory.read s.consts s.constIdx.toNat).map ConstEntry.word)
  | .kernData => { s with kernIdx := s.kernIdx + 1#64 }.answer (s.kernShown s.kernIdx.toNat)
  | .lpfData => { s with lpfIdx := s.lpfIdx + 1#64 }.answer (s.lpfShown s.lpfIdx.toNat)
  | _ => s.answer (some (s.regValue r))

/-- The registers a read shows while BUSY as when idle (R152). -/
def Reg.shownBusy : Reg → Bool
  | .id | .nbuf | .bufWords | .kernCap | .ctrl | .status | .cmd | .reserved => true
  | _ => false

/-- A read while BUSY (R152): every other register reads as a free value, with no side effect. -/
def State.readBusy (s : State) (r : Reg) : State :=
  if r.shownBusy then s.answer (some (s.regValue r)) else s.answer none

/-- A CTRL write (R20, R147): a soft reset if SRST is written 1, else IRQ_EN. The soft reset has the effect of
R146. -/
def State.writeCtrl (s : State) (v : Word) : State :=
  if v.getLsbD 1 then s.hardReset else { s with irqEn := v.getLsbD 0 }

/-- CFG_VALID cleared (R28). -/
def State.unconfigure (s : State) : State := { s with status := { s.status with cfgValid := false } }

/-- A CONST_DATA write (R46). -/
def State.writeConst (s : State) (v : Word) : State :=
  { s with
    consts := Memory.write s.consts s.constIdx.toNat ⟨v.extractLsb' 0 32, v.extractLsb' 32 32⟩
    constIdx := s.constIdx + 1#64 }.unconfigure

/-- A BUF_DATA write (R43). -/
def State.writeBufData (s : State) (v : Word) : State :=
  let b := s.bufSel.toNat
  let x := s.buf b
  { s.setBuf b { x with words := Memory.write x.words s.bufPtr.toNat v } with bufPtr := s.bufPtr + 1#64 }

/-- A write while idle, with its side effects (R16, R17, R28, R31, R33, R34, R43 to R47, R68). -/
def State.writeIdle (s : State) (r : Reg) (v : Word) : State :=
  match r with
  | .ctrl => s.writeCtrl v
  | .status => { s with status := s.status.writeOneToClear v }
  | .cmd => s.issue v
  | .scheme => { s with scheme := v }.unconfigure
  | .bitRate => { s with bitRate := v }.unconfigure
  | .carrierHz => { s with carrierHz := v }.unconfigure
  | .alpha => { s with alpha := v }.unconfigure
  | .lpfMult => { s with lpfMult := v }.unconfigure
  | .snrDb => { s with snrDb := v }
  | .awgnSeed => { s with awgnSeed := v, awgnPos := 0#64 }
  | .fadeSeed => { s with fadeSeed := v, fadePos := 0#64 }
  | .ricianKDb => { s with ricianKDb := v, status := { s.status with kValid := true } }
  | .fofsHz => { s with fofsHz := v }
  | .fdriftRate => { s with fdriftRate := v }
  | .fdelayFrac => { s with fdelayFrac := v }
  | .sampleCount => { s with sampleCount := v }
  | .timingAdj => { s with timingAdj := v }
  | .bufSel => { s with bufSel := v }
  | .bufPtr => { s with bufPtr := v }
  | .bufData => s.writeBufData v
  | .bufLen => s.setBuf s.bufSel.toNat { s.buf s.bufSel.toNat with len := v }
  | .bufKind => s.setBuf s.bufSel.toNat { s.buf s.bufSel.toNat with kind := BufKind.ofCode v }
  | .constIdx => { s with constIdx := v }
  | .constData => s.writeConst v
  | .kernIdx => { s with kernIdx := v }
  | .lpfIdx => { s with lpfIdx := v }
  | .id | .nbuf | .bufWords | .kernCap => s
  | .order | .fs | .sps | .rrcLen | .totalDelay | .sScale | .baud | .kernE => s
  | .awgnPos | .awgnSigma | .fadePos | .fadeHRe | .fadeHIm => s
  | .kernData | .lpfData => s
  | .reserved => s

/-- The targets whose writes have no effect while BUSY, not even on WBUSY (R17, R151). -/
def Reg.ignoresBusyWrite : Reg → Bool
  | .id | .nbuf | .bufWords | .kernCap => true
  | .order | .fs | .sps | .rrcLen | .totalDelay | .sScale | .baud | .kernE => true
  | .awgnPos | .awgnSigma | .fadePos | .fadeHRe | .fadeHIm => true
  | .reserved => true
  | _ => false

/-- A write while BUSY (R150, R151): CTRL and STATUS accept it, CMD drops it with OVR, every other writable target
drops it with WBUSY. KERN_DATA and LPF_DATA are among the last (log 14). -/
def State.writeBusy (s : State) (r : Reg) (v : Word) : State :=
  match r with
  | .ctrl => s.writeCtrl v
  | .status => { s with status := s.status.writeOneToClear v }
  | .cmd => s.issue v
  | _ => if r.ignoresBusyWrite then s else { s with status := { s.status with wbusy := true } }

/-- A window access whose index is out of range (R66, step 2). -/
def State.windowOut (s : State) (r : Reg) (isRead : Bool) : Bool :=
  match r with
  | .bufData => decide (Config.nBuf ≤ s.bufSel.toNat) || decide (Config.bufWords ≤ s.bufPtr.toNat)
  | .bufLen => decide (Config.nBuf ≤ s.bufSel.toNat)
  | .bufKind => decide (Config.nBuf ≤ s.bufSel.toNat)
  | .constData => decide (Config.constCap ≤ s.constIdx.toNat)
  | .kernData => isRead && decide (Config.kernCap ≤ s.kernIdx.toNat)
  | .lpfData => isRead && decide (Config.lpfTaps ≤ s.lpfIdx.toNat)
  | _ => false

/-- An admitted access to a register (R67): a read answers with a word, a write with ok. -/
def State.accessReg (s : State) (r : Reg) (wdata : Option Word) : State :=
  match wdata with
  | none => if s.status.busy then s.readBusy r else s.readIdle r
  | some v => { (if s.status.busy then s.writeBusy r v else s.writeIdle r v) with resp := .ok }

/-- An access at an offset of the block: the two steps of R66, then the register. -/
def accessOffset (off width : Nat) (wdata : Option Word) (s : State) : Host.Outcome State Fault Refusal :=
  if width ≠ 8 ∨ off % 8 ≠ 0 then .fault .busWidthOrAlignment
  else if s.status.busy = false ∧ s.windowOut (regAt off) wdata.isNone = true then .fault .busWindowRange
  else .next (s.accessReg (regAt off) wdata)

/-- One host access (R61, R62): an access outside the block is not QMD's and changes nothing (log 8). -/
def busStep (a : BusAccess) (s : State) : Host.Outcome State Fault Refusal :=
  match blockOffset a.addr with
  | none => .next s
  | some off => accessOffset off a.width a.wdata s

end Sys2Proof.Machine
end

