-- ==== Sys2Proof/Machine/Exact.lean ====
section
/-! DEFINITION. RN of the exact real functions of R8 (cos, sin, sqrt, powers of ten, π): every such value is
enclosed between two rationals with a common denominator, at growing precision, until both ends round to the same
binary64 value, which is then RN of the exact value.

`Iv` is an enclosure in units of `2^-p`, `Enc` one with any denominator. The angles of every rule are rational
multiples of π, so they are reduced exactly. Logs 10, 11 and 12. -/

namespace Sys2Proof.Machine

/-- `⌈a / b⌉` for positive `b`. -/
def cdiv (a b : Int) : Int := -((-a) / b)

/-- An enclosure `[lo · 2^-p, hi · 2^-p]` at a precision `p` known from the context. -/
structure Iv where
  lo : Int
  hi : Int
deriving DecidableEq, Repr

/-- The smallest enclosure of a rational. -/
def Iv.ofRat (p : Nat) (q : ℚ) : Iv := ⟨q.num * 2 ^ p / q.den, cdiv (q.num * 2 ^ p) q.den⟩
/-- Enclosure of a sum. -/
def Iv.add (a b : Iv) : Iv := ⟨a.lo + b.lo, a.hi + b.hi⟩
/-- Enclosure of a negation. -/
def Iv.neg (a : Iv) : Iv := ⟨-a.hi, -a.lo⟩
/-- Enclosure of a difference. -/
def Iv.sub (a b : Iv) : Iv := Iv.add a (Iv.neg b)
/-- Both ends moved outwards by `d` units. -/
def Iv.widen (a : Iv) (d : Int) : Iv := ⟨a.lo - d, a.hi + d⟩

/-- Enclosure of a product: the least and the greatest product of ends. -/
def Iv.mul (p : Nat) (a b : Iv) : Iv :=
  let w := a.lo * b.lo
  let x := a.lo * b.hi
  let y := a.hi * b.lo
  let z := a.hi * b.hi
  ⟨min (min w x) (min y z) / 2 ^ p, cdiv (max (max w x) (max y z)) (2 ^ p)⟩

/-- Enclosure of a product with a rational. -/
def Iv.mulRat (a : Iv) (q : ℚ) : Iv :=
  if 0 ≤ q.num then ⟨a.lo * q.num / q.den, cdiv (a.hi * q.num) q.den⟩
  else ⟨a.hi * q.num / q.den, cdiv (a.lo * q.num) q.den⟩

/-- The enclosure that says nothing of a value below `2^1100` in size. -/
def Iv.unknown (p : Nat) : Iv := ⟨-(2 ^ (p + 1100)), 2 ^ (p + 1100)⟩

/-- Enclosure of a quotient by a positive value. -/
def Iv.div (p : Nat) (a b : Iv) : Iv :=
  if b.lo ≤ 0 then Iv.unknown p else
  ⟨(if 0 ≤ a.lo then a.lo * 2 ^ p / b.hi else a.lo * 2 ^ p / b.lo),
   (if 0 ≤ a.hi then cdiv (a.hi * 2 ^ p) b.lo else cdiv (a.hi * 2 ^ p) b.hi)⟩

/-- Enclosure of the square root of a non-negative value. -/
def Iv.sqrt (p : Nat) (a : Iv) : Iv :=
  ⟨(isqrt (a.lo.toNat * 2 ^ p) : Nat), (isqrt (a.hi.toNat * 2 ^ p) + 1 : Nat)⟩

/-- The terms from `j` on of `atan (1/m) = Σ (-1)^j / ((2j+1) · m^(2j+1))`, added to `acc`; `pw` encloses
`1 / m^(2j+1)`. What is left out at the end is smaller than the first term left out. -/
def atanInvFrom (m : Nat) : (fuel j : Nat) → (pw acc : Iv) → Iv
  | 0, _, pw, acc => acc.widen pw.hi
  | k + 1, j, pw, acc =>
    if pw.hi ≤ 1 then acc.widen 1 else
    let t : Iv := ⟨pw.lo / (2 * j + 1 : Nat), cdiv pw.hi (2 * j + 1 : Nat)⟩
    atanInvFrom m k (j + 1) ⟨pw.lo / (m * m : Nat), cdiv pw.hi (m * m : Nat)⟩
      (if j % 2 = 0 then acc.add t else acc.sub t)

/-- Enclosure of `atan (1/m)`. -/
def atanInv (p m : Nat) : Iv := atanInvFrom m p 0 ⟨2 ^ p / (m : Int), cdiv (2 ^ p) m⟩ ⟨0, 0⟩

/-- Enclosure of `π = 16 atan (1/5) - 4 atan (1/239)`. -/
def piIv (p : Nat) : Iv := ((atanInv p 5).mulRat 16).sub ((atanInv p 239).mulRat 4)

/-- The terms from `j` on of `Σ (-1)^j x^(2j) / (2j + c)!`, added to `acc`; `x2` encloses `x²`, `t` term `j`
without its sign. For `x ≤ π/2` the terms fall from the second on, so what is left out is smaller than the first
term left out. -/
def altSeriesFrom (p : Nat) (x2 : Iv) (c : Nat) : (fuel j : Nat) → (t acc : Iv) → Iv
  | 0, _, t, acc => acc.widen t.hi
  | k + 1, j, t, acc =>
    if t.hi ≤ 1 then acc.widen 1 else
    let d : Int := ((2 * j + 1 + c) * (2 * j + 2 + c) * 2 ^ p : Nat)
    altSeriesFrom p x2 c k (j + 1) ⟨t.lo * x2.lo / d, cdiv (t.hi * x2.hi) d⟩
      (if j % 2 = 0 then acc.add t else acc.sub t)

/-- `x²` at `x = π · r`, `0 ≤ r`. -/
def piSquare (p : Nat) (π : Iv) (r : ℚ) : Iv :=
  let x := π.mulRat r
  ⟨max x.lo 0 * max x.lo 0 / 2 ^ p, cdiv (x.hi * x.hi) (2 ^ p)⟩

/-- `cos (π r) = ± cos (π r')` with `0 ≤ r' ≤ 1/2`: the sign (true for minus) and `r'`, by exact reduction. -/
def cosReduce (r : ℚ) : Bool × ℚ :=
  let t := r - 2 * (r / 2).floor
  let t := if 1 < t then 2 - t else t
  if 1 / 2 < t then (true, 1 - t) else (false, t)

/-- Enclosure of `cos (π r)`; exactly 0 where the cosine is. -/
def cosPi (p : Nat) (π : Iv) (r : ℚ) : Iv :=
  let (neg, t) := cosReduce r
  if t = 1 / 2 then ⟨0, 0⟩ else
  let c := altSeriesFrom p (piSquare p π t) 0 p 0 ⟨2 ^ p, 2 ^ p⟩ ⟨0, 0⟩
  if neg then c.neg else c

/-- Enclosure of `sin (π r) = cos (π (r - 1/2))`. -/
def sinPi (p : Nat) (π : Iv) (r : ℚ) : Iv := cosPi p π (r - 1 / 2)

/-- Enclosure of `sinc z = sin (π z) / (π z)`, `sinc 0 = 1` (R95, R114). -/
def sincPi (p : Nat) (π : Iv) (z : ℚ) : Iv :=
  if |z| ≤ 1 / 2 then altSeriesFrom p (piSquare p π |z|) 1 p 0 ⟨2 ^ p, 2 ^ p⟩ ⟨0, 0⟩
  else (Iv.div p (sinPi p π z) π).mulRat (1 / z)

/-- The terms from `j` on of `atanh (1/m) = Σ 1 / ((2j+1) · m^(2j+1))`; what is left out is at most twice the
power at which the sum ends. -/
def atanhInvFrom (m : Nat) : (fuel j : Nat) → (pw acc : Iv) → Iv
  | 0, _, pw, acc => ⟨acc.lo, acc.hi + 2 * pw.hi⟩
  | k + 1, j, pw, acc =>
    if pw.hi ≤ 1 then ⟨acc.lo, acc.hi + 2⟩ else
    atanhInvFrom m k (j + 1) ⟨pw.lo / (m * m : Nat), cdiv pw.hi (m * m : Nat)⟩
      (acc.add ⟨pw.lo / (2 * j + 1 : Nat), cdiv pw.hi (2 * j + 1 : Nat)⟩)

/-- Enclosure of `atanh (1/m)`. -/
def atanhInv (p m : Nat) : Iv := atanhInvFrom m p 0 ⟨2 ^ p / (m : Int), cdiv (2 ^ p) m⟩ ⟨0, 0⟩

/-- Enclosure of `ln 10 = 3 ln 2 + ln (5/4) = 6 atanh (1/3) + 2 atanh (1/9)`. -/
def ln10Iv (p : Nat) : Iv := ((atanhInv p 3).mulRat 6).add ((atanhInv p 9).mulRat 2)

/-- The terms from `j` on of `Σ x^j / j!` for `0 ≤ x < 2.31`; what is left out is at most twice the term at which
the sum ends. -/
def expFrom (p : Nat) (x : Iv) : (fuel j : Nat) → (t acc : Iv) → Iv
  | 0, _, t, acc => ⟨acc.lo, acc.hi + 2 * t.hi⟩
  | k + 1, j, t, acc =>
    if t.hi ≤ 1 then ⟨acc.lo, acc.hi + 2⟩ else
    let d : Int := ((j + 1) * 2 ^ p : Nat)
    expFrom p x k (j + 1) ⟨t.lo * x.lo / d, cdiv (t.hi * x.hi) d⟩ (acc.add t)

/-- Enclosure of `10^f` for `0 ≤ f < 1`. -/
def pow10Frac (p : Nat) (f : ℚ) : Iv := expFrom p ((ln10Iv p).mulRat f) p 0 ⟨2 ^ p, 2 ^ p⟩ ⟨0, 0⟩

/-- Enclosure of `10^y` for `y ≤ 0`; below `2^-p` it is `[0, 2^-p]`. -/
def pow10NonPos (p : Nat) (y : ℚ) : Iv :=
  let k := (-y.floor).toNat
  if p < k then ⟨0, 1⟩ else
  let e := pow10Frac p (y - y.floor)
  ⟨e.lo / 10 ^ k, cdiv e.hi (10 ^ k)⟩

/-- An enclosure `[lo / den, hi / den]`. -/
structure Enc where
  lo : Int
  hi : Int
  den : Nat
deriving DecidableEq, Repr

/-- An enclosure in units of `2^-p` as one with a denominator. -/
def Iv.enc (p : Nat) (a : Iv) : Enc := ⟨a.lo, a.hi, 2 ^ p⟩

/-- RN of an exact integer ratio `n / den`, keeping the sign of an `n` whose ratio rounds to 0. -/
def Enc.endWord (n : Int) (den : Nat) : Word := F64.roundRatio (decide (n < 0)) n.natAbs den

/-- RN of every value of the enclosure, if they all have one RN and the sign of the value is known: an exact 0 is
+0.0 (R8), a positive value that rounds to 0 is +0.0, a negative one -0.0 (log 11). -/
def Enc.round? (e : Enc) : Option Word :=
  if e.lo = 0 ∧ e.hi = 0 then some 0#64
  else if e.lo < 0 ∧ 0 ≤ e.hi then none
  else if Enc.endWord e.lo e.den = Enc.endWord e.hi e.den then some (Enc.endWord e.lo e.den)
  else none

/-- The place of a word that is no NaN in the order of the binary64 values, both zeros at 0. -/
def F64.rank (x : Word) : Int := if F64.sign x then -((x.toNat % 2 ^ 63 : Nat) : Int) else (x.toNat : Int)
/-- The word at a place. -/
def F64.ofRank (i : Int) : Word := F64.pack (decide (i < 0)) i.natAbs

/-- RN of a value of the enclosure where its precision leaves several binary64 values possible: a free one of them.
Log 10. -/
def Enc.pick (e : Enc) : Word :=
  match e.round? with
  | some w => w
  | none =>
    let a := F64.rank (Enc.endWord e.lo e.den)
    let b := F64.rank (Enc.endWord e.hi e.den)
    F64.ofRank (a + (Config.freeRound e.lo e.hi e.den % ((b - a).toNat + 1) : Nat))

/-- All values of a list of enclosures rounded, if every one has a single RN. -/
def roundAll? : List Enc → Option (List Word)
  | [] => some []
  | e :: es =>
    match e.round?, roundAll? es with
    | some w, some ws => some (w :: ws)
    | _, _ => none

/-- The precisions tried, in bits. Log 10. -/
def precisions : List Nat := [128, 256, 512, 1024, 2048, 4096, 8192, 16384]

/-- The last precision: a value it leaves open is picked freely. Log 10. -/
def lastPrecision : Nat := 32768

/-- RN of a list of exact reals, from their enclosures at a given precision: the first precision of the list at
which each has a single RN. -/
def rnListAt (enc : Nat → List Enc) : List Nat → List Word
  | [] => (enc lastPrecision).map Enc.pick
  | p :: ps =>
    match roundAll? (enc p) with
    | some ws => ws
    | none => rnListAt enc ps

/-- RN of a list of exact reals (R8). -/
def rnList (enc : Nat → List Enc) : List Word := rnListAt enc precisions

/-- RN of one exact real (R8). -/
def rnReal (enc : Nat → Enc) : Word := (rnList fun p => [enc p]).headD 0#64

/-- Twice `cos (π r)` where it is rational, for `0 ≤ r ≤ 1/2` (Niven's theorem; log 12). -/
def twiceCosRat (r : ℚ) : Option ℚ :=
  if r = 0 then some 2 else if r = 1 / 3 then some 1 else if r = 1 / 2 then some 0 else none

/-- Is `sin (π x) + c · cos (π y)` exactly 0, for a rational `c ≠ 0`? Two cosines of different angles strictly
between 0 and π/2 have no rational relation unless both are rational (log 12). -/
def sinCosSumZero (x c y : ℚ) : Bool :=
  let (s, r) := cosReduce (x - 1 / 2)
  let (t, q) := cosReduce y
  let a : ℚ := if s then -1 else 1
  let b : ℚ := if t then -c else c
  match twiceCosRat r, twiceCosRat q with
  | some u, some v => a * u + b * v = 0
  | none, none => r = q && a + b = 0
  | _, _ => false

/-- Enclosure of the RRC impulse response `h(u)` with roll-off `a` (R94), for `0 ≤ u`; `h` is even in `u`. -/
def rrcH (p : Nat) (π : Iv) (a u : ℚ) : Iv :=
  if u = 0 then (Iv.ofRat p (1 - a)).add (Iv.div p (Iv.ofRat p (4 * a)) π)
  else if 4 * a * u = 1 then
    let twoOverPi := Iv.div p (Iv.ofRat p 2) π
    let s := Iv.mul p ((Iv.ofRat p 1).add twoOverPi) (sinPi p π (1 / (4 * a)))
    let c := Iv.mul p ((Iv.ofRat p 1).sub twoOverPi) (cosPi p π (1 / (4 * a)))
    (Iv.mul p (s.add c) (Iv.sqrt p (Iv.ofRat p (1 / 2)))).mulRat a
  else if sinCosSumZero (u * (1 - a)) (4 * a * u) (u * (1 + a)) then ⟨0, 0⟩
  else
    let num := (sinPi p π (u * (1 - a))).add ((cosPi p π (u * (1 + a))).mulRat (4 * a * u))
    (Iv.div p num π).mulRat (1 / (u * (1 - (4 * a * u) ^ 2)))

/-- Enclosures of `h((k - 3·SPS) / R)` for `k = 0 .. 6·SPS - 1` (R94). -/
def rrcEncs (a R : ℚ) (sps p : Nat) : List Enc :=
  let π := piIv p
  (List.range (6 * sps)).map fun (k : Nat) => (rrcH p π a |((k : ℚ) - 3 * sps) / R|).enc p

/-- The RRC kernel (R94): `RN(h((k - 3·SPS) / R))` for `k = 0 .. 6·SPS - 1`. -/
def rrcKernel (a R : ℚ) (sps : Nat) : List Word := rnList (rrcEncs a R sps)

/-- The symmetric Hamming window `27/50 - (23/50) cos (2π k / n)` (R95, R114). -/
def hamming (p : Nat) (π : Iv) (n k : Nat) : Iv :=
  (Iv.ofRat p (27 / 50)).sub ((cosPi p π (2 * k / n)).mulRat (23 / 50))

/-- Enclosures of the `n + 1` Hamming-windowed sinc taps `w_k sinc(z k) / Σ w_j sinc(z j)`. -/
def windowedSincEnc (n : Nat) (z : Nat → ℚ) (p : Nat) : List Enc :=
  let π := piIv p
  let q := (List.range (n + 1)).map fun k => Iv.mul p (hamming p π n k) (sincPi p π (z k))
  let g := q.foldl Iv.add ⟨0, 0⟩
  q.map fun t => (Iv.div p t g).enc p

/-- The receiver low-pass filter (R95): `RN(g_k / G)`, `k = 0 .. 100`. The factor `2·nu` that every `g_k` shares
cancels in `g_k / G` and is left out. -/
def lpfKernel (nu : ℚ) : List Word := rnList (windowedSincEnc 100 fun k => 2 * nu * ((k : ℚ) - 50))

/-- The fractional-delay taps (R114): `RN(q_k / Σ q_j)`, `k = 0 .. 20`. -/
def fdelayTaps (d : ℚ) : List Word := rnList (windowedSincEnc 20 fun k => (k : ℚ) - 10 - d)

/-- The phasors `(RN(cos θ_n), RN(-sin θ_n))` for `n < N` with `θ_n = π · r n` (R112, R113). -/
def phasors (N : Nat) (r : Nat → ℚ) : List Cplx :=
  let c := rnList fun p => let π := piIv p; (List.range N).map fun n => (cosPi p π (r n)).enc p
  let s := rnList fun p => let π := piIv p; (List.range N).map fun n => (sinPi p π (r n)).neg.enc p
  List.zipWith Cplx.mk c s

/-- Enclosure of `10^y`; exact where `y` is an integer. -/
def pow10Enc (y : ℚ) (p : Nat) : Enc :=
  let k := y.floor
  let f := y - k
  let e : Iv := if f = 0 then ⟨2 ^ p, 2 ^ p⟩ else pow10Frac p f
  if 0 ≤ k then ⟨e.lo * 10 ^ k.toNat, e.hi * 10 ^ k.toNat, 2 ^ p⟩ else ⟨e.lo, e.hi, 2 ^ p * 10 ^ (-k).toNat⟩

/-- `RN(10^y)` (R109): beyond the exponents of binary64 it is +infinity or +0. -/
def rnPow10 (y : ℚ) : Word :=
  if 309 ≤ y then F64.infinity false
  else if y ≤ -324 then F64.zero false
  else rnReal (pow10Enc y)

/-- Enclosures of `los = √(K/(K+1))` and `dif = √(1/(K+1))` for `K = 10^y` (R111). -/
def ricianAmplitudes (p : Nat) (y : ℚ) : Iv × Iv :=
  let one := Iv.ofRat p 1
  let m := pow10NonPos p (-|y|)
  let small := Iv.sqrt p (Iv.div p m (one.add m))
  let large := Iv.sqrt p (Iv.div p one (one.add m))
  if 0 ≤ y then (large, small) else (small, large)

/-- Enclosure of `los + dif · a / √2` (R111). -/
def ricianReEnc (y a : ℚ) (p : Nat) : Enc :=
  let (los, dif) := ricianAmplitudes p y
  (los.add ((Iv.mul p dif (Iv.sqrt p (Iv.ofRat p (1 / 2)))).mulRat a)).enc p

/-- Enclosure of `dif · b / √2` for `0 ≤ b` (R111); for `K = 1` it is exactly `b / 2`. -/
def ricianImEnc (y b : ℚ) (p : Nat) : Enc :=
  if y = 0 then ⟨b.num, b.num, 2 * b.den⟩ else
  let (_, dif) := ricianAmplitudes p y
  ((Iv.mul p dif (Iv.sqrt p (Iv.ofRat p (1 / 2)))).mulRat b).enc p

/-- The Rician coefficient `h` (R111) of the draws `a` and `b` at `K = 10^y`; RN is odd, so the imaginary part takes
the sign of `b`. -/
def ricianH (y a b : ℚ) : Cplx :=
  let im := rnReal (ricianImEnc y |b|)
  ⟨rnReal (ricianReEnc y a), if b < 0 then fneg im else im⟩

/-- The Rayleigh coefficient `RN(√(a² + b²) / √2)` (R110). -/
def rayleighH (a b : ℚ) : Word := rnSqrtRat ((a ^ 2 + b ^ 2) / 2)

/-- The order scaling constant S (R96). -/
def scaleS (order : Nat) : Word :=
  if order ≤ 2 then 0x3FF0000000000000#64 else rnSqrtRat (2 * ((2 : ℚ) ^ order - 1) / 3)

/-- `round_half_even` of an exact non-negative rational (R91). -/
def roundHalfEven (r : ℚ) : Nat := roundNearestEven r.num.natAbs r.den

/-- The NCO ROM's cosines (R57), entry `m` at index `m`. -/
def ncoCosTable : List Word :=
  [0x3FF0000000000000#64, 0x3FEE6F0E134454FF#64, 0x3FE9E3779B97F4A8#64, 0x3FE2CF2304755A5E#64, 0x3FD3C6EF372FE950#64,
   0x0000000000000000#64, 0xBFD3C6EF372FE950#64, 0xBFE2CF2304755A5E#64, 0xBFE9E3779B97F4A8#64, 0xBFEE6F0E134454FF#64,
   0xBFF0000000000000#64, 0xBFEE6F0E134454FF#64, 0xBFE9E3779B97F4A8#64, 0xBFE2CF2304755A5E#64, 0xBFD3C6EF372FE950#64,
   0x0000000000000000#64, 0x3FD3C6EF372FE950#64, 0x3FE2CF2304755A5E#64, 0x3FE9E3779B97F4A8#64, 0x3FEE6F0E134454FF#64]

/-- The NCO ROM's sines (R57). -/
def ncoSinTable : List Word :=
  [0x0000000000000000#64, 0x3FD3C6EF372FE950#64, 0x3FE2CF2304755A5E#64, 0x3FE9E3779B97F4A8#64, 0x3FEE6F0E134454FF#64,
   0x3FF0000000000000#64, 0x3FEE6F0E134454FF#64, 0x3FE9E3779B97F4A8#64, 0x3FE2CF2304755A5E#64, 0x3FD3C6EF372FE950#64,
   0x0000000000000000#64, 0xBFD3C6EF372FE950#64, 0xBFE2CF2304755A5E#64, 0xBFE9E3779B97F4A8#64, 0xBFEE6F0E134454FF#64,
   0xBFF0000000000000#64, 0xBFEE6F0E134454FF#64, 0xBFE9E3779B97F4A8#64, 0xBFE2CF2304755A5E#64, 0xBFD3C6EF372FE950#64]

/-- `NCO_C[n mod 20]` (R57). -/
def ncoCos (n : Nat) : Word := ncoCosTable.getD (n % 20) 0#64
/-- `NCO_S[n mod 20]` (R57). -/
def ncoSin (n : Nat) : Word := ncoSinTable.getD (n % 20) 0#64

end Sys2Proof.Machine
end

