-- ==== Sys2Proof/Machine/Operands.lean ====
section
/-! DEFINITION. The operand forms of the commands: buffers read and written by element at their kind's layout
(10_state.md R50, R51; 20_memory.md R70, R71), and the checks every data command makes first (60_exceptions.md R129). -/

namespace Sys2Proof.Machine

/-- The words per element (R50). -/
def BufKind.wpe : BufKind → Nat
  | .none => 0
  | .bits => 1
  | .real => 1
  | .cplx => 2

/-- A kind REAL or CPLX. -/
def BufKind.isSignal : BufKind → Bool
  | .real => true
  | .cplx => true
  | .none => false
  | .bits => false

/-- The first `n` words of a buffer as a command reads them: an unwritten word is a free value (R52). -/
def Buffer.firstWords (x : Buffer) (draw n : Nat) : List Word := Memory.run (Config.freeWord draw) 0 n x.words

/-- Consecutive words as complex elements (R50). -/
def pairUp : List Word → List Cplx
  | a :: b :: r => ⟨a, b⟩ :: pairUp r
  | [_] => []
  | [] => []

/-- The elements of a BITS buffer: bit 0 of each word (R50). -/
def Buffer.bitElems (x : Buffer) (draw : Nat) : Array Bool :=
  ((x.firstWords draw x.len.toNat).map fun w => w.getLsbD 0).toArray

/-- The elements of a REAL buffer (R50). -/
def Buffer.realElems (x : Buffer) (draw : Nat) : Array Word := (x.firstWords draw x.len.toNat).toArray

/-- The elements of a CPLX buffer (R50). -/
def Buffer.cplxElems (x : Buffer) (draw : Nat) : Array Cplx := (pairUp (x.firstWords draw (2 * x.len.toNat))).toArray

/-- A result: elements of one kind. -/
inductive Samples where
  | bits (l : List Bool)
  | real (l : List Word)
  | cplx (l : List Cplx)
deriving DecidableEq, Repr

/-- The kind of a result. -/
def Samples.kind : Samples → BufKind
  | .bits _ => .bits
  | .real _ => .real
  | .cplx _ => .cplx

/-- The number of elements of a result. -/
def Samples.length : Samples → Nat
  | .bits l => l.length
  | .real l => l.length
  | .cplx l => l.length

/-- The words of a result (R50): a bit is the word 0 or 1, a complex element its two parts. -/
def Samples.words : Samples → List Word
  | .bits l => l.map fun b => if b then 1#64 else 0#64
  | .real l => l
  | .cplx l => l.flatMap fun c => [c.re, c.im]

/-- A buffer as a command writes it: words 0 to n·wpe - 1, the rest unwritten (R50, R51). -/
def Samples.buffer (y : Samples) : Buffer :=
  ⟨BitVec.ofNat 64 y.length, y.kind, Memory.ofList 0 y.words⟩

/-- The destination buffer written (R50, R70). -/
def State.putResult (s : State) (dst : Nat) (y : Samples) : State := s.setBuf dst y.buffer

/-- A data command (R129): E_BUFID, then E_NOCFG, then the command's own checks and writes on the source buffer. -/
def dataCommand (opc : BitVec 8) (dst src : Nat) (s : State) (body : Buffer → Except ErrCode State) :
    Host.Outcome State Fault Refusal :=
  finish opc s
    (if Config.nBuf ≤ src ∨ Config.nBuf ≤ dst then .error .bufId
     else if s.status.cfgValid = false then .error .noCfg
     else body (s.buf src))

/-- "Σ in order k = lo .. lo + n - 1 of fmul(a k, b k)" (R8). The product of term `k` is step 0 below the step of its
addition. -/
def dotFrom (σ : Site) (lo n : Nat) (a b : Nat → Word) : Word :=
  fsum σ lo n fun k => fmul ((σ.sub k).sub 0) (a k) (b k)

/-- Output `n` of the full convolution of `L` taps with `N` samples (R105, R114, R117):
`Σ in order k = max(0, n - N + 1) .. min(n, L - 1) of fmul(tap k, x (n - k))`. -/
def convolveAt (σ : Site) (L N : Nat) (tap x : Nat → Word) (n : Nat) : Word :=
  let lo := n + 1 - N
  let hi := min n (L - 1)
  dotFrom σ lo (hi + 1 - lo) tap fun k => x (n - k)

/-- Output `n` of the full convolution of a complex signal, each part by itself. -/
def convolveCplxAt (σ : Site) (L N : Nat) (tap : Nat → Word) (x : Nat → Cplx) (n : Nat) : Cplx :=
  ⟨convolveAt ((σ.sub n).sub 0) L N tap (fun k => (x k).re) n,
   convolveAt ((σ.sub n).sub 1) L N tap (fun k => (x k).im) n⟩

/-- The length of a full convolution: nothing for an empty input (R105, R114, R117; D35). -/
def fullLength (L N : Nat) : Nat := if N = 0 then 0 else N + L - 1

end Sys2Proof.Machine
end

