-- ==== Sys2Proof/Machine/Channel.lean ====
section
/-! DEFINITION. The channel commands AWGN, FADE.RAY, FADE.RIC, FOFS, FDRIFT and FDELAY (42_channel.md). -/

namespace Sys2Proof.Machine

/-- 2.0. -/
def fTwo : Word := 0x4000000000000000#64

/-- The noise power `Pn = fdiv(fdiv(acc, f64(N)), RN(10^(snr/10)))` from the sum of squares (R109). -/
def noisePower (σ : Site) (acc : Word) (N : Nat) (snr : ℚ) : Word :=
  fdiv (σ.sub 2) (fdiv (σ.sub 1) acc (f64 N)) (rnPow10 (snr / 10))

/-- The sum of squares of a real signal (R109). -/
def energyReal (σ : Site) (N : Nat) (x : Nat → Word) : Word := dotFrom (σ.sub 0) 0 N x x

/-- The sum of squares of a complex signal (R109). -/
def energyCplx (σ : Site) (N : Nat) (x : Nat → Cplx) : Word :=
  let τ := σ.sub 0
  fsum τ 0 N fun n =>
    fadd ((τ.sub n).sub 2) (fmul ((τ.sub n).sub 0) (x n).re (x n).re) (fmul ((τ.sub n).sub 1) (x n).im (x n).im)

/-- A sample with noise: `fadd(x, fmul(sig, GAUSS(seed, idx)))` (R109). -/
def noisy (σ : Site) (sig seed idx x : Word) : Word :=
  fadd (σ.sub 1) x (fmul (σ.sub 0) sig (Config.gauss seed idx.toNat))

/-- The registers AWGN writes beside its buffer (R109). -/
def State.putNoise (s : State) (draws : Nat) (sig : Word) : State :=
  { s with awgnPos := s.awgnPos + BitVec.ofNat 64 draws, awgnSigma := sig }

/-- AWGN of a REAL signal of `N > 0` samples (R109). -/
def awgnReal (dst : Nat) (s : State) (N : Nat) (x : Nat → Word) : State :=
  let σ := s.site
  let sig := fsqrt (σ.sub 3) (noisePower σ (energyReal σ N x) N (F64.toRat s.snrDb))
  let y := tabulate N fun n => noisy ((σ.sub 4).sub n) sig s.awgnSeed (s.awgnPos + BitVec.ofNat 64 n) (x n)
  (s.putResult dst (.real y)).putNoise N sig

/-- AWGN of a CPLX signal of `N > 0` samples: half the noise power in each part, draws 2n and 2n + 1 (R109). -/
def awgnCplx (dst : Nat) (s : State) (N : Nat) (x : Nat → Cplx) : State :=
  let σ := s.site
  let Pn := noisePower σ (energyCplx σ N x) N (F64.toRat s.snrDb)
  let sig := fsqrt (σ.sub 3) (fdiv (σ.sub 5) Pn fTwo)
  let y := tabulate N fun n =>
    (⟨noisy (((σ.sub 4).sub n).sub 0) sig s.awgnSeed (s.awgnPos + BitVec.ofNat 64 (2 * n)) (x n).re,
      noisy (((σ.sub 4).sub n).sub 1) sig s.awgnSeed (s.awgnPos + BitVec.ofNat 64 (2 * n + 1)) (x n).im⟩ : Cplx)
  (s.putResult dst (.cplx y)).putNoise (2 * N) sig

/-- AWGN on its source buffer (R109). An empty input draws nothing. -/
def runAwgn (dst : Nat) (s : State) (x : Buffer) : Except ErrCode State :=
  let N := x.len.toNat
  if x.kind.isSignal = false then .error .kind
  else if F64.isFinite s.snrDb = false then .error .param
  else if Config.bufWords < x.kind.wpe * N then .error .cap
  else if x.kind = .real then
    if N = 0 then .ok (s.putResult dst (.real []))
    else
      let e := x.realElems s.draws
      .ok (awgnReal dst s N fun n => e.getD n 0#64)
  else
    if N = 0 then .ok (s.putResult dst (.cplx []))
    else
      let e := x.cplxElems s.draws
      .ok (awgnCplx dst s N fun n => e.getD n Cplx.zero)

/-- AWGN bD, bS (R109). -/
def execAwgn (dst src : Nat) (s : State) : Host.Outcome State Fault Refusal := dataCommand 0x20#8 dst src s (runAwgn dst s)

/-- The two draws of a fading command: `GAUSS(seed, p)` and `GAUSS(seed, p + 1 mod 2^64)` (R110, R111). -/
def State.fadeDraws (s : State) : ℚ × ℚ :=
  (F64.toRat (Config.gauss s.fadeSeed s.fadePos.toNat), F64.toRat (Config.gauss s.fadeSeed (s.fadePos + 1#64).toNat))

/-- The registers a fading command writes beside its buffer (R110, R111). -/
def State.putFade (s : State) (h : Cplx) : State :=
  { s with fadePos := s.fadePos + 2#64, fadeHRe := h.re, fadeHIm := h.im }

/-- FADE.RAY on its source buffer (R110): one real gain, the kind is kept. -/
def runFadeRay (dst : Nat) (s : State) (x : Buffer) : Except ErrCode State :=
  let N := x.len.toNat
  if x.kind.isSignal = false then .error .kind
  else if Config.bufWords < x.kind.wpe * N then .error .cap
  else
    let h := rayleighH s.fadeDraws.1 s.fadeDraws.2
    let y : Samples :=
      if x.kind = .real then
        let e := x.realElems s.draws
        .real (tabulate N fun n => fmul (s.site.sub n) (e.getD n 0#64) h)
      else
        let e := x.cplxElems s.draws
        .cplx (tabulate N fun n =>
          ⟨fmul ((s.site.sub n).sub 0) (e.getD n Cplx.zero).re h, fmul ((s.site.sub n).sub 1) (e.getD n Cplx.zero).im h⟩)
    .ok ((s.putResult dst y).putFade ⟨h, 0#64⟩)

/-- FADE.RAY bD, bS (R110). -/
def execFadeRay (dst src : Nat) (s : State) : Host.Outcome State Fault Refusal :=
  dataCommand 0x21#8 dst src s (runFadeRay dst s)

/-- A real sample times a complex factor, or the product of two complex values (R111 to R113). -/
def rotateReal (σ : Site) (x : Word) (h : Cplx) : Cplx := ⟨fmul (σ.sub 0) x h.re, fmul (σ.sub 1) x h.im⟩

/-- A signal of `N` samples times one complex factor per sample (R111 to R113). -/
def rotate (s : State) (x : Buffer) (h : Nat → Cplx) : List Cplx :=
  if x.kind = .real then
    let e := x.realElems s.draws
    tabulate x.len.toNat fun n => rotateReal (s.site.sub n) (e.getD n 0#64) (h n)
  else
    let e := x.cplxElems s.draws
    tabulate x.len.toNat fun n => cmul (s.site.sub n) (e.getD n Cplx.zero) (h n)

/-- FADE.RIC on its source buffer (R111). -/
def runFadeRic (dst : Nat) (s : State) (x : Buffer) : Except ErrCode State :=
  if x.kind.isSignal = false then .error .kind
  else if s.status.kValid = false then .error .noK
  else if F64.isFinite s.ricianKDb = false then .error .param
  else if Config.bufWords < 2 * x.len.toNat then .error .cap
  else
    let h := ricianH (F64.toRat s.ricianKDb / 10) s.fadeDraws.1 s.fadeDraws.2
    .ok ((s.putResult dst (.cplx (rotate s x fun _ => h))).putFade h)

/-- FADE.RIC bD, bS (R111). -/
def execFadeRic (dst src : Nat) (s : State) : Host.Outcome State Fault Refusal :=
  dataCommand 0x21#8 dst src s (runFadeRic dst s)

/-- The rotation of a signal by phasors of the angles `π · r n`, after the checks FOFS and FDRIFT share: the kind, a
finite parameter and the capacity (R112, R113). -/
def runPhasors (dst : Nat) (s : State) (param : Word) (r : Nat → ℚ) (x : Buffer) : Except ErrCode State :=
  if x.kind.isSignal = false then .error .kind
  else if F64.isFinite param = false then .error .param
  else if Config.bufWords < 2 * x.len.toNat then .error .cap
  else
    let e := (phasors x.len.toNat r).toArray
    .ok (s.putResult dst (.cplx (rotate s x fun n => e.getD n Cplx.zero)))

/-- `θ_n / π = 2 · off · n / FS` (R112). -/
def fofsAngle (s : State) (n : Nat) : ℚ := 2 * F64.toRat s.fofsHz * n / s.fs.toNat

/-- FOFS bD, bS (R112). -/
def execFofs (dst src : Nat) (s : State) : Host.Outcome State Fault Refusal :=
  dataCommand 0x22#8 dst src s (runPhasors dst s s.fofsHz (fofsAngle s))

/-- `θ_n / π = rate · n² / FS²` (R113). -/
def fdriftAngle (s : State) (n : Nat) : ℚ := F64.toRat s.fdriftRate * (n : ℚ) ^ 2 / (s.fs.toNat : ℚ) ^ 2

/-- FDRIFT bD, bS (R113). -/
def execFdrift (dst src : Nat) (s : State) : Host.Outcome State Fault Refusal :=
  dataCommand 0x23#8 dst src s (runPhasors dst s s.fdriftRate (fdriftAngle s))

/-- `0 < d < 1`, false for a NaN (R38, R114). -/
def fdelayOk (d : Word) : Bool := F64.isFinite d && decide (0 < F64.toRat d) && decide (F64.toRat d < 1)

/-- FDELAY on its source buffer (R114). -/
def runFdelay (dst : Nat) (s : State) (x : Buffer) : Except ErrCode State :=
  let N := x.len.toNat
  let Nout := fullLength Config.fdTaps N
  if x.kind.isSignal = false then .error .kind
  else if fdelayOk s.fdelayFrac = false then .error .param
  else if Config.bufWords < x.kind.wpe * N ∨ Config.bufWords < x.kind.wpe * Nout then .error .cap
  else
    let t := (fdelayTaps (F64.toRat s.fdelayFrac)).toArray
    let y : Samples :=
      if x.kind = .real then
        let e := x.realElems s.draws
        .real (tabulate Nout fun n =>
          convolveAt (s.site.sub n) Config.fdTaps N (fun k => t.getD k 0#64) (fun i => e.getD i 0#64) n)
      else
        let e := x.cplxElems s.draws
        .cplx (tabulate Nout
          (convolveCplxAt s.site Config.fdTaps N (fun k => t.getD k 0#64) fun i => e.getD i Cplx.zero))
    .ok (s.putResult dst y)

/-- FDELAY bD, bS (R114). -/
def execFdelay (dst src : Nat) (s : State) : Host.Outcome State Fault Refusal :=
  dataCommand 0x24#8 dst src s (runFdelay dst s)

end Sys2Proof.Machine
end

