-- ==== Sys2Proof/Machine/Control.lean ====
section
/-! DEFINITION. The control commands NOP and CONFIG (40_config.md). -/

namespace Sys2Proof.Machine

/-- What CONFIG computes: the derived registers and the two kernels (R89, R92). -/
structure Derived where
  order : Word
  fs : Word
  sps : Word
  rrcLen : Word
  totalDelay : Word
  sScale : Word
  baud : Word
  kernE : Word
  kern : List Word
  lpf : List Word
deriving DecidableEq, Repr

/-- The order of each scheme code (R2, R23). -/
def schemeOrders : List Nat := [1, 2, 4, 6, 8, 10, 12]

/-- The constellation table of `M` points that CONFIG requires: every entry valid, no two equal (R90, R98). -/
def tableOk (consts : Memory ConstEntry) (M : Nat) : Bool :=
  ((List.range M).all fun v => (Memory.read consts v).isSome)
    && decide (((List.range M).filterMap fun v => Memory.read consts v).Nodup)

/-- `0 < a ≤ 1`, false for a NaN (R26, R90). -/
def alphaOk (a : Word) : Bool := F64.isFinite a && decide (0 < F64.toRat a) && decide (F64.toRat a ≤ 1)

/-- Finite and above 0 (R27, R90). -/
def lpfMultOk (m : Word) : Bool := F64.isFinite m && decide (0 < F64.toRat m)

/-- `R = FS · order / br`, exact (R10, R92). -/
def ratioR (fc order br : Nat) : ℚ := (20 * fc * order : Nat) / (br : ℚ)

/-- `nu = lm · br / (2 · order · FS)`, exact (R95). -/
def cutoffNu (lm : ℚ) (fc order br : Nat) : ℚ := lm * br / (2 * order * (20 * fc) : Nat)

/-- The kernel energy `E = Σ in order k of fmul(KERN[k], KERN[k])` (R97). The taps are finite, so no free NaN arises
and the site is a fixed one: E is a function of the registers alone (R89). -/
def kernelEnergy (kern : List Word) : Word :=
  let k := kern.toArray
  dotFrom ⟨0, []⟩ 0 kern.length (fun i => k.getD i 0#64) (fun i => k.getD i 0#64)

/-- The values CONFIG derives (R92 to R97). -/
def derive (fc order br : Nat) (a lm : ℚ) : Derived :=
  let R := ratioR fc order br
  let sps := roundHalfEven R
  let kern := rrcKernel a R sps
  { order := BitVec.ofNat 64 order
    fs := BitVec.ofNat 64 (20 * fc)
    sps := BitVec.ofNat 64 sps
    rrcLen := BitVec.ofNat 64 (6 * sps)
    totalDelay := BitVec.ofNat 64 (6 * sps + Config.lpfHalf)
    sScale := scaleS order
    baud := rnRat ((br : ℚ) / order)
    kernE := kernelEnergy kern
    kern := kern
    lpf := lpfKernel (cutoffNu lm fc order br) }

/-- CONFIG's checks, in order, and what it derives (R89, R90). -/
def configure (scheme bitRate carrierHz alpha lpfMult : Word) (consts : Memory ConstEntry) : Except ErrCode Derived :=
  let sch := scheme.toNat
  let order := schemeOrders.getD sch 0
  let br := bitRate.toNat
  let fc := carrierHz.toNat
  let sps := roundHalfEven (ratioR fc order br)
  if 6 < sch then .error .cfgScheme
  else if br = 0 ∨ fc = 0 ∨ 2 ^ 53 < 20 * fc then .error .cfgParam
  else if alphaOk alpha = false then .error .cfgParam
  else if lpfMultOk lpfMult = false then .error .cfgParam
  else if sps = 0 then .error .cfgParam
  else if Config.kernCap < 6 * sps then .error .cfgParam
  else if 1 / 2 ≤ cutoffNu (F64.toRat lpfMult) fc order br then .error .cfgParam
  else if 4 ≤ order ∧ tableOk consts (2 ^ order) = false then .error .cfgTable
  else .ok (derive fc order br (F64.toRat alpha) (F64.toRat lpfMult))

/-- CONFIG's checks and results on the current configuration registers and table. -/
def State.configure (s : State) : Except ErrCode Derived :=
  Sys2Proof.Machine.configure s.scheme s.bitRate s.carrierHz s.alpha s.lpfMult s.consts

/-- The writes of a successful CONFIG (R89). -/
def State.putDerived (s : State) (d : Derived) : State :=
  { s with
    order := d.order
    fs := d.fs
    sps := d.sps
    rrcLen := d.rrcLen
    totalDelay := d.totalDelay
    sScale := d.sScale
    baud := d.baud
    kernE := d.kernE
    kern := d.kern
    lpf := d.lpf
    status := { s.status with cfgValid := true } }

/-- NOP (R88): only STATUS at completion. -/
def execNop (s : State) : Host.Outcome State Fault Refusal := finish 0x00#8 s (.ok s)

/-- CONFIG (R89). -/
def execConfig (s : State) : Host.Outcome State Fault Refusal :=
  finish 0x01#8 s
    (match s.configure with
     | .ok d => .ok (s.putDerived d)
     | .error e => .error e)

end Sys2Proof.Machine
end

