-- ==== Sys2Proof/Machine/Demapper.lean ====
section
/-! DEFINITION. The sampler SAMPLE, SAMPLE.A and the decision demapper DEMAP (44_demapper.md). -/

namespace Sys2Proof.Machine

/-- The first sampling index `D + sext(TIMING_ADJ)`, an exact integer (R120). -/
def sampleStart (s : State) : Int := s.totalDelay.toNat + s.timingAdj.toInt

/-- The samples at `st + k · SPS`, copied bit for bit (R120, R121). -/
def samplesAt (s : State) (x : Buffer) (cnt : Nat) : List Cplx :=
  let e := x.cplxElems s.draws
  tabulate cnt fun k => e.getD ((sampleStart s).toNat + k * s.sps.toNat) Cplx.zero

/-- SAMPLE on its source buffer (R120). -/
def runSample (dst : Nat) (s : State) (x : Buffer) : Except ErrCode State :=
  let N := x.len.toNat
  let st := sampleStart s
  let cnt := s.sampleCount.toNat
  if x.kind ≠ .cplx then .error .kind
  else if 0 < cnt ∧ (st < 0 ∨ (N : Int) ≤ st + ((cnt : Int) - 1) * (s.sps.toNat : Int)) then .error .range
  else if Config.bufWords < 2 * N ∨ Config.bufWords < 2 * cnt then .error .cap
  else .ok (s.putResult dst (.cplx (samplesAt s x cnt)))

/-- SAMPLE bD, bS (R120). -/
def execSample (dst src : Nat) (s : State) : Host.Outcome State Fault Refusal :=
  dataCommand 0x32#8 dst src s (runSample dst s)

/-- The number of in-range instants from `st` on (R121). -/
def autoCount (st : Int) (N sps : Nat) : Nat := if st < N then (N - 1 - st.toNat) / sps + 1 else 0

/-- SAMPLE.A on its source buffer (R121). -/
def runSampleAuto (dst : Nat) (s : State) (x : Buffer) : Except ErrCode State :=
  let N := x.len.toNat
  let st := sampleStart s
  if x.kind ≠ .cplx then .error .kind
  else if st < 0 then .error .range
  else if Config.bufWords < 2 * N then .error .cap
  else .ok (s.putResult dst (.cplx (samplesAt s x (autoCount st N s.sps.toNat))))

/-- SAMPLE.A bD, bS (R121). -/
def execSampleAuto (dst src : Nat) (s : State) : Host.Outcome State Fault Refusal :=
  dataCommand 0x32#8 dst src s (runSampleAuto dst s)

/-- The squared distance of a finite sample to a point, exact (R122). -/
def dist2 (x : Cplx) (p : ConstEntry) : ℚ :=
  (F64.toRat x.re - p.i.toInt) ^ 2 + (F64.toRat x.im - p.q.toInt) ^ 2

/-- The indices at which a list is least. -/
def leastIndices (d : List ℚ) : List Nat :=
  match d.min? with
  | none => []
  | some m => (List.range d.length).filter fun v => d.getD v 0 = m

/-- A draw from a list of candidates, of which there is at least one (R122, TIE; log 6). -/
def drawFrom (draw element : Nat) (c : List Nat) : Nat := c.getD (Config.tie draw element % c.length) 0

/-- The constellation points of the current order (R122). -/
def State.points (s : State) : List ConstEntry := tabulate (2 ^ s.order.toNat) s.point

/-- The decided group index of sample `i` for order 4 and above: the nearest point, a draw among the nearest on a tie, a
draw among all for a sample that is not finite (R122). -/
def decideIndex (draw i : Nat) (points : List ConstEntry) (x : Cplx) : Nat :=
  if F64.isFinite x.re && F64.isFinite x.im then
    match leastIndices (points.map (dist2 x)) with
    | [v] => v
    | c => drawFrom draw i c
  else drawFrom draw i (List.range points.length)

/-- The bits of a group index, most significant first (R122). -/
def indexBits (order v : Nat) : List Bool := tabulate order fun j => v.testBit (order - 1 - j)

/-- The decided bits of sample `i` (R122). -/
def demapBits (draw order i : Nat) (points : List ConstEntry) (x : Cplx) : List Bool :=
  if order = 1 then [fgtZero x.re]
  else if order = 2 then [fgtZero x.re, fgtZero x.im]
  else indexBits order (decideIndex draw i points x)

/-- DEMAP on its source buffer (R122). -/
def runDemap (dst : Nat) (s : State) (x : Buffer) : Except ErrCode State :=
  let N := x.len.toNat
  let order := s.order.toNat
  if x.kind ≠ .cplx then .error .kind
  else if Config.bufWords < 2 * N ∨ Config.bufWords < N * order then .error .cap
  else
    let e := x.cplxElems s.draws
    let points := s.points
    .ok (s.putResult dst (.bits ((tabulate N fun i =>
      demapBits s.draws order i points (e.getD i Cplx.zero)).flatten)))

/-- DEMAP bD, bS (R122). -/
def execDemap (dst src : Nat) (s : State) : Host.Outcome State Fault Refusal :=
  dataCommand 0x33#8 dst src s (runDemap dst s)

end Sys2Proof.Machine
end

