-- ==== Sys2Proof/Machine/Demodulator.lean ====
section
/-! DEFINITION. The demodulator commands DOWNCONV, MATCH and MATCH.T (43_demodulator.md). -/

namespace Sys2Proof.Machine

/-- Step 1 of DOWNCONV on a real sample: `(x · c, -(x · s))` (R116). -/
def mixReal (σ : Site) (x : Word) (n : Nat) : Cplx :=
  ⟨fmul (σ.sub 0) x (ncoCos n), fneg (fmul (σ.sub 1) x (ncoSin n))⟩

/-- Step 1 of DOWNCONV on a complex sample: `(re · c + im · s, im · c - re · s)` (R116). -/
def mixCplx (σ : Site) (x : Cplx) (n : Nat) : Cplx :=
  ⟨fadd (σ.sub 2) (fmul (σ.sub 0) x.re (ncoCos n)) (fmul (σ.sub 1) x.im (ncoSin n)),
   fsub (σ.sub 5) (fmul (σ.sub 3) x.im (ncoCos n)) (fmul (σ.sub 4) x.re (ncoSin n))⟩

/-- Step 2 of DOWNCONV: output `n` of the causal filter, `Σ in order k = 0 .. min(n, 100)` (R116). -/
def lowpassAt (σ : Site) (tap : Nat → Word) (z : Nat → Cplx) (n : Nat) : Cplx :=
  let m := min n (Config.lpfTaps - 1) + 1
  ⟨dotFrom ((σ.sub n).sub 0) 0 m tap (fun k => (z (n - k)).re),
   dotFrom ((σ.sub n).sub 1) 0 m tap (fun k => (z (n - k)).im)⟩

/-- The mixed signal of DOWNCONV (R116, step 1). -/
def mixed (s : State) (x : Buffer) : List Cplx :=
  if x.kind = .real then
    let e := x.realElems s.draws
    tabulate x.len.toNat fun n => mixReal ((s.site.sub 0).sub n) (e.getD n 0#64) n
  else
    let e := x.cplxElems s.draws
    tabulate x.len.toNat fun n => mixCplx ((s.site.sub 0).sub n) (e.getD n Cplx.zero) n

/-- DOWNCONV on its source buffer (R116). -/
def runDownconv (dst : Nat) (s : State) (x : Buffer) : Except ErrCode State :=
  let N := x.len.toNat
  if x.kind.isSignal = false then .error .kind
  else if Config.bufWords < 2 * N then .error .cap
  else
    let z := (mixed s x).toArray
    let h := (tabulate Config.lpfTaps s.lpfTap).toArray
    .ok (s.putResult dst (.cplx (tabulate N
      (lowpassAt (s.site.sub 1) (fun k => h.getD k 0#64) fun i => z.getD i Cplx.zero))))

/-- DOWNCONV bD, bS (R116). -/
def execDownconv (dst src : Nat) (s : State) : Host.Outcome State Fault Refusal :=
  dataCommand 0x30#8 dst src s (runDownconv dst s)

/-- 2.0. -/
def matchGain : Word := 0x4000000000000000#64

/-- `fmul(fmul(fdiv(y, E), 2.0), S)`: three separate roundings in this order (R117). -/
def matchScale (σ : Site) (E S y : Word) : Word :=
  fmul (σ.sub 2) (fmul (σ.sub 1) (fdiv (σ.sub 0) y E) matchGain) S

/-- Output `n` of MATCH (R117): the full convolution with KERN, scaled. -/
def matchAt (s : State) (N : Nat) (tap : Nat → Word) (x : Nat → Cplx) (n : Nat) : Cplx :=
  let y := convolveCplxAt (s.site.sub 0) s.rrcLen.toNat N tap x n
  ⟨matchScale (((s.site.sub 1).sub n).sub 0) s.kernE s.sScale y.re,
   matchScale (((s.site.sub 1).sub n).sub 1) s.kernE s.sScale y.im⟩

/-- MATCH and MATCH.T on their source buffer, of whose `Nout` outputs the first `keep Nout` are kept (R117, R118). The
capacity is checked on the untrimmed length. -/
def runMatch (dst : Nat) (s : State) (keep : Nat → Nat) (x : Buffer) : Except ErrCode State :=
  let N := x.len.toNat
  let L := s.rrcLen.toNat
  let Nout := fullLength L N
  if x.kind ≠ .cplx then .error .kind
  else if Config.bufWords < 2 * N ∨ Config.bufWords < 2 * Nout then .error .cap
  else
    let e := x.cplxElems s.draws
    let h := (tabulate L s.tap).toArray
    .ok (s.putResult dst (.cplx (tabulate (keep Nout)
      (matchAt s N (fun k => h.getD k 0#64) fun i => e.getD i Cplx.zero))))

/-- MATCH bD, bS (R117). -/
def execMatchFull (dst src : Nat) (s : State) : Host.Outcome State Fault Refusal :=
  dataCommand 0x31#8 dst src s (runMatch dst s fun Nout => Nout)

/-- MATCH.T bD, bS (R118): `Nt = max(0, Nout - 6·SPS)`. -/
def execMatchTrim (dst src : Nat) (s : State) : Host.Outcome State Fault Refusal :=
  dataCommand 0x31#8 dst src s (runMatch dst s fun Nout => Nout - 6 * s.sps.toNat)

end Sys2Proof.Machine
end

