-- ==== Sys2Proof/Machine/Modulator.lean ====
section
/-! DEFINITION. The modulator commands MAP, COMB, RRC and UPCONV (41_modulator.md). -/

namespace Sys2Proof.Machine

/-- `lvl(1) = +1.0`, `lvl(0) = -1.0` (R102). -/
def lvl (b : Bool) : Word := if b then 0x3FF0000000000000#64 else 0xBFF0000000000000#64

/-- The index of a bit-group: the first bit is the most significant (R101). -/
def groupIndex (g : List Bool) : Nat := g.foldl (fun v b => 2 * v + b.toNat) 0

/-- The symbol of a bit-group `b` (R102), its arithmetic at `σ`. -/
def mapSymbol (σ : Site) (s : State) (order : Nat) (b : Nat → Bool) : Cplx :=
  if order = 1 then ⟨lvl (b 0), 0#64⟩
  else if order = 2 then ⟨lvl (b 0), lvl (b 1)⟩
  else
    let p := s.point (groupIndex (tabulate order b))
    ⟨fdiv (σ.sub 0) (f64 p.i.toInt) s.sScale, fdiv (σ.sub 1) (f64 p.q.toInt) s.sScale⟩

/-- MAP on its source buffer (R102). -/
def runMap (dst : Nat) (s : State) (x : Buffer) : Except ErrCode State :=
  let n := x.len.toNat
  let order := s.order.toNat
  let Ns := n / order
  if x.kind ≠ .bits then .error .kind
  else if n % order ≠ 0 then .error .align
  else if Config.bufWords < n ∨ Config.bufWords < 2 * Ns then .error .cap
  else
    let e := x.bitElems s.draws
    .ok (s.putResult dst (.cplx (tabulate Ns fun g =>
      mapSymbol (s.site.sub g) s order fun j => e.getD (g * order + j) false)))

/-- MAP bD, bS (R102). -/
def execMap (dst src : Nat) (s : State) : Host.Outcome State Fault Refusal := dataCommand 0x10#8 dst src s (runMap dst s)

/-- Sample `n` of the Dirac comb of the symbols `x` (R104). -/
def combAt (sps Ns : Nat) (x : Nat → Cplx) (n : Nat) : Cplx :=
  if n % sps = 0 ∧ n / sps < Ns then x (n / sps) else Cplx.zero

/-- COMB on its source buffer (R104). -/
def runComb (dst : Nat) (s : State) (x : Buffer) : Except ErrCode State :=
  let Ns := x.len.toNat
  let N := Ns * s.sps.toNat + s.rrcLen.toNat - 1
  if x.kind ≠ .cplx then .error .kind
  else if Config.bufWords < 2 * Ns ∨ Config.bufWords < 2 * N then .error .cap
  else
    let e := x.cplxElems s.draws
    .ok (s.putResult dst (.cplx (tabulate N (combAt s.sps.toNat Ns fun i => e.getD i Cplx.zero))))

/-- COMB bD, bS (R104). -/
def execComb (dst src : Nat) (s : State) : Host.Outcome State Fault Refusal := dataCommand 0x11#8 dst src s (runComb dst s)

/-- RRC on its source buffer (R105). -/
def runRrc (dst : Nat) (s : State) (x : Buffer) : Except ErrCode State :=
  let N := x.len.toNat
  let L := s.rrcLen.toNat
  let Nout := fullLength L N
  if x.kind ≠ .cplx then .error .kind
  else if Config.bufWords < 2 * N ∨ Config.bufWords < 2 * Nout then .error .cap
  else
    let e := x.cplxElems s.draws
    let h := (tabulate L s.tap).toArray
    .ok (s.putResult dst (.cplx (tabulate Nout
      (convolveCplxAt s.site L N (fun k => h.getD k 0#64) fun i => e.getD i Cplx.zero))))

/-- RRC bD, bS (R105). -/
def execRrc (dst src : Nat) (s : State) : Host.Outcome State Fault Refusal := dataCommand 0x12#8 dst src s (runRrc dst s)

/-- Sample `n` of the up-converted signal: `re · cos - im · sin` with the NCO entry `n mod 20` (R106). -/
def upconvAt (σ : Site) (x : Cplx) (n : Nat) : Word :=
  fsub (σ.sub 2) (fmul (σ.sub 0) x.re (ncoCos n)) (fmul (σ.sub 1) x.im (ncoSin n))

/-- UPCONV on its source buffer (R106). -/
def runUpconv (dst : Nat) (s : State) (x : Buffer) : Except ErrCode State :=
  let N := x.len.toNat
  if x.kind ≠ .cplx then .error .kind
  else if Config.bufWords < 2 * N then .error .cap
  else
    let e := x.cplxElems s.draws
    .ok (s.putResult dst (.real (tabulate N fun n => upconvAt (s.site.sub n) (e.getD n Cplx.zero) n)))

/-- UPCONV bD, bS (R106). -/
def execUpconv (dst src : Nat) (s : State) : Host.Outcome State Fault Refusal :=
  dataCommand 0x13#8 dst src s (runUpconv dst s)

end Sys2Proof.Machine
end

