-- ==== Sys2Proof/Machine/Dispatch.lean ====
section
/-! DEFINITION. The meaning of every command: the engine step of R127 for a decoded command. -/

namespace Sys2Proof.Machine

def exec (i : Instr) (s : State) : Host.Outcome State Fault Refusal :=
  match i with
  | .nop => Sys2Proof.Machine.execNop s
  | .config => Sys2Proof.Machine.execConfig s
  | .map dst src => Sys2Proof.Machine.execMap dst src s
  | .comb dst src => Sys2Proof.Machine.execComb dst src s
  | .rrc dst src => Sys2Proof.Machine.execRrc dst src s
  | .upconv dst src => Sys2Proof.Machine.execUpconv dst src s
  | .awgn dst src => Sys2Proof.Machine.execAwgn dst src s
  | .fadeRay dst src => Sys2Proof.Machine.execFadeRay dst src s
  | .fadeRic dst src => Sys2Proof.Machine.execFadeRic dst src s
  | .fofs dst src => Sys2Proof.Machine.execFofs dst src s
  | .fdrift dst src => Sys2Proof.Machine.execFdrift dst src s
  | .fdelay dst src => Sys2Proof.Machine.execFdelay dst src s
  | .downconv dst src => Sys2Proof.Machine.execDownconv dst src s
  | .matchFull dst src => Sys2Proof.Machine.execMatchFull dst src s
  | .matchTrim dst src => Sys2Proof.Machine.execMatchTrim dst src s
  | .sample dst src => Sys2Proof.Machine.execSample dst src s
  | .sampleAuto dst src => Sys2Proof.Machine.execSampleAuto dst src s
  | .demap dst src => Sys2Proof.Machine.execDemap dst src s

end Sys2Proof.Machine
end

