-- ==== Sys2Proof/Machine/Engine.lean ====
section
/-! DEFINITION. The engine's step on the command in flight, and the effect of one event from outside (00_scope.md R12,
R13; 60_exceptions.md R127; 70_reset_and_hazards.md R146). -/

namespace Sys2Proof.Machine

/-- The engine step (R127): CMDREG decoded and run; a word that decodes as illegal completes with E_ILLEGAL and its
opcode field in LAST_OPC (R84, R128). -/
def engineStep (s : State) : Host.Outcome State Fault Refusal :=
  match decode s.cmd with
  | .ok i => exec i s
  | .error _ => finish (fieldOpc s.cmd) s (.error .illegal)

/-- The engine steps only while BUSY = 1 (R13); idle, nothing has to happen (R145). -/
def engineTurn (s : State) : Host.Outcome State Fault Refusal := if s.status.busy then engineStep s else .next s

/-- One event of the interleaving (R134). -/
def handleEvent (e : HostEvent) (s : State) : Host.Outcome State Fault Refusal :=
  match e with
  | .bus a => busStep a s
  | .rst => .next s.hardReset
  | .engine => engineTurn s

/-- A command word placed in flight, with nothing from outside before the engine's step. -/
def State.inFlight (s : State) (c : Word) : State :=
  { s with cmd := c, status := { s.status with busy := true }, inbox := [] }

end Sys2Proof.Machine
end

