-- ==== Sys2Proof/Machine/Step.lean ====
section
/-! DEFINITION. One step of the machine: the next event from outside, or, when none is left, the engine (R13). -/

namespace Sys2Proof.Machine

/-- One step of the interleaving of host, rst and engine (R12, R67, R134): the first event of the inbox is taken from it
and happens; with an empty inbox the engine steps if a command is in flight (R13). Log 1. -/
def step (s : State) : Host.Outcome State Fault Refusal :=
  match s.inbox with
  | [] => engineTurn s
  | e :: rest => handleEvent e { s with inbox := rest }

/-- The word of an instruction placed where the next step takes it from: in CMDREG, in flight (R58, R126). It stands for
the host's CMD write of that word (log 1). -/
def State.withFetchWord (s : State) (nbits w : Nat) : State := s.inFlight (BitVec.ofNat 64 (w % 2 ^ nbits))

end Sys2Proof.Machine
end

