-- ==== Sys2Proof/Safety.lean ====
section
/-! DEFINITION. The terms in which claims about the machine are made: what a buffer holds, what a command leaves
unchanged, and the invariant every step keeps. -/

namespace Sys2Proof.Machine

/-- Word `i` of `B[b]` as the command that starts in `s` reads it: an unwritten word is a free value (R52). -/
def State.readWord (s : State) (b i : Nat) : Word := (s.word b i).getD (Config.freeWord s.draws i)

/-- Element `i` of a BITS buffer (R50). -/
def State.bitElem (s : State) (b i : Nat) : Bool := (s.readWord b i).getLsbD 0

/-- Element `i` of a CPLX buffer (R50). -/
def State.cplxElem (s : State) (b i : Nat) : Cplx := ⟨s.readWord b (2 * i), s.readWord b (2 * i + 1)⟩

/-- The number of elements of `B[b]`. -/
def State.count (s : State) (b : Nat) : Nat := (s.buf b).len.toNat

/-- `B[b]` is a BITS buffer of the `N` elements `y`, each word 0 or 1, and has no word beyond them (R50, R51). -/
def State.HoldsBits (s : State) (b N : Nat) (y : Nat → Bool) : Prop :=
  (s.buf b).kind = .bits ∧ s.count b = N
    ∧ (∀ n, n < N → s.word b n = some (if y n then 1#64 else 0#64))
    ∧ ∀ i, N ≤ i → s.word b i = none

/-- `B[b]` is a REAL buffer of the `N` elements `y` and has no word beyond them (R50, R51). -/
def State.HoldsReal (s : State) (b N : Nat) (y : Nat → Word) : Prop :=
  (s.buf b).kind = .real ∧ s.count b = N
    ∧ (∀ n, n < N → s.word b n = some (y n))
    ∧ ∀ i, N ≤ i → s.word b i = none

/-- `B[b]` is a CPLX buffer of the `N` elements `y` and has no word beyond them (R50, R51). -/
def State.HoldsCplx (s : State) (b N : Nat) (y : Nat → Cplx) : Prop :=
  (s.buf b).kind = .cplx ∧ s.count b = N
    ∧ (∀ n, n < N → s.word b (2 * n) = some (y n).re ∧ s.word b (2 * n + 1) = some (y n).im)
    ∧ ∀ i, 2 * N ≤ i → s.word b i = none

/-- A data command has its operands: both buffers exist, the configuration is valid, the source has the kind `k` and
its words are in canonical form. -/
def State.Ready (s : State) (dst src : Nat) (k : BufKind) : Prop :=
  dst < Config.nBuf ∧ src < Config.nBuf ∧ s.status.cfgValid = true ∧ (s.buf src).kind = k
    ∧ Memory.wf Config.bufWords (s.buf src).words = true

/-- `t` is `r` after a completion without error that writes no buffer but `B[dst]`: STATUS is as R127 says, the model's
draw counter has advanced, every register, KERN, LPF, CONST and every word of every other buffer is `r`'s. -/
def CompletesInto (opc : BitVec 8) (dst : Nat) (r t : State) : Prop :=
  t = { r with status := r.status.completed opc 0#8, bufs := t.bufs, draws := r.draws + 1 }
    ∧ ∀ b, b ≠ dst → (t.buf b).len = (r.buf b).len ∧ (t.buf b).kind = (r.buf b).kind ∧ ∀ i, t.word b i = r.word b i

/-- The order the register SCHEME asks for (R23); 0 for a code above 6. -/
def State.linkOrder (s : State) : Nat := [1, 2, 4, 6, 8, 10, 12].getD s.scheme.toNat 0

/-- `R = FS · order / br`, exact, of the current configuration registers (R10). -/
def State.ratio (s : State) : ℚ := 20 * s.carrierHz.toNat * s.linkOrder / s.bitRate.toNat

/-- `nu = lm · br / (2 · order · FS)`, exact, of the current configuration registers (R90, R95). -/
def State.cutoff (s : State) : ℚ :=
  F64.toRat s.lpfMult * s.bitRate.toNat / (2 * s.linkOrder * (20 * s.carrierHz.toNat))

/-- The link parameters are in range (R90, the checks of E_CFG_PARAM). -/
def State.LinkOk (s : State) : Prop :=
  s.bitRate.toNat ≠ 0 ∧ s.carrierHz.toNat ≠ 0 ∧ 20 * s.carrierHz.toNat ≤ 2 ^ 53
    ∧ F64.isFinite s.alpha = true ∧ 0 < F64.toRat s.alpha ∧ F64.toRat s.alpha ≤ 1
    ∧ F64.isFinite s.lpfMult = true ∧ 0 < F64.toRat s.lpfMult
    ∧ 0 < roundHalfEven s.ratio ∧ 6 * roundHalfEven s.ratio ≤ Config.kernCap ∧ s.cutoff < 1 / 2

/-- The constellation table has every point of the order, no two equal, if the order needs one (R90, the checks of
E_CFG_TABLE). -/
def State.TableOk (s : State) : Prop :=
  4 ≤ s.linkOrder →
    (∀ v, v < 2 ^ s.linkOrder → ∃ p, Memory.read s.consts v = some p)
      ∧ ∀ v w, v < 2 ^ s.linkOrder → w < 2 ^ s.linkOrder → v ≠ w → Memory.read s.consts v ≠ Memory.read s.consts w

/-- The source kinds a command takes (R83). -/
def takesKind (i : Instr) (k : BufKind) : Bool :=
  match i with
  | .nop | .config => true
  | .map _ _ => k = .bits
  | .comb _ _ | .rrc _ _ | .upconv _ _ | .matchFull _ _ | .matchTrim _ _ | .sample _ _ | .sampleAuto _ _
  | .demap _ _ => k = .cplx
  | .awgn _ _ | .fadeRay _ _ | .fadeRic _ _ | .fofs _ _ | .fdrift _ _ | .fdelay _ _ | .downconv _ _ =>
    k = .real ∨ k = .cplx

/-- The squared distance of a sample to a constellation point, exact (R122). -/
def distSq (x : Cplx) (p : ConstEntry) : ℚ :=
  (F64.toRat x.re - p.i.toInt) ^ 2 + (F64.toRat x.im - p.q.toInt) ^ 2

/-- The derived registers and kernels as the state holds them. -/
def State.derived (s : State) : Derived :=
  { order := s.order, fs := s.fs, sps := s.sps, rrcLen := s.rrcLen, totalDelay := s.totalDelay, sScale := s.sScale,
    baud := s.baud, kernE := s.kernE, kern := s.kern, lpf := s.lpf }

/-- The invariant of every step: every memory is in canonical form, ERR holds 0 or a code of R128, and while CFG_VALID is
1 the derived registers and both kernels are what CONFIG derives from the current configuration (R99). -/
def State.Inv (s : State) : Prop :=
  (∀ b, b < Config.nBuf → Memory.wf Config.bufWords (s.buf b).words = true)
    ∧ Memory.wf Config.constCap s.consts = true
    ∧ legalErr s.status.err = true
    ∧ (s.status.cfgValid = true → s.configure = .ok s.derived)

/-- `w` is a finite binary64 value nearest the real `x` (R8). -/
def IsNearest (x : ℝ) (w : Word) : Prop :=
  F64.isFinite w = true ∧ ∀ v : Word, F64.isFinite v = true → |(F64.toRat w : ℝ) - x| ≤ |(F64.toRat v : ℝ) - x|

/-- `w` is RN of the real `x` (R8): below the overflow threshold `2^1024 - 2^970` in size a finite value nearest `x`, of two
equally near the one with an even last bit, and from the threshold on the infinity of its sign. Of a zero it says
nothing of the sign. -/
def IsRN (x : ℝ) (w : Word) : Prop :=
  (|x| < 2 ^ 1024 - 2 ^ 970 → IsNearest x w
      ∧ ∀ v : Word, F64.isFinite v = true → F64.toRat v ≠ F64.toRat w →
          |(F64.toRat v : ℝ) - x| = |(F64.toRat w : ℝ) - x| → w.getLsbD 0 = false)
    ∧ (2 ^ 1024 - 2 ^ 970 ≤ x → w = F64.infinity false)
    ∧ (x ≤ -(2 ^ 1024 - 2 ^ 970) → w = F64.infinity true)

/-- `m` is the integer nearest the real `y`, of two equally near the even one. -/
def RoundsTo (y : ℝ) (m : Nat) : Prop := |(m : ℝ) - y| ≤ 1 / 2 ∧ (|(m : ℝ) - y| = 1 / 2 → m % 2 = 0)

/-- `w` is a quiet NaN (R8). -/
def IsQuietNaN (w : Word) : Prop := F64.isNaN w = true ∧ w.getLsbD 51 = true

/-- An enclosure holds the real `x`. -/
def Enc.Holds (e : Enc) (x : ℝ) : Prop := 0 < e.den ∧ (e.lo : ℝ) ≤ x * e.den ∧ x * e.den ≤ (e.hi : ℝ)

/-- An enclosure in units of `2^-p` holds the real `x`. -/
def Iv.Holds (p : Nat) (a : Iv) (x : ℝ) : Prop := (a.lo : ℝ) ≤ x * 2 ^ p ∧ x * 2 ^ p ≤ (a.hi : ℝ)

/-- A run is safe as long as its steps answer a next state: no host access has met a buserror. -/
def StepsSafely (s : State) : Prop := ∃ t, step s = .next t

end Sys2Proof.Machine
end

