-- ==== Sys2Proof/Certificates/Slice0/Obligations.lean ====
section
/-! DEFINITION. The statements for the provers. Each names the rules of spec/ it rests on; a free value of the model
(a draw, a NaN's sign and payload, a tie) is never assumed to be any particular value. -/

open Sys2Proof Sys2Proof.Machine

/-! Encoding (30_encoding.md). -/

/-- R80, R83, R84: decoding the word of a well-formed command gives it back, with every operand at every value. -/
def Obligations.DecodeEncodeRoundTrip : Prop := ∀ i : Instr, i.wellFormed = true → decode (encode i) = .ok i

/-- R84, with the mnemonics of R82 and R83: which words decode, and to what, with the fields written as in R80. -/
def Obligations.DecodeFollowsRuleR84 : Prop :=
  ∀ (c : Word) (i : Instr),
    let opc := c.toNat % 2 ^ 8
    let src := c.toNat / 2 ^ 8 % 2 ^ 4
    let dst := c.toNat / 2 ^ 12 % 2 ^ 4
    let fl := c.toNat / 2 ^ 16 % 2 ^ 8
    decode c = .ok i ↔ c.toNat / 2 ^ 24 = 0 ∧
      match i with
      | .nop => opc = 0x00 ∧ src = 0 ∧ dst = 0 ∧ fl = 0
      | .config => opc = 0x01 ∧ src = 0 ∧ dst = 0 ∧ fl = 0
      | .map d s => opc = 0x10 ∧ fl = 0 ∧ d = dst ∧ s = src
      | .comb d s => opc = 0x11 ∧ fl = 0 ∧ d = dst ∧ s = src
      | .rrc d s => opc = 0x12 ∧ fl = 0 ∧ d = dst ∧ s = src
      | .upconv d s => opc = 0x13 ∧ fl = 0 ∧ d = dst ∧ s = src
      | .awgn d s => opc = 0x20 ∧ fl = 0 ∧ d = dst ∧ s = src
      | .fadeRay d s => opc = 0x21 ∧ fl = 0 ∧ d = dst ∧ s = src
      | .fadeRic d s => opc = 0x21 ∧ fl = 1 ∧ d = dst ∧ s = src
      | .fofs d s => opc = 0x22 ∧ fl = 0 ∧ d = dst ∧ s = src
      | .fdrift d s => opc = 0x23 ∧ fl = 0 ∧ d = dst ∧ s = src
      | .fdelay d s => opc = 0x24 ∧ fl = 0 ∧ d = dst ∧ s = src
      | .downconv d s => opc = 0x30 ∧ fl = 0 ∧ d = dst ∧ s = src
      | .matchFull d s => opc = 0x31 ∧ fl = 0 ∧ d = dst ∧ s = src
      | .matchTrim d s => opc = 0x31 ∧ fl = 1 ∧ d = dst ∧ s = src
      | .sample d s => opc = 0x32 ∧ fl = 0 ∧ d = dst ∧ s = src
      | .sampleAuto d s => opc = 0x32 ∧ fl = 1 ∧ d = dst ∧ s = src
      | .demap d s => opc = 0x33 ∧ fl = 0 ∧ d = dst ∧ s = src

/-- R86: the eighteen words of its table decode to the commands it writes beside them, in the table's order. -/
def Obligations.AssemblyExamplesDecode : Prop :=
  decode 0x0#64 = .ok .nop ∧ decode 0x1#64 = .ok .config ∧ decode 0x1010#64 = .ok (.map 1 0)
    ∧ decode 0x2111#64 = .ok (.comb 2 1) ∧ decode 0x3212#64 = .ok (.rrc 3 2) ∧ decode 0x4313#64 = .ok (.upconv 4 3)
    ∧ decode 0x4420#64 = .ok (.awgn 4 4) ∧ decode 0x4421#64 = .ok (.fadeRay 4 4)
    ∧ decode 0x15421#64 = .ok (.fadeRic 5 4) ∧ decode 0x5422#64 = .ok (.fofs 5 4)
    ∧ decode 0x5423#64 = .ok (.fdrift 5 4) ∧ decode 0x4424#64 = .ok (.fdelay 4 4)
    ∧ decode 0x5430#64 = .ok (.downconv 5 4) ∧ decode 0x6531#64 = .ok (.matchFull 6 5)
    ∧ decode 0x16531#64 = .ok (.matchTrim 6 5) ∧ decode 0x7632#64 = .ok (.sample 7 6)
    ∧ decode 0x17632#64 = .ok (.sampleAuto 7 6) ∧ decode 0x733#64 = .ok (.demap 0 7)

/-! The engine step (00_scope.md R12, R13; 60_exceptions.md). -/

/-- R13, R127: while a command is in flight, a step in which the engine's turn comes is `exec` of the command that CMD
decodes to. The turn is the first event of the inbox, which the step takes off, or comes of itself when no event is
left (log 1). -/
def Obligations.StepRunsDecodedCommand : Prop :=
  ∀ (s : State) (i : Instr), i.wellFormed = true → decode s.cmd = .ok i → s.status.busy = true →
    (s.inbox = [] → step s = exec i s)
      ∧ ∀ rest, s.inbox = .engine :: rest → step s = exec i { s with inbox := rest }

/-- R85, R128: the engine step on a reserved encoding completes with E_ILLEGAL and writes nothing but STATUS; CFG_VALID
is cleared if the opcode field is CONFIG's (R127). The four premises are R85's four points. -/
def Obligations.ReservedEncodingIsIllegal : Prop :=
  ∀ s : State, s.status.busy = true → s.inbox = [] →
    (let opc := s.cmd.toNat % 2 ^ 8
     let fl := s.cmd.toNat / 2 ^ 16 % 2 ^ 8
     (opc ∉ [0x00, 0x01, 0x10, 0x11, 0x12, 0x13, 0x20, 0x21, 0x22, 0x23, 0x24, 0x30, 0x31, 0x32, 0x33]
        ∨ s.cmd.toNat / 2 ^ 24 ≠ 0
        ∨ (fl ≠ 0 ∧ ¬ (fl = 1 ∧ (opc = 0x21 ∨ opc = 0x31 ∨ opc = 0x32)))
        ∨ (opc < 2 ∧ s.cmd.toNat / 2 ^ 8 % 2 ^ 16 ≠ 0))) →
    step s = .next
      { s with
        status :=
          { s.status with
            busy := false, done := true, err := 1#8, lastOpc := s.cmd.extractLsb' 0 8
            cfgValid := if s.cmd.toNat % 2 ^ 8 = 1 then false else s.status.cfgValid } }

/-- R127, R128: every command, in every state, completes: BUSY 0, DONE 1, LAST_OPC its opcode, ERR one of the codes of
R128, OVR, WBUSY and K_VALID as they were. -/
def Obligations.EveryCommandCompletes : Prop :=
  ∀ (i : Instr) (s : State), ∃ t, exec i s = .next t
    ∧ t.status.busy = false ∧ t.status.done = true ∧ t.status.lastOpc = i.opcode
    ∧ t.status.err.toNat ∈ [0, 1, 2, 3, 4, 5, 6, 7, 8, 9, 16, 17, 18]
    ∧ t.status.ovr = s.status.ovr ∧ t.status.wbusy = s.status.wbusy ∧ t.status.kValid = s.status.kValid

/-- The frame of every command (R88, R89, R102 to R122, "Writes"): beside STATUS and the model's draw counter, a command
writes its destination buffer only; CONFIG writes the derived registers and kernels, AWGN its two registers, FADE.RAY
and FADE.RIC their three; every other register, CONST and every other buffer is unchanged. -/
def Obligations.CommandFrame : Prop :=
  ∀ (i : Instr) (s t : State), exec i s = .next t →
    (∀ b, (∀ d x, i.operands = some (d, x) → b ≠ d) → t.buf b = s.buf b)
      ∧ (i ≠ .config → t.derived = s.derived ∧ t.status.cfgValid = s.status.cfgValid)
      ∧ ((∀ d x, i ≠ .awgn d x) → t.awgnPos = s.awgnPos ∧ t.awgnSigma = s.awgnSigma)
      ∧ ((∀ d x, i ≠ .fadeRay d x ∧ i ≠ .fadeRic d x) →
          t.fadePos = s.fadePos ∧ t.fadeHRe = s.fadeHRe ∧ t.fadeHIm = s.fadeHIm)
      ∧ t = { s with
              status := t.status, bufs := t.bufs, draws := t.draws
              order := t.order, fs := t.fs, sps := t.sps, rrcLen := t.rrcLen, totalDelay := t.totalDelay
              sScale := t.sScale, baud := t.baud, kernE := t.kernE, kern := t.kern, lpf := t.lpf
              awgnPos := t.awgnPos, awgnSigma := t.awgnSigma
              fadePos := t.fadePos, fadeHRe := t.fadeHRe, fadeHIm := t.fadeHIm }

/-- R130: a command that completes with an error writes nothing but STATUS.ERR, LAST_OPC, BUSY and DONE, and CFG_VALID if
it is CONFIG. The second part says so of the engine step on any command word, an illegal one too. -/
def Obligations.ErrorsArePrecise : Prop :=
  (∀ (i : Instr) (s t : State), exec i s = .next t → t.status.err ≠ 0#8 →
    t = { s with
          status :=
            { s.status with
              busy := false, done := true, err := t.status.err, lastOpc := i.opcode
              cfgValid := if i = .config then false else s.status.cfgValid } })
  ∧ ∀ s t : State, s.status.busy = true → s.inbox = [] → step s = .next t → t.status.err ≠ 0#8 →
      t = { s with
            status :=
              { s.status with
                busy := false, done := true, err := t.status.err, lastOpc := s.cmd.extractLsb' 0 8
                cfgValid := if s.cmd.toNat % 2 ^ 8 = 1 then false else s.status.cfgValid } }

/-! Error order (60_exceptions.md R129). -/

/-- R129, points 2 to 4, for every data command: a missing buffer is E_BUFID (2), else no valid configuration is E_NOCFG
(3), else a source kind the command does not take is E_KIND (4). -/
def Obligations.CommonChecksInOrder : Prop :=
  ∀ (i : Instr) (d x : Nat) (s : State), i.operands = some (d, x) → ∃ t, exec i s = .next t
    ∧ (Config.nBuf ≤ x ∨ Config.nBuf ≤ d → t.status.err = 2#8)
    ∧ (x < Config.nBuf → d < Config.nBuf → s.status.cfgValid = false → t.status.err = 3#8)
    ∧ (x < Config.nBuf → d < Config.nBuf → s.status.cfgValid = true → takesKind i (s.buf x).kind = false →
        t.status.err = 4#8)

/-- R109 to R114, R129, points 5 and 6: after the common checks, E_NOK (6) of FADE.RIC, then E_PARAM (5) of a parameter
outside its domain; a NaN is outside every domain. -/
def Obligations.ParameterChecks : Prop :=
  ∀ (d x : Nat) (s : State), d < Config.nBuf → x < Config.nBuf → s.status.cfgValid = true →
    ((s.buf x).kind = .real ∨ (s.buf x).kind = .cplx) →
    (F64.isFinite s.snrDb = false → ∃ t, exec (.awgn d x) s = .next t ∧ t.status.err = 5#8)
      ∧ (s.status.kValid = false → ∃ t, exec (.fadeRic d x) s = .next t ∧ t.status.err = 6#8)
      ∧ (s.status.kValid = true → F64.isFinite s.ricianKDb = false →
          ∃ t, exec (.fadeRic d x) s = .next t ∧ t.status.err = 5#8)
      ∧ (F64.isFinite s.fofsHz = false → ∃ t, exec (.fofs d x) s = .next t ∧ t.status.err = 5#8)
      ∧ (F64.isFinite s.fdriftRate = false → ∃ t, exec (.fdrift d x) s = .next t ∧ t.status.err = 5#8)
      ∧ (¬ (F64.isFinite s.fdelayFrac = true ∧ 0 < F64.toRat s.fdelayFrac ∧ F64.toRat s.fdelayFrac < 1) →
          ∃ t, exec (.fdelay d x) s = .next t ∧ t.status.err = 5#8)

/-- R102, R120, R121, R129, points 7 and 8: E_ALIGN (7) of MAP and E_RANGE (8) of SAMPLE and SAMPLE.A, whatever the
lengths, so before E_CAP. -/
def Obligations.AlignAndRangeChecks : Prop :=
  ∀ (d x : Nat) (s : State), d < Config.nBuf → x < Config.nBuf → s.status.cfgValid = true →
    ((s.buf x).kind = .bits → s.count x % s.order.toNat ≠ 0 → ∃ t, exec (.map d x) s = .next t ∧ t.status.err = 7#8)
      ∧ ((s.buf x).kind = .cplx →
          let st : Int := s.totalDelay.toNat + s.timingAdj.toInt
          (0 < s.sampleCount.toNat →
            st < 0 ∨ (s.count x : Int) ≤ st + ((s.sampleCount.toNat : Int) - 1) * s.sps.toNat →
            ∃ t, exec (.sample d x) s = .next t ∧ t.status.err = 8#8)
          ∧ (st < 0 → ∃ t, exec (.sampleAuto d x) s = .next t ∧ t.status.err = 8#8))

/-- E_CAP (9) of every data command, once the common checks, its parameter checks and its alignment or range check have
passed: the source or the result exceeds BUF_WORDS. For the channel commands and DOWNCONV, of either source kind; `w` is
the words per element of the source. -/
def Obligations.CapacityChecks : Prop :=
  ∀ (d x : Nat) (s : State), d < Config.nBuf → x < Config.nBuf → s.status.cfgValid = true →
    let N := s.count x
    let long := Config.bufWords < 2 * N ∨ (N ≠ 0 ∧ Config.bufWords < 2 * (N + s.rrcLen.toNat - 1))
    let st : Int := s.totalDelay.toNat + s.timingAdj.toInt
    let cnt := s.sampleCount.toNat
    let full := fun i : Instr => ∃ t, exec i s = .next t ∧ t.status.err = 9#8
    ((s.buf x).kind = .bits → N % s.order.toNat = 0 →
        Config.bufWords < N ∨ Config.bufWords < 2 * (N / s.order.toNat) → full (.map d x))
      ∧ ((s.buf x).kind = .cplx →
          (Config.bufWords < 2 * N ∨ Config.bufWords < 2 * (N * s.sps.toNat + s.rrcLen.toNat - 1) → full (.comb d x))
          ∧ (long → full (.rrc d x)) ∧ (long → full (.matchFull d x)) ∧ (long → full (.matchTrim d x))
          ∧ (Config.bufWords < 2 * N → full (.upconv d x))
          ∧ (cnt = 0 ∨ (0 ≤ st ∧ st + ((cnt : Int) - 1) * s.sps.toNat < N) →
              Config.bufWords < 2 * N ∨ Config.bufWords < 2 * cnt → full (.sample d x))
          ∧ (0 ≤ st → Config.bufWords < 2 * N → full (.sampleAuto d x))
          ∧ (Config.bufWords < 2 * N ∨ Config.bufWords < N * s.order.toNat → full (.demap d x)))
      ∧ ∀ w, ((s.buf x).kind = .real ∧ w = 1) ∨ ((s.buf x).kind = .cplx ∧ w = 2) →
          (F64.isFinite s.snrDb = true → Config.bufWords < w * N → full (.awgn d x))
          ∧ (Config.bufWords < w * N → full (.fadeRay d x))
          ∧ (s.status.kValid = true → F64.isFinite s.ricianKDb = true → Config.bufWords < 2 * N → full (.fadeRic d x))
          ∧ (F64.isFinite s.fofsHz = true → Config.bufWords < 2 * N → full (.fofs d x))
          ∧ (F64.isFinite s.fdriftRate = true → Config.bufWords < 2 * N → full (.fdrift d x))
          ∧ (F64.isFinite s.fdelayFrac = true → 0 < F64.toRat s.fdelayFrac → F64.toRat s.fdelayFrac < 1 →
              Config.bufWords < w * N ∨ (N ≠ 0 ∧ Config.bufWords < w * (N + 20)) → full (.fdelay d x))
          ∧ (Config.bufWords < 2 * N → full (.downconv d x))

/-! Control commands (40_config.md). -/

/-- R88: NOP writes only STATUS at completion. The draw counter is the model's own (log 2). -/
def Obligations.NopWritesOnlyStatus : Prop :=
  ∀ s : State, exec .nop s = .next
    { s with
      status := { s.status with busy := false, done := true, err := 0#8, lastOpc := 0x00#8 }
      draws := s.draws + 1 }

/-- R90: CONFIG's checks in their order: the first that fails gives the code (E_CFG_SCHEME 16, E_CFG_PARAM 17, E_CFG_TABLE
18), and if none fails the code is 0. -/
def Obligations.ConfigChecksInOrder : Prop :=
  ∀ s : State, ∃ t, exec .config s = .next t
    ∧ (6 < s.scheme.toNat → t.status.err = 16#8)
    ∧ (s.scheme.toNat ≤ 6 → ¬ s.LinkOk → t.status.err = 17#8)
    ∧ (s.scheme.toNat ≤ 6 → s.LinkOk → ¬ s.TableOk → t.status.err = 18#8)
    ∧ (s.scheme.toNat ≤ 6 → s.LinkOk → s.TableOk → t.status.err = 0#8)

/-- R89, R92, R96, R97: a CONFIG whose checks pass writes the derived quantities, a kernel of `6·SPS` taps and 101
low-pass taps, sets CFG_VALID, and changes nothing else. -/
def Obligations.ConfigDerives : Prop :=
  ∀ s : State, s.scheme.toNat ≤ 6 → s.LinkOk → s.TableOk →
    ∃ t, exec .config s = .next t
      ∧ t = { s with
              status := { s.status with
                busy := false, done := true, err := 0#8, lastOpc := 0x01#8, cfgValid := true }
              draws := s.draws + 1
              order := t.order, fs := t.fs, sps := t.sps, rrcLen := t.rrcLen, totalDelay := t.totalDelay
              sScale := t.sScale, baud := t.baud, kernE := t.kernE, kern := t.kern, lpf := t.lpf }
      ∧ t.order.toNat = s.linkOrder ∧ t.fs.toNat = 20 * s.carrierHz.toNat ∧ t.sps.toNat = roundHalfEven s.ratio
      ∧ t.rrcLen.toNat = 6 * t.sps.toNat ∧ t.totalDelay.toNat = 6 * t.sps.toNat + 50
      ∧ t.sScale = (if s.linkOrder ≤ 2 then 0x3FF0000000000000#64
                    else rnSqrtRat (2 * (2 ^ s.linkOrder - 1) / 3))
      ∧ t.baud = rnRat (s.bitRate.toNat / s.linkOrder)
      ∧ t.kern = rrcKernel (F64.toRat s.alpha) s.ratio t.sps.toNat ∧ t.kern.length = t.rrcLen.toNat
      ∧ t.lpf = lpfKernel s.cutoff ∧ t.lpf.length = 101
      ∧ t.kernE = dotFrom ⟨0, []⟩ 0 t.rrcLen.toNat (fun k => t.kern.getD k 0#64) (fun k => t.kern.getD k 0#64)

/-! Modulator commands (41_modulator.md). -/

/-- R101, R102: MAP of `n` bits, `n` a multiple of the order, writes `n / order` symbols: `(±1, +0)` for order 1, `(±1, ±1)`
for order 2, and else the table entry of the bit-group's index, most significant bit first, each part divided by S. -/
def Obligations.MapWritesSymbols : Prop :=
  ∀ (dst src : Nat) (s : State), s.Ready dst src .bits → 0 < s.order.toNat → s.count src % s.order.toNat = 0 →
    s.count src ≤ Config.bufWords → 2 * (s.count src / s.order.toNat) ≤ Config.bufWords →
    ∃ t, exec (.map dst src) s = .next t ∧ CompletesInto 0x10#8 dst s t
      ∧ t.HoldsCplx dst (s.count src / s.order.toNat) fun g =>
          let b := fun j => s.bitElem src (g * s.order.toNat + j)
          let level := fun x : Bool => if x then 0x3FF0000000000000#64 else 0xBFF0000000000000#64
          if s.order.toNat = 1 then ⟨level (b 0), 0#64⟩
          else if s.order.toNat = 2 then ⟨level (b 0), level (b 1)⟩
          else
            let v := ∑ j ∈ Finset.range s.order.toNat, (b j).toNat * 2 ^ (s.order.toNat - 1 - j)
            ⟨fdiv ((s.site.sub g).sub 0) (f64 (s.point v).i.toInt) s.sScale,
             fdiv ((s.site.sub g).sub 1) (f64 (s.point v).q.toInt) s.sScale⟩

/-- R104: COMB writes `Ns·SPS + L - 1` samples: symbol `i` at index `i·SPS`, bit for bit, and `(+0, +0)` elsewhere. -/
def Obligations.CombPlacesSymbols : Prop :=
  ∀ (dst src : Nat) (s : State), s.Ready dst src .cplx → 0 < s.sps.toNat → 0 < s.rrcLen.toNat →
    2 * s.count src ≤ Config.bufWords → 2 * (s.count src * s.sps.toNat + s.rrcLen.toNat - 1) ≤ Config.bufWords →
    ∃ t y, exec (.comb dst src) s = .next t ∧ CompletesInto 0x11#8 dst s t
      ∧ t.HoldsCplx dst (s.count src * s.sps.toNat + s.rrcLen.toNat - 1) y
      ∧ (∀ i, i < s.count src → y (i * s.sps.toNat) = s.cplxElem src i)
      ∧ ∀ n, (∀ i, i < s.count src → n ≠ i * s.sps.toNat) → y n = ⟨0#64, 0#64⟩

/-- R105: RRC writes the full convolution with KERN: `N + L - 1` samples, or none of an empty source, each part
`Σ in order k = max(0, n - N + 1) .. min(n, L - 1) of fmul(KERN[k], x.e[n - k])`. -/
def Obligations.RrcConvolves : Prop :=
  ∀ (dst src : Nat) (s : State), s.Ready dst src .cplx → 0 < s.rrcLen.toNat → 2 * s.count src ≤ Config.bufWords →
    (s.count src = 0 ∨ 2 * (s.count src + s.rrcLen.toNat - 1) ≤ Config.bufWords) →
    ∃ t, exec (.rrc dst src) s = .next t ∧ CompletesInto 0x12#8 dst s t
      ∧ t.HoldsCplx dst (if s.count src = 0 then 0 else s.count src + s.rrcLen.toNat - 1) fun n =>
          let lo := n + 1 - s.count src
          let hi := min n (s.rrcLen.toNat - 1)
          ⟨dotFrom ((s.site.sub n).sub 0) lo (hi + 1 - lo) s.tap fun k => (s.cplxElem src (n - k)).re,
           dotFrom ((s.site.sub n).sub 1) lo (hi + 1 - lo) s.tap fun k => (s.cplxElem src (n - k)).im⟩

/-- R106: UPCONV writes `fsub(fmul(re, NCO_C[n mod 20]), fmul(im, NCO_S[n mod 20]))` for every sample. -/
def Obligations.UpconvMixes : Prop :=
  ∀ (dst src : Nat) (s : State), s.Ready dst src .cplx → 2 * s.count src ≤ Config.bufWords →
    ∃ t, exec (.upconv dst src) s = .next t ∧ CompletesInto 0x13#8 dst s t
      ∧ t.HoldsReal dst (s.count src) fun n =>
          let σ := s.site.sub n
          fsub (σ.sub 2) (fmul (σ.sub 0) (s.cplxElem src n).re (ncoCos (n % 20)))
            (fmul (σ.sub 1) (s.cplxElem src n).im (ncoSin (n % 20)))

/-! Channel commands (42_channel.md). -/

/-- R109 on a REAL source: nothing drawn and an empty result if it is empty, else noise of the standard deviation
`sqrt(P / 10^(snr/10))` from the draws AWGN_POS on, modulo 2^64; AWGN_POS advances by `N`, AWGN_SIGMA is the deviation. -/
def Obligations.AwgnOnReal : Prop :=
  ∀ (dst src : Nat) (s : State), s.Ready dst src .real → F64.isFinite s.snrDb = true → s.count src ≤ Config.bufWords →
    let N := s.count src
    let σ := s.site
    let P := fdiv (σ.sub 1) (dotFrom (σ.sub 0) 0 N (s.readWord src) (s.readWord src)) (f64 N)
    let sig := fsqrt (σ.sub 3) (fdiv (σ.sub 2) P (rnPow10 (F64.toRat s.snrDb / 10)))
    ∃ t, exec (.awgn dst src) s = .next t
      ∧ CompletesInto 0x20#8 dst
          (if N = 0 then s else { s with awgnPos := s.awgnPos + BitVec.ofNat 64 N, awgnSigma := sig }) t
      ∧ t.HoldsReal dst N fun n =>
          let τ := (σ.sub 4).sub n
          fadd (τ.sub 1) (s.readWord src n)
            (fmul (τ.sub 0) sig (Config.gauss s.awgnSeed ((s.awgnPos.toNat + n) % 2 ^ 64)))

/-- R109 on a CPLX source: half the noise power in each part, draws `p + 2n` and `p + 2n + 1`; AWGN_POS advances by `2N`. -/
def Obligations.AwgnOnComplex : Prop :=
  ∀ (dst src : Nat) (s : State), s.Ready dst src .cplx → F64.isFinite s.snrDb = true →
    2 * s.count src ≤ Config.bufWords →
    let N := s.count src
    let x := s.cplxElem src
    let σ := s.site
    let sq := fun n => fadd (((σ.sub 0).sub n).sub 2) (fmul (((σ.sub 0).sub n).sub 0) (x n).re (x n).re)
      (fmul (((σ.sub 0).sub n).sub 1) (x n).im (x n).im)
    let P := fdiv (σ.sub 1) (fsum (σ.sub 0) 0 N sq) (f64 N)
    let Pn := fdiv (σ.sub 2) P (rnPow10 (F64.toRat s.snrDb / 10))
    let sig := fsqrt (σ.sub 3) (fdiv (σ.sub 5) Pn 0x4000000000000000#64)
    ∃ t, exec (.awgn dst src) s = .next t
      ∧ CompletesInto 0x20#8 dst
          (if N = 0 then s else { s with awgnPos := s.awgnPos + BitVec.ofNat 64 (2 * N), awgnSigma := sig }) t
      ∧ t.HoldsCplx dst N fun n =>
          let τ := (σ.sub 4).sub n
          ⟨fadd ((τ.sub 0).sub 1) (x n).re
             (fmul ((τ.sub 0).sub 0) sig (Config.gauss s.awgnSeed ((s.awgnPos.toNat + 2 * n) % 2 ^ 64))),
           fadd ((τ.sub 1).sub 1) (x n).im
             (fmul ((τ.sub 1).sub 0) sig (Config.gauss s.awgnSeed ((s.awgnPos.toNat + 2 * n + 1) % 2 ^ 64)))⟩

/-- R110: FADE.RAY multiplies every sample by one gain `h = RN(sqrt((a² + b²) / 2))` of two draws, keeps the kind, advances
FADE_POS by 2 modulo 2^64 and records `h`. -/
def Obligations.FadeRayleighScales : Prop :=
  ∀ (dst src : Nat) (s : State), 
    let a := F64.toRat (Config.gauss s.fadeSeed s.fadePos.toNat)
    let b := F64.toRat (Config.gauss s.fadeSeed ((s.fadePos.toNat + 1) % 2 ^ 64))
    let h := rnSqrtRat ((a ^ 2 + b ^ 2) / 2)
    let r := { s with fadePos := s.fadePos + 2#64, fadeHRe := h, fadeHIm := 0#64 }
    (s.Ready dst src .real → s.count src ≤ Config.bufWords →
      ∃ t, exec (.fadeRay dst src) s = .next t ∧ CompletesInto 0x21#8 dst r t
        ∧ t.HoldsReal dst (s.count src) fun n => fmul (s.site.sub n) (s.readWord src n) h)
    ∧ (s.Ready dst src .cplx → 2 * s.count src ≤ Config.bufWords →
      ∃ t, exec (.fadeRay dst src) s = .next t ∧ CompletesInto 0x21#8 dst r t
        ∧ t.HoldsCplx dst (s.count src) fun n =>
            ⟨fmul ((s.site.sub n).sub 0) (s.cplxElem src n).re h, fmul ((s.site.sub n).sub 1) (s.cplxElem src n).im h⟩)

/-- R111: FADE.RIC, with K_VALID 1 and a finite K, multiplies every sample by one complex gain `h`, advances FADE_POS by 2
and records `h`; the result is CPLX for both source kinds. -/
def Obligations.FadeRicianRotates : Prop :=
  ∀ (dst src : Nat) (s : State), s.status.kValid = true → F64.isFinite s.ricianKDb = true →
    2 * s.count src ≤ Config.bufWords →
    let a := F64.toRat (Config.gauss s.fadeSeed s.fadePos.toNat)
    let b := F64.toRat (Config.gauss s.fadeSeed ((s.fadePos.toNat + 1) % 2 ^ 64))
    let h := ricianH (F64.toRat s.ricianKDb / 10) a b
    let r := { s with fadePos := s.fadePos + 2#64, fadeHRe := h.re, fadeHIm := h.im }
    (s.Ready dst src .real →
      ∃ t, exec (.fadeRic dst src) s = .next t ∧ CompletesInto 0x21#8 dst r t
        ∧ t.HoldsCplx dst (s.count src) fun n =>
            ⟨fmul ((s.site.sub n).sub 0) (s.readWord src n) h.re, fmul ((s.site.sub n).sub 1) (s.readWord src n) h.im⟩)
    ∧ (s.Ready dst src .cplx →
      ∃ t, exec (.fadeRic dst src) s = .next t ∧ CompletesInto 0x21#8 dst r t
        ∧ t.HoldsCplx dst (s.count src) fun n => cmul (s.site.sub n) (s.cplxElem src n) h)

/-- R112 and R113: FOFS and FDRIFT multiply sample `n` by the phasor of the angle `π·(2·off·n/FS)` and `π·(rate·n²/FS²)`;
the result is CPLX for both source kinds. -/
def Obligations.OffsetAndDriftRotate : Prop :=
  ∀ (dst src : Nat) (s : State), 2 * s.count src ≤ Config.bufWords →
    let N := s.count src
    let e := phasors N fun n => 2 * F64.toRat s.fofsHz * n / s.fs.toNat
    let f := phasors N fun n => F64.toRat s.fdriftRate * (n : ℚ) ^ 2 / (s.fs.toNat : ℚ) ^ 2
    let byReal := fun (l : List Cplx) (n : Nat) => (⟨fmul ((s.site.sub n).sub 0) (s.readWord src n) (l.getD n ⟨0, 0⟩).re,
      fmul ((s.site.sub n).sub 1) (s.readWord src n) (l.getD n ⟨0, 0⟩).im⟩ : Cplx)
    let byCplx := fun (l : List Cplx) (n : Nat) => cmul (s.site.sub n) (s.cplxElem src n) (l.getD n ⟨0, 0⟩)
    (F64.isFinite s.fofsHz = true →
      (s.Ready dst src .real → ∃ t, exec (.fofs dst src) s = .next t ∧ CompletesInto 0x22#8 dst s t
        ∧ t.HoldsCplx dst N (byReal e))
      ∧ (s.Ready dst src .cplx → ∃ t, exec (.fofs dst src) s = .next t ∧ CompletesInto 0x22#8 dst s t
        ∧ t.HoldsCplx dst N (byCplx e)))
    ∧ (F64.isFinite s.fdriftRate = true →
      (s.Ready dst src .real → ∃ t, exec (.fdrift dst src) s = .next t ∧ CompletesInto 0x23#8 dst s t
        ∧ t.HoldsCplx dst N (byReal f))
      ∧ (s.Ready dst src .cplx → ∃ t, exec (.fdrift dst src) s = .next t ∧ CompletesInto 0x23#8 dst s t
        ∧ t.HoldsCplx dst N (byCplx f)))

/-- R114: FDELAY writes the full convolution with its 21 taps: `N + 20` samples of the same kind, or none of an empty
source. -/
def Obligations.FdelayConvolves : Prop :=
  ∀ (dst src : Nat) (s : State), F64.isFinite s.fdelayFrac = true → 0 < F64.toRat s.fdelayFrac →
    F64.toRat s.fdelayFrac < 1 →
    let N := s.count src
    let tap := fun k => (fdelayTaps (F64.toRat s.fdelayFrac)).getD k 0#64
    let sum := fun (σ : Site) (n : Nat) (x : Nat → Word) =>
      dotFrom σ (n + 1 - N) (min n 20 + 1 - (n + 1 - N)) tap fun k => x (n - k)
    (s.Ready dst src .real → N ≤ Config.bufWords → (N = 0 ∨ N + 20 ≤ Config.bufWords) →
      ∃ t, exec (.fdelay dst src) s = .next t ∧ CompletesInto 0x24#8 dst s t
        ∧ t.HoldsReal dst (if N = 0 then 0 else N + 20) fun n => sum (s.site.sub n) n (s.readWord src))
    ∧ (s.Ready dst src .cplx → 2 * N ≤ Config.bufWords → (N = 0 ∨ 2 * (N + 20) ≤ Config.bufWords) →
      ∃ t, exec (.fdelay dst src) s = .next t ∧ CompletesInto 0x24#8 dst s t
        ∧ t.HoldsCplx dst (if N = 0 then 0 else N + 20) fun n =>
            ⟨sum ((s.site.sub n).sub 0) n fun i => (s.cplxElem src i).re,
             sum ((s.site.sub n).sub 1) n fun i => (s.cplxElem src i).im⟩)

/-! Demodulator commands (43_demodulator.md). -/

/-- R116: DOWNCONV mixes with the NCO (`z`), then filters each part with LPF causally over the last 101 samples. -/
def Obligations.DownconvMixesAndFilters : Prop :=
  ∀ (dst src : Nat) (s : State), 2 * s.count src ≤ Config.bufWords →
    let N := s.count src
    let σ := s.site.sub 0
    let zr := fun n => (⟨fmul ((σ.sub n).sub 0) (s.readWord src n) (ncoCos (n % 20)),
      fneg (fmul ((σ.sub n).sub 1) (s.readWord src n) (ncoSin (n % 20)))⟩ : Cplx)
    let zc := fun n =>
      (⟨fadd ((σ.sub n).sub 2) (fmul ((σ.sub n).sub 0) (s.cplxElem src n).re (ncoCos (n % 20)))
          (fmul ((σ.sub n).sub 1) (s.cplxElem src n).im (ncoSin (n % 20))),
        fsub ((σ.sub n).sub 5) (fmul ((σ.sub n).sub 3) (s.cplxElem src n).im (ncoCos (n % 20)))
          (fmul ((σ.sub n).sub 4) (s.cplxElem src n).re (ncoSin (n % 20)))⟩ : Cplx)
    let filtered := fun (z : Nat → Cplx) (n : Nat) =>
      (⟨dotFrom (((s.site.sub 1).sub n).sub 0) 0 (min n 100 + 1) s.lpfTap fun k => (z (n - k)).re,
        dotFrom (((s.site.sub 1).sub n).sub 1) 0 (min n 100 + 1) s.lpfTap fun k => (z (n - k)).im⟩ : Cplx)
    (s.Ready dst src .real → ∃ t, exec (.downconv dst src) s = .next t ∧ CompletesInto 0x30#8 dst s t
      ∧ t.HoldsCplx dst N (filtered zr))
    ∧ (s.Ready dst src .cplx → ∃ t, exec (.downconv dst src) s = .next t ∧ CompletesInto 0x30#8 dst s t
      ∧ t.HoldsCplx dst N (filtered zc))

/-- R117 and R118: MATCH writes the full convolution with KERN, divided by E, times 2.0, times S, in three roundings;
MATCH.T keeps of these samples all but the last `6·SPS`. -/
def Obligations.MatchFiltersAndTrims : Prop :=
  ∀ (dst src : Nat) (s : State), s.Ready dst src .cplx → 0 < s.rrcLen.toNat → 2 * s.count src ≤ Config.bufWords →
    (s.count src = 0 ∨ 2 * (s.count src + s.rrcLen.toNat - 1) ≤ Config.bufWords) →
    let N := s.count src
    let Nout := if N = 0 then 0 else N + s.rrcLen.toNat - 1
    let scaled := fun (σ : Site) (y : Word) =>
      fmul (σ.sub 2) (fmul (σ.sub 1) (fdiv (σ.sub 0) y s.kernE) 0x4000000000000000#64) s.sScale
    let sum := fun (σ : Site) (n : Nat) (x : Nat → Word) =>
      dotFrom σ (n + 1 - N) (min n (s.rrcLen.toNat - 1) + 1 - (n + 1 - N)) s.tap fun k => x (n - k)
    let y := fun n => (⟨scaled (((s.site.sub 1).sub n).sub 0)
        (sum (((s.site.sub 0).sub n).sub 0) n fun i => (s.cplxElem src i).re),
      scaled (((s.site.sub 1).sub n).sub 1) (sum (((s.site.sub 0).sub n).sub 1) n fun i => (s.cplxElem src i).im)⟩ : Cplx)
    (∃ t, exec (.matchFull dst src) s = .next t ∧ CompletesInto 0x31#8 dst s t ∧ t.HoldsCplx dst Nout y)
      ∧ ∃ t, exec (.matchTrim dst src) s = .next t ∧ CompletesInto 0x31#8 dst s t
          ∧ t.HoldsCplx dst (Nout - 6 * s.sps.toNat) y

/-! Sampler and demapper (44_demapper.md). -/

/-- R120: SAMPLE copies SAMPLE_COUNT samples bit for bit, the first at `TOTAL_DELAY + TIMING_ADJ`, each `SPS` on. -/
def Obligations.SampleCopiesInstants : Prop :=
  ∀ (dst src : Nat) (s : State), s.Ready dst src .cplx →
    2 * s.count src ≤ Config.bufWords → 2 * s.sampleCount.toNat ≤ Config.bufWords →
    let st : Int := s.totalDelay.toNat + s.timingAdj.toInt
    (s.sampleCount.toNat = 0 ∨ (0 ≤ st ∧ st + ((s.sampleCount.toNat : Int) - 1) * s.sps.toNat < s.count src)) →
    ∃ t, exec (.sample dst src) s = .next t ∧ CompletesInto 0x32#8 dst s t
      ∧ t.HoldsCplx dst s.sampleCount.toNat fun k => s.cplxElem src (st.toNat + k * s.sps.toNat)

/-- R121: SAMPLE.A copies every instant inside the source: its count is the number of `k` with `st + k·SPS < N`. -/
def Obligations.SampleAutoCopiesAll : Prop :=
  ∀ (dst src : Nat) (s : State), s.Ready dst src .cplx → 0 < s.sps.toNat → 2 * s.count src ≤ Config.bufWords →
    let st : Int := s.totalDelay.toNat + s.timingAdj.toInt
    0 ≤ st →
    ∃ t cnt, exec (.sampleAuto dst src) s = .next t ∧ CompletesInto 0x32#8 dst s t
      ∧ (∀ k : Nat, k < cnt ↔ st + k * s.sps.toNat < s.count src)
      ∧ t.HoldsCplx dst cnt fun k => s.cplxElem src (st.toNat + k * s.sps.toNat)

/-- R122 for orders 1 and 2: a bit is 1 exactly if its part of the sample is above 0 in the IEEE 754 comparison; QPSK's
bits are interleaved I, Q. -/
def Obligations.DemapTakesSigns : Prop :=
  ∀ (dst src : Nat) (s : State), s.Ready dst src .cplx → 2 * s.count src ≤ Config.bufWords →
    (s.order.toNat = 1 → ∃ t, exec (.demap dst src) s = .next t ∧ CompletesInto 0x33#8 dst s t
      ∧ t.HoldsBits dst (s.count src) fun n => fgtZero (s.cplxElem src n).re)
    ∧ (s.order.toNat = 2 → ∃ t, exec (.demap dst src) s = .next t ∧ CompletesInto 0x33#8 dst s t
      ∧ t.HoldsBits dst (2 * s.count src) fun n =>
          if n % 2 = 0 then fgtZero (s.cplxElem src (n / 2)).re else fgtZero (s.cplxElem src (n / 2)).im)

/-- R122 for higher orders: sample `i` gives the bits, most significant first, of an index `v i` below M; for a finite
sample no point is nearer than that index's. Which of equally near points it is, and which index a sample that is not
finite gives, is not said (TIE, log 6). -/
def Obligations.DemapFindsNearestPoint : Prop :=
  ∀ (dst src : Nat) (s : State), s.Ready dst src .cplx → 2 < s.order.toNat → 2 * s.count src ≤ Config.bufWords →
    s.count src * s.order.toNat ≤ Config.bufWords →
    ∃ (t : State) (v : Nat → Nat), exec (.demap dst src) s = .next t ∧ CompletesInto 0x33#8 dst s t
      ∧ t.HoldsBits dst (s.count src * s.order.toNat)
          (fun n => (v (n / s.order.toNat)).testBit (s.order.toNat - 1 - n % s.order.toNat))
      ∧ ∀ i, i < s.count src → v i < 2 ^ s.order.toNat
          ∧ (F64.isFinite (s.cplxElem src i).re = true → F64.isFinite (s.cplxElem src i).im = true →
              ∀ w, w < 2 ^ s.order.toNat →
                distSq (s.cplxElem src i) (s.point (v i)) ≤ distSq (s.cplxElem src i) (s.point w))

/-- R123: in a configured machine of order 4 and above, DEMAP of exact constellation points gives the bits of their
indices. -/
def Obligations.ConstellationInverseLaw : Prop :=
  ∀ (dst src : Nat) (s : State) (v : Nat → Nat), s.Inv → s.Ready dst src .cplx → 4 ≤ s.order.toNat →
    2 * s.count src ≤ Config.bufWords → s.count src * s.order.toNat ≤ Config.bufWords →
    (∀ i, i < s.count src → v i < 2 ^ s.order.toNat
      ∧ s.cplxElem src i = ⟨f64 (s.point (v i)).i.toInt, f64 (s.point (v i)).q.toInt⟩) →
    ∃ t, exec (.demap dst src) s = .next t
      ∧ t.HoldsBits dst (s.count src * s.order.toNat) fun n =>
          (v (n / s.order.toNat)).testBit (s.order.toNat - 1 - n % s.order.toNat)

/-! The host interface (10_state.md, 20_memory.md, 70_reset_and_hazards.md). -/

/-- R126: a CMD write sets OVR and nothing else while BUSY; idle, it stores the word, sets BUSY and clears DONE. -/
def Obligations.CmdWriteIssues : Prop :=
  ∀ (s : State) (c : Word),
    (s.status.busy = true → accessOffset 0x030 8 (some c) s
        = .next { s with status := { s.status with ovr := true }, resp := .ok })
      ∧ (s.status.busy = false → accessOffset 0x030 8 (some c) s
        = .next { s with cmd := c, status := { s.status with busy := true, done := false }, resp := .ok })

/-- R17: a reserved offset reads as 0; a write to it, or to a read-only register as R151 lists them, has no effect at all;
R18, R19: ID, NBUF, BUFWORDS and KERNCAP read their constants. All of it busy or idle. The response is the model's own
field. -/
def Obligations.ReservedAndReadOnly : Prop :=
  ∀ (s : State) (off : Nat) (v : Word), off % 8 = 0 →
    (let reserved := off = 0x038 ∨ (0x068 ≤ off ∧ off ≤ 0x078) ∨ (0x130 ≤ off ∧ off ≤ 0x178)
        ∨ (0x1A8 ≤ off ∧ off ≤ 0x1B8) ∨ (0x1F0 ≤ off ∧ off ≤ 0xFF8)
     let readOnly := off ≤ 0x018 ∨ (0x080 ≤ off ∧ off ≤ 0x0B8) ∨ off = 0x0D0 ∨ off = 0x0D8 ∨ off = 0x0E8
        ∨ off = 0x0F8 ∨ off = 0x100
     (reserved → accessOffset off 8 none s = .next { s with resp := .data 0#64 })
      ∧ (reserved ∨ readOnly → accessOffset off 8 (some v) s = .next { s with resp := .ok })
      ∧ accessOffset 0x000 8 none s = .next { s with resp := .data 0x000000000001514D#64 }
      ∧ accessOffset 0x008 8 none s = .next { s with resp := .data 8#64 }
      ∧ accessOffset 0x010 8 none s = .next { s with resp := .data 0x100000#64 }
      ∧ accessOffset 0x018 8 none s = .next { s with resp := .data 0x10000#64 })

/-- R20, R147: CTRL reads IRQ_EN in bit 0 and 0 elsewhere; a write without bit 1 stores bit 0 in IRQ_EN; a write with bit 1
is a soft reset, and the rest of the word is ignored. All of it whatever BUSY is. R146: rst has the same effect, in one
step; a command in flight is abandoned. What the outside does next and the draw counter are the model's own and stay
(log 17). -/
def Obligations.ControlAndResets : Prop :=
  ∀ (s : State) (v : Word),
    accessOffset 0x020 8 none s = .next { s with resp := .data (if s.irqEn then 1#64 else 0#64) }
      ∧ (v.getLsbD 1 = false →
          accessOffset 0x020 8 (some v) s = .next { s with irqEn := v.getLsbD 0, resp := .ok })
      ∧ (v.getLsbD 1 = true → accessOffset 0x020 8 (some v) s
          = .next { State.reset with inbox := s.inbox, draws := s.draws, resp := .ok })
      ∧ ∀ rest, s.inbox = .rst :: rest → step s = .next { State.reset with inbox := rest, draws := s.draws }

/-- R21: a STATUS read shows each field at its bits and 0 in the reserved ones; a write clears DONE, OVR and WBUSY where it
has a 1 and changes nothing else. Both whatever BUSY is. -/
def Obligations.StatusRegister : Prop :=
  ∀ (s : State) (v : Word),
    (∃ w, accessOffset 0x028 8 none s = .next { s with resp := .data w }
        ∧ w.getLsbD 0 = s.status.busy ∧ w.getLsbD 1 = s.status.done ∧ w.getLsbD 2 = s.status.cfgValid
        ∧ w.getLsbD 3 = s.status.ovr ∧ w.getLsbD 4 = s.status.wbusy ∧ w.getLsbD 5 = s.status.kValid
        ∧ w.extractLsb' 6 2 = 0#2 ∧ w.extractLsb' 8 8 = s.status.err ∧ w.extractLsb' 16 8 = s.status.lastOpc
        ∧ w.extractLsb' 24 40 = 0#40)
      ∧ accessOffset 0x028 8 (some v) s = .next
          { s with
            status := { s.status with
              done := s.status.done && !v.getLsbD 1
              ovr := s.status.ovr && !v.getLsbD 3
              wbusy := s.status.wbusy && !v.getLsbD 4 }
            resp := .ok }

/-- R133: irq is DONE and IRQ_EN: raised by every completion, error or not, of a decoded command and of any command word
in flight, an illegal one too, while enabled; lowered by a W1C of DONE, by the next issue, by a soft reset and by rst;
masked by IRQ_EN 0, which leaves DONE. -/
def Obligations.InterruptLevel : Prop :=
  ∀ (s t : State) (v : Word),
    (s.irq = true ↔ s.status.done = true ∧ s.irqEn = true)
      ∧ (∀ i, exec i s = .next t → t.irq = s.irqEn)
      ∧ (s.status.busy = true → s.inbox = [] → step s = .next t → t.irq = s.irqEn)
      ∧ (∀ rest, s.status.busy = true → s.inbox = .engine :: rest → step s = .next t → t.irq = s.irqEn)
      ∧ (v.getLsbD 1 = true → accessOffset 0x028 8 (some v) s = .next t → t.irq = false)
      ∧ (s.status.busy = false → accessOffset 0x030 8 (some v) s = .next t → t.irq = false)
      ∧ (v.getLsbD 1 = true → accessOffset 0x020 8 (some v) s = .next t → t.irq = false)
      ∧ (v.getLsbD 1 = false → v.getLsbD 0 = false → accessOffset 0x020 8 (some v) s = .next t →
          t.irq = false ∧ t.status.done = s.status.done)
      ∧ (∀ rest, s.inbox = .rst :: rest → step s = .next t → t.irq = false)

/-- R28: an accepted write of any value to SCHEME, BIT_RATE, CARRIER_HZ, ALPHA, LPF_MULT or CONST_DATA clears CFG_VALID. -/
def Obligations.ConfigWritesInvalidate : Prop :=
  ∀ (s : State) (off : Nat) (v : Word), s.status.busy = false →
    off ∈ [0x040, 0x048, 0x050, 0x058, 0x060, 0x1C8] → (off = 0x1C8 → s.constIdx.toNat < 4096) →
    ∃ t, accessOffset off 8 (some v) s = .next t ∧ t.status.cfgValid = false

/-- R16, R22, R28 to R42, R46, R47, the registers while idle, CTRL and STATUS and the windows apart. A read answers the
register and changes nothing but the response. A write to a read-write register stores the word there, so that it reads
back, and changes nothing else but what is written beside it here: the first five clear CFG_VALID, a seed sets its stream
position to 0, RICIAN_K_DB sets K_VALID. -/
def Obligations.RegistersReadBack : Prop :=
  ∀ (s : State) (v : Word), s.status.busy = false →
    (∀ off w, (off, w) ∈
        [(0x030, s.cmd), (0x040, s.scheme), (0x048, s.bitRate), (0x050, s.carrierHz), (0x058, s.alpha),
         (0x060, s.lpfMult), (0x080, s.order), (0x088, s.fs), (0x090, s.sps), (0x098, s.rrcLen),
         (0x0A0, s.totalDelay), (0x0A8, s.sScale), (0x0B0, s.baud), (0x0B8, s.kernE), (0x0C0, s.snrDb),
         (0x0C8, s.awgnSeed), (0x0D0, s.awgnPos), (0x0D8, s.awgnSigma), (0x0E0, s.fadeSeed), (0x0E8, s.fadePos),
         (0x0F0, s.ricianKDb), (0x0F8, s.fadeHRe), (0x100, s.fadeHIm), (0x108, s.fofsHz), (0x110, s.fdriftRate),
         (0x118, s.fdelayFrac), (0x120, s.sampleCount), (0x128, s.timingAdj), (0x180, s.bufSel), (0x188, s.bufPtr),
         (0x1C0, s.constIdx), (0x1D0, s.kernIdx), (0x1E0, s.lpfIdx)] →
        accessOffset off 8 none s = .next { s with resp := .data w })
    ∧ (let noCfg := { s.status with cfgValid := false }
       ∀ (off : Nat) (t : State), (off, t) ∈
        [(0x040, { s with scheme := v, status := noCfg }), (0x048, { s with bitRate := v, status := noCfg }),
         (0x050, { s with carrierHz := v, status := noCfg }), (0x058, { s with alpha := v, status := noCfg }),
         (0x060, { s with lpfMult := v, status := noCfg }), (0x0C0, { s with snrDb := v }),
         (0x0C8, { s with awgnSeed := v, awgnPos := 0#64 }), (0x0E0, { s with fadeSeed := v, fadePos := 0#64 }),
         (0x0F0, { s with ricianKDb := v, status := { s.status with kValid := true } }),
         (0x108, { s with fofsHz := v }), (0x110, { s with fdriftRate := v }), (0x118, { s with fdelayFrac := v }),
         (0x120, { s with sampleCount := v }), (0x128, { s with timingAdj := v }), (0x180, { s with bufSel := v }),
         (0x188, { s with bufPtr := v }), (0x1C0, { s with constIdx := v }), (0x1D0, { s with kernIdx := v }),
         (0x1E0, { s with lpfIdx := v })] →
        accessOffset off 8 (some v) s = .next { t with resp := .ok }
          ∧ accessOffset off 8 none { t with resp := .ok } = .next { t with resp := .data v })

/-- R43: a BUF_DATA access while idle: in range, a read answers `B[b].w[p]` and a write stores it, both advancing BUF_PTR
modulo 2^64 and changing no length, no kind and no other word; a read of an unwritten word answers some word (log 2);
out of range, the access ends with a bus error (the model's fault, log 13). -/
def Obligations.BufferDataWindow : Prop :=
  ∀ (s : State) (v : Word), s.status.busy = false →
    let b := s.bufSel.toNat
    let p := s.bufPtr.toNat
    (8 ≤ b ∨ 0x100000 ≤ p →
      accessOffset 0x190 8 none s = .fault .busWindowRange ∧ accessOffset 0x190 8 (some v) s = .fault .busWindowRange)
    ∧ (b < 8 → p < 0x100000 →
      (∃ t w, accessOffset 0x190 8 none s = .next t ∧ (∀ x, s.word b p = some x → w = x)
        ∧ t = { s with bufPtr := s.bufPtr + 1#64, resp := .data w, draws := t.draws })
      ∧ ∃ t, accessOffset 0x190 8 (some v) s = .next t
          ∧ t = { s with bufs := t.bufs, bufPtr := s.bufPtr + 1#64, resp := .ok }
          ∧ t.word b p = some v ∧ (∀ c i, c ≠ b ∨ i ≠ p → t.word c i = s.word c i)
          ∧ ∀ c, (t.buf c).len = (s.buf c).len ∧ (t.buf c).kind = (s.buf c).kind)

/-- R44, R45: BUF_LEN stores any value, BUF_KIND stores a code 0 to 3 and NONE for any other; each reads back, and a write
changes nothing else. -/
def Obligations.BufferLengthAndKind : Prop :=
  ∀ (s : State) (v : Word), s.status.busy = false → s.bufSel.toNat < 8 →
    let b := s.bufSel.toNat
    (∃ t, accessOffset 0x198 8 (some v) s = .next t ∧ t.buf b = { s.buf b with len := v }
        ∧ (∀ c, c ≠ b → t.buf c = s.buf c) ∧ t = { s with bufs := t.bufs, resp := .ok }
        ∧ accessOffset 0x198 8 none t = .next { t with resp := .data v })
      ∧ ∃ t, accessOffset 0x1A0 8 (some v) s = .next t
          ∧ t.buf b = { s.buf b with kind := if v = 1 then .bits else if v = 2 then .real else if v = 3 then .cplx else .none }
          ∧ (∀ c, c ≠ b → t.buf c = s.buf c) ∧ t = { s with bufs := t.bufs, resp := .ok }
          ∧ accessOffset 0x1A0 8 none t = .next { t with resp := .data (if 3 < v.toNat then 0#64 else v) }

/-- R46: CONST_DATA at index `i` while idle: out of range a bus error; a write makes entry `i` the valid pair of the word's
two halves, advances CONST_IDX, clears CFG_VALID and changes no other entry; a read answers a valid entry's word, or
some word (log 4), and advances CONST_IDX. -/
def Obligations.ConstDataWindow : Prop :=
  ∀ (s : State) (v : Word), s.status.busy = false →
    let i := s.constIdx.toNat
    (4096 ≤ i →
      accessOffset 0x1C8 8 none s = .fault .busWindowRange ∧ accessOffset 0x1C8 8 (some v) s = .fault .busWindowRange)
    ∧ (i < 4096 →
      (∃ t, accessOffset 0x1C8 8 (some v) s = .next t
        ∧ t = { s with consts := t.consts, constIdx := s.constIdx + 1#64
                       status := { s.status with cfgValid := false }, resp := .ok }
        ∧ Memory.read t.consts i = some ⟨v.extractLsb' 0 32, v.extractLsb' 32 32⟩
        ∧ ∀ j, j ≠ i → Memory.read t.consts j = Memory.read s.consts j)
      ∧ ∃ t w, accessOffset 0x1C8 8 none s = .next t
          ∧ t = { s with constIdx := s.constIdx + 1#64, resp := .data w, draws := t.draws }
          ∧ ∀ e, Memory.read s.consts i = some e → w.extractLsb' 0 32 = e.i ∧ w.extractLsb' 32 32 = e.q)

/-- R47: KERN_DATA and LPF_DATA while idle: a write is ignored; a read out of range is a bus error, and in range answers
the tap if CFG_VALID is 1 (and, for KERN, the index is below RRC_LEN), else some word (log 4), and advances the
index. -/
def Obligations.KernelWindows : Prop :=
  ∀ (s : State) (v : Word), s.status.busy = false →
    accessOffset 0x1D8 8 (some v) s = .next { s with resp := .ok }
    ∧ accessOffset 0x1E8 8 (some v) s = .next { s with resp := .ok }
    ∧ (65536 ≤ s.kernIdx.toNat → accessOffset 0x1D8 8 none s = .fault .busWindowRange)
    ∧ (101 ≤ s.lpfIdx.toNat → accessOffset 0x1E8 8 none s = .fault .busWindowRange)
    ∧ (s.kernIdx.toNat < 65536 → ∃ t w, accessOffset 0x1D8 8 none s = .next t
        ∧ t = { s with kernIdx := s.kernIdx + 1#64, resp := .data w, draws := t.draws }
        ∧ (s.status.cfgValid = true → s.kernIdx.toNat < s.rrcLen.toNat → ∀ x, s.kern[s.kernIdx.toNat]? = some x → w = x))
    ∧ (s.lpfIdx.toNat < 101 → ∃ t w, accessOffset 0x1E8 8 none s = .next t
        ∧ t = { s with lpfIdx := s.lpfIdx + 1#64, resp := .data w, draws := t.draws }
        ∧ (s.status.cfgValid = true → ∀ x, s.lpf[s.lpfIdx.toNat]? = some x → w = x))

/-- R66: the complete list of the accesses that end with a bus error, the model's fault (log 13); every other access is
admitted. -/
def Obligations.BusErrorList : Prop :=
  ∀ (s : State) (off width : Nat) (wdata : Option Word),
    (((width ≠ 8 ∨ off % 8 ≠ 0) → accessOffset off width wdata s = .fault .busWidthOrAlignment)
      ∧ (width = 8 → off % 8 = 0 →
          (s.status.busy = false ∧
              ((off ∈ [0x190, 0x198, 0x1A0] ∧ 8 ≤ s.bufSel.toNat) ∨ (off = 0x190 ∧ 0x100000 ≤ s.bufPtr.toNat)
                ∨ (off = 0x1C8 ∧ 4096 ≤ s.constIdx.toNat)
                ∨ (off = 0x1D8 ∧ wdata = none ∧ 0x10000 ≤ s.kernIdx.toNat)
                ∨ (off = 0x1E8 ∧ wdata = none ∧ 101 ≤ s.lpfIdx.toNat))
            ↔ accessOffset off width wdata s = .fault .busWindowRange)
          ∧ (accessOffset off width wdata s ≠ .fault .busWindowRange → ∃ t, accessOffset off width wdata s = .next t)))

/-- R62, R67: a host access is one step; at `BASE + off`, `off` below 4096, it is the access at `off`; outside the block it
changes nothing of QMD (log 8). BASE is a multiple of 4096. The last clause is the model's choice (log 1), made from R13
and R145, by which nothing has to happen while idle: with nothing coming from outside, a step then answers the same
state. -/
def Obligations.HostAccessIsOneStep : Prop :=
  Config.base % 4096 = 0
    ∧ (∀ (s : State) (a : BusAccess) (rest : List HostEvent), s.inbox = .bus a :: rest →
        (∀ off, off < 4096 → a.addr = Config.base + off →
            step s = accessOffset off a.width a.wdata { s with inbox := rest })
          ∧ ((∀ off, off < 4096 → a.addr ≠ Config.base + off) → step s = .next { s with inbox := rest }))
    ∧ ∀ s : State, s.inbox = [] → s.status.busy = false → step s = .next s

/-- R151: the writes while BUSY but for those to CTRL and STATUS, which ControlAndResets and StatusRegister speak of. A CMD
write sets OVR only; a write to a read-only register or a reserved offset has no effect at all, not on WBUSY either; every
other write is dropped with WBUSY. A write to KERN_DATA or LPF_DATA is taken among the last (log 14, the model's
reading). -/
def Obligations.BusyWrites : Prop :=
  ∀ (s : State) (off : Nat) (v : Word), s.status.busy = true →
    (off = 0x030 → accessOffset off 8 (some v) s
        = .next { s with status := { s.status with ovr := true }, resp := .ok })
      ∧ (off ∈ [0x040, 0x048, 0x050, 0x058, 0x060, 0x0C0, 0x0C8, 0x0E0, 0x0F0, 0x108, 0x110, 0x118, 0x120, 0x128,
            0x180, 0x188, 0x190, 0x198, 0x1A0, 0x1C0, 0x1C8, 0x1D0, 0x1D8, 0x1E0, 0x1E8] →
          accessOffset off 8 (some v) s = .next { s with status := { s.status with wbusy := true }, resp := .ok })
      ∧ (off ∈ [0x000, 0x008, 0x010, 0x018, 0x080, 0x088, 0x090, 0x098, 0x0A0, 0x0A8, 0x0B0, 0x0B8, 0x0D0, 0x0D8,
            0x0E8, 0x0F8, 0x100] →
          accessOffset off 8 (some v) s = .next { s with resp := .ok })
      ∧ (off % 8 = 0 →
          off = 0x038 ∨ (0x068 ≤ off ∧ off ≤ 0x078) ∨ (0x130 ≤ off ∧ off ≤ 0x178) ∨ (0x1A8 ≤ off ∧ off ≤ 0x1B8)
            ∨ (0x1F0 ≤ off ∧ off ≤ 0xFF8) →
          accessOffset off 8 (some v) s = .next { s with resp := .ok })

/-- R151, last paragraph: no access while BUSY but a CTRL write changes anything the command in flight reads: whatever the
access, a next state has the same command in flight and differs in STATUS, the response and the draw counter only. -/
def Obligations.FlightIsUndisturbed : Prop :=
  ∀ (s t : State) (off width : Nat) (wdata : Option Word), s.status.busy = true →
    accessOffset off width wdata s = .next t → (off = 0x020 → wdata = none) →
    t = { s with status := t.status, resp := t.resp, draws := t.draws }
      ∧ t.status.busy = true ∧ t.status.cfgValid = s.status.cfgValid ∧ t.status.kValid = s.status.kValid

/-- R152: reads while BUSY: ID, NBUF, BUFWORDS, KERNCAP, CTRL, STATUS and CMD show what they show when idle; a reserved
offset shows 0; every other read answers some word (log 3) and has no side effect. -/
def Obligations.BusyReads : Prop :=
  ∀ (s : State) (off : Nat), s.status.busy = true → off % 8 = 0 →
    (off = 0x030 → accessOffset off 8 none s = .next { s with resp := .data s.cmd })
      ∧ (off ≤ 0x028 → accessOffset off 8 none s = .next { s with resp := .data (s.regValue (regAt off)) })
      ∧ (off = 0x038 ∨ (0x068 ≤ off ∧ off ≤ 0x078) ∨ (0x130 ≤ off ∧ off ≤ 0x178) ∨ (0x1A8 ≤ off ∧ off ≤ 0x1B8)
            ∨ 0x1F0 ≤ off → accessOffset off 8 none s = .next { s with resp := .data 0#64 })
      ∧ ∃ t w, accessOffset off 8 none s = .next t ∧ t = { s with resp := .data w, draws := t.draws }

/-- R16, R60: what the registers read right after reset, that every buffer is empty, that no word of KERN or LPF is
written, that no CONST entry is valid, that no command is in flight and that irq is low. -/
def Obligations.ResetValues : Prop :=
  (∀ off v, (off, v) ∈
      [(0x000, 0x1514D#64), (0x008, 8#64), (0x010, 0x100000#64), (0x018, 0x10000#64), (0x020, 0#64), (0x028, 0#64),
       (0x030, 0#64), (0x040, 0#64), (0x048, 0#64), (0x050, 0#64), (0x058, 0x3FD6666666666666#64),
       (0x060, 0x3FF8000000000000#64), (0x080, 0#64), (0x088, 0#64), (0x090, 0#64), (0x098, 0#64), (0x0A0, 0#64),
       (0x0A8, 0#64), (0x0B0, 0#64), (0x0B8, 0#64), (0x0C0, 0#64), (0x0C8, 0#64), (0x0D0, 0#64), (0x0D8, 0#64),
       (0x0E0, 0#64), (0x0E8, 0#64), (0x0F0, 0#64), (0x0F8, 0#64), (0x100, 0#64), (0x108, 0#64), (0x110, 0#64),
       (0x118, 0#64), (0x120, 0#64), (0x128, 0#64), (0x180, 0#64), (0x188, 0#64), (0x198, 0#64), (0x1A0, 0#64),
       (0x1C0, 0#64), (0x1D0, 0#64), (0x1E0, 0#64)] →
      accessOffset off 8 none State.reset = .next { State.reset with resp := .data v })
    ∧ (∀ b i, (State.reset.buf b).len = 0#64 ∧ (State.reset.buf b).kind = .none ∧ State.reset.word b i = none)
    ∧ State.reset.kern = [] ∧ State.reset.lpf = []
    ∧ (∀ v, Memory.read State.reset.consts v = none)
    ∧ State.reset.status.busy = false ∧ State.reset.irq = false

/-! The invariant. -/

/-- The reset state meets the invariant. -/
def Obligations.ResetMeetsInvariant : Prop := State.reset.Inv

/-- Every step keeps the invariant: the memories' canonical form, a legal ERR (R128), and that while CFG_VALID is 1 the
derived registers and kernels are those of the current configuration (R99). -/
def Obligations.StepKeepsInvariant : Prop := ∀ s t : State, s.Inv → step s = .next t → t.Inv

/-- R99, R92: what the invariant says of the registers while CFG_VALID is 1. -/
def Obligations.ConfiguredRegisters : Prop :=
  ∀ s : State, s.Inv → s.status.cfgValid = true →
    s.order.toNat ∈ [1, 2, 4, 6, 8, 10, 12] ∧ s.fs.toNat = 20 * s.carrierHz.toNat ∧ 0 < s.fs.toNat
      ∧ 0 < s.sps.toNat ∧ s.sps.toNat = roundHalfEven s.ratio
      ∧ s.rrcLen.toNat = 6 * s.sps.toNat ∧ s.rrcLen.toNat ≤ 65536 ∧ s.totalDelay.toNat = 6 * s.sps.toNat + 50
      ∧ s.kern.length = s.rrcLen.toNat ∧ s.lpf.length = 101 ∧ s.TableOk

/-! Numbers (00_scope.md R8). -/

/-- R91: `round_half_even` is the integer nearest, the even one of two at an exact half. -/
def Obligations.RoundHalfEvenRule : Prop :=
  ∀ r : ℚ, 0 ≤ r →
    |(roundHalfEven r : ℚ) - r| ≤ 1 / 2
      ∧ (|(roundHalfEven r : ℚ) - r| = 1 / 2 → roundHalfEven r % 2 = 0)
      ∧ roundHalfEven (5 / 2) = 2 ∧ roundHalfEven (7 / 2) = 4 ∧ roundHalfEven (1 / 2) = 0

/-- R96: S is 1.0 up to order 2, and for each higher order the binary64 value nearest `sqrt(2·(2^order - 1)/3)`, with the
bits of R96's table. -/
def Obligations.ScaleConstants : Prop :=
  (∀ o, o ≤ 2 → scaleS o = 0x3FF0000000000000#64)
    ∧ (∀ o, o ∈ [4, 6, 8, 10, 12] → IsNearest (Real.sqrt (2 * (2 ^ o - 1) / 3)) (scaleS o))
    ∧ scaleS 4 = 0x40094C583ADA5B53#64 ∧ scaleS 6 = 0x4019EC474A261264#64 ∧ scaleS 8 = 0x402A13A9CB996651#64
    ∧ scaleS 10 = 0x403A1D79241626A4#64 ∧ scaleS 12 = 0x404A1FEC66DC7A0D#64

/-- R94: the RRC kernel has `6·SPS` taps and is symmetric about tap `3·SPS`; tap 0 has no partner. -/
def Obligations.KernelIsSymmetric : Prop :=
  ∀ (a R : ℚ) (sps j : Nat), 1 ≤ j → j < 3 * sps →
    (rrcKernel a R sps).length = 6 * sps
      ∧ (rrcKernel a R sps)[3 * sps + j]? = (rrcKernel a R sps)[3 * sps - j]?

/-- R57: entry `m` of the NCO ROM is the binary64 value nearest `cos(π·m/10)` and `sin(π·m/10)`; the exact zeros are +0.0. -/
def Obligations.NcoRomIsNearest : Prop :=
  (∀ m : Nat, m < 20 → IsNearest (Real.cos (Real.pi * m / 10)) (ncoCos m)
      ∧ IsNearest (Real.sin (Real.pi * m / 10)) (ncoSin m))
    ∧ ncoCos 5 = 0#64 ∧ ncoCos 15 = 0#64 ∧ ncoSin 0 = 0#64 ∧ ncoSin 10 = 0#64

/-- R8: RN of a rational and of the square root of one: the nearest binary64 value, ties to even, an infinity on overflow,
and `RN(0) = +0.0`. RN keeps the sign of a number that is not 0, also where it rounds to a zero (log 11, the model's
reading), and `roundRatio` keeps the sign it is given. -/
def Obligations.RoundingIsNearestEven : Prop :=
  (∀ (neg : Bool) (n d : Nat), 0 < d →
      let w := F64.roundRatio neg n d
      IsRN (if neg then -((n : ℝ) / d) else (n : ℝ) / d) w ∧ F64.sign w = neg)
    ∧ (∀ q : ℚ, IsRN q (rnRat q) ∧ (F64.sign (rnRat q) = true ↔ q < 0))
    ∧ rnRat 0 = 0#64
    ∧ (∀ q : ℚ, 0 ≤ q → IsRN (Real.sqrt q) (rnSqrtRat q) ∧ F64.sign (rnSqrtRat q) = false)
    ∧ ∀ k : Int, IsRN k (f64 k)

/-- R8, the f-operations, whatever the site. On finite operands: RN of the exact result, so nearest, ties to even, an
infinity on overflow; the signs of zeros and of products and quotients are those of IEEE 754, and so are the quotients by
a zero and the square roots of a zero and of a negative value. On infinite operands the result is the infinity, the zero
or the quiet NaN of IEEE 754, and a NaN operand gives a quiet NaN; which quiet NaN it is, is not said (log 5). -/
def Obligations.FloatOperationsRound : Prop :=
  ∀ (σ : Site) (a b : Word),
    let x : ℝ := F64.toRat a
    let y : ℝ := F64.toRat b
    let sa := F64.sign a
    let sb := F64.sign b
    (F64.isFinite a = true → F64.isFinite b = true →
      IsRN (x + y) (fadd σ a b) ∧ IsRN (x - y) (fsub σ a b)
        ∧ (x + y = 0 → fadd σ a b = F64.zero (sa && sb)) ∧ (x - y = 0 → fsub σ a b = F64.zero (sa && !sb))
        ∧ IsRN (x * y) (fmul σ a b) ∧ F64.sign (fmul σ a b) = (sa ^^ sb)
        ∧ (y ≠ 0 → IsRN (x / y) (fdiv σ a b) ∧ F64.sign (fdiv σ a b) = (sa ^^ sb))
        ∧ (y = 0 → x ≠ 0 → fdiv σ a b = F64.infinity (sa ^^ sb)) ∧ (y = 0 → x = 0 → IsQuietNaN (fdiv σ a b)))
    ∧ (F64.isFinite a = true →
        (0 ≤ x → IsRN (Real.sqrt x) (fsqrt σ a)) ∧ (x = 0 → fsqrt σ a = a) ∧ (x < 0 → IsQuietNaN (fsqrt σ a)))
    ∧ (∀ s : Bool, a = F64.infinity s → F64.isFinite b = true →
        fadd σ a b = a ∧ fadd σ b a = a ∧ fsub σ a b = a ∧ fsub σ b a = F64.infinity (!s)
          ∧ (y ≠ 0 → fmul σ a b = F64.infinity (s ^^ sb) ∧ fmul σ b a = F64.infinity (s ^^ sb))
          ∧ (y = 0 → IsQuietNaN (fmul σ a b) ∧ IsQuietNaN (fmul σ b a))
          ∧ fdiv σ a b = F64.infinity (s ^^ sb) ∧ fdiv σ b a = F64.zero (s ^^ sb))
    ∧ (∀ s t : Bool, a = F64.infinity s → b = F64.infinity t →
        (s = t → fadd σ a b = a ∧ IsQuietNaN (fsub σ a b)) ∧ (s ≠ t → IsQuietNaN (fadd σ a b) ∧ fsub σ a b = a)
          ∧ fmul σ a b = F64.infinity (s ^^ t) ∧ IsQuietNaN (fdiv σ a b))
    ∧ fsqrt σ (F64.infinity false) = F64.infinity false ∧ IsQuietNaN (fsqrt σ (F64.infinity true))
    ∧ (F64.isNaN a = true ∨ F64.isNaN b = true → IsQuietNaN (fadd σ a b) ∧ IsQuietNaN (fsub σ a b)
        ∧ IsQuietNaN (fmul σ a b) ∧ IsQuietNaN (fdiv σ a b))
    ∧ (F64.isNaN a = true → IsQuietNaN (fsqrt σ a))

/-- The enclosures behind RN hold the exact reals of the rules, at every precision of at least 128 bits (log 10): `π`,
cosine, sine and sinc of a rational multiple of π; the windowed sinc taps of R95 and R114 (the factor `2·nu` that all of
R95's share cancels, log 20); the RRC taps `h` of R94 at `(k - 3·SPS) / R`; `10^y` of R109, with RN of it beyond the
exponents of binary64; the two parts of the Rician coefficient of R111 at `K = 10^y`. Of the taps it speaks where the
enclosure rounds at all, since RN is taken of no other. The phasors of R112 and R113 are made of the cosine and the
sine. -/
def Obligations.TrigEnclosuresHold : Prop :=
  ∀ (p : Nat) (r : ℚ), 128 ≤ p →
    (piIv p).Holds p Real.pi ∧ (cosPi p (piIv p) r).Holds p (Real.cos (Real.pi * r))
      ∧ (sinPi p (piIv p) r).Holds p (Real.sin (Real.pi * r))
      ∧ (sincPi p (piIv p) r).Holds p (Real.sinc (Real.pi * r))
      ∧ (∀ (n k : Nat) (z : Nat → ℚ) (e : Enc), (windowedSincEnc n z p)[k]? = some e → e.round? ≠ none →
          let q := fun j : Nat => (27 / 50 - 23 / 50 * Real.cos (2 * Real.pi * j / n)) * Real.sinc (Real.pi * z j)
          e.Holds (q k / ∑ j ∈ Finset.range (n + 1), q j))
      ∧ (∀ (a R : ℚ) (sps k : Nat) (e : Enc), 0 < a → a ≤ 1 → (rrcEncs a R sps p)[k]? = some e → e.round? ≠ none →
          let u : ℚ := ((k : ℚ) - 3 * sps) / R
          let π := Real.pi
          e.Holds
            (if u = 0 then 1 - a + 4 * a / π
             else if |4 * a * u| = 1 then
               a / Real.sqrt 2 * ((1 + 2 / π) * Real.sin (π / (4 * a)) + (1 - 2 / π) * Real.cos (π / (4 * a)))
             else (Real.sin (π * u * (1 - a)) + 4 * a * u * Real.cos (π * u * (1 + a)))
               / (π * u * (1 - (4 * a * u) ^ 2))))
      ∧ (pow10Enc r p).Holds ((10 : ℝ) ^ (r : ℝ))
      ∧ (309 ≤ r ∨ r ≤ -324 → IsRN ((10 : ℝ) ^ (r : ℝ)) (rnPow10 r))
      ∧ ∀ a : ℚ,
          let K := (10 : ℝ) ^ (r : ℝ)
          (ricianReEnc r a p).Holds (Real.sqrt (K / (K + 1)) + Real.sqrt (1 / (K + 1)) * a / Real.sqrt 2)
            ∧ (ricianImEnc r a p).Holds (Real.sqrt (1 / (K + 1)) * a / Real.sqrt 2)

/-- Rounding enclosures is sound (log 10). If an enclosure rounds to a word, that word is RN of every real the enclosure
holds, with the real's sign, also where it rounds to a zero (log 11). And `rnList` answers such words: if at the precisions
of its list every enclosure that rounds holds its real, and all round at one of these precisions, every word of the answer
is RN of its real. The kernels and tap sets, the phasors, `rnPow10` and `ricianH` are made of it. -/
def Obligations.EnclosureRoundingIsSound : Prop :=
  (∀ (e : Enc) (w : Word) (x : ℝ), e.Holds x → e.round? = some w → IsRN x w ∧ (F64.sign w = true ↔ x < 0))
    ∧ ∀ (enc : Nat → List Enc) (x : Nat → ℝ),
        (∀ p ∈ precisions, ∀ (k : Nat) (e : Enc), (enc p)[k]? = some e → e.round? ≠ none → e.Holds (x k)) →
        (∃ p ∈ precisions, roundAll? (enc p) ≠ none) →
        ∀ (k : Nat) (w : Word), (rnList enc)[k]? = some w → IsRN (x k) w ∧ (F64.sign w = true ↔ x k < 0)
end

