-- ==== Sys2Proof/Laws/State.lean ====
section
/-! SUPPORT. One lemma per field per record update of State, true by rfl, so that no proof unfolds an update. -/

namespace Sys2Proof.Machine

/-! `State.complete` -/

@[simp] theorem State.complete_irqEn (opc : BitVec 8) (s : State) : (State.complete opc s).irqEn = s.irqEn := rfl
@[simp] theorem State.complete_status (opc : BitVec 8) (s : State) : (State.complete opc s).status = s.status.completed opc 0#8 := rfl
@[simp] theorem State.complete_cmd (opc : BitVec 8) (s : State) : (State.complete opc s).cmd = s.cmd := rfl
@[simp] theorem State.complete_scheme (opc : BitVec 8) (s : State) : (State.complete opc s).scheme = s.scheme := rfl
@[simp] theorem State.complete_bitRate (opc : BitVec 8) (s : State) : (State.complete opc s).bitRate = s.bitRate := rfl
@[simp] theorem State.complete_carrierHz (opc : BitVec 8) (s : State) : (State.complete opc s).carrierHz = s.carrierHz := rfl
@[simp] theorem State.complete_alpha (opc : BitVec 8) (s : State) : (State.complete opc s).alpha = s.alpha := rfl
@[simp] theorem State.complete_lpfMult (opc : BitVec 8) (s : State) : (State.complete opc s).lpfMult = s.lpfMult := rfl
@[simp] theorem State.complete_order (opc : BitVec 8) (s : State) : (State.complete opc s).order = s.order := rfl
@[simp] theorem State.complete_fs (opc : BitVec 8) (s : State) : (State.complete opc s).fs = s.fs := rfl
@[simp] theorem State.complete_sps (opc : BitVec 8) (s : State) : (State.complete opc s).sps = s.sps := rfl
@[simp] theorem State.complete_rrcLen (opc : BitVec 8) (s : State) : (State.complete opc s).rrcLen = s.rrcLen := rfl
@[simp] theorem State.complete_totalDelay (opc : BitVec 8) (s : State) : (State.complete opc s).totalDelay = s.totalDelay := rfl
@[simp] theorem State.complete_sScale (opc : BitVec 8) (s : State) : (State.complete opc s).sScale = s.sScale := rfl
@[simp] theorem State.complete_baud (opc : BitVec 8) (s : State) : (State.complete opc s).baud = s.baud := rfl
@[simp] theorem State.complete_kernE (opc : BitVec 8) (s : State) : (State.complete opc s).kernE = s.kernE := rfl
@[simp] theorem State.complete_snrDb (opc : BitVec 8) (s : State) : (State.complete opc s).snrDb = s.snrDb := rfl
@[simp] theorem State.complete_awgnSeed (opc : BitVec 8) (s : State) : (State.complete opc s).awgnSeed = s.awgnSeed := rfl
@[simp] theorem State.complete_awgnPos (opc : BitVec 8) (s : State) : (State.complete opc s).awgnPos = s.awgnPos := rfl
@[simp] theorem State.complete_awgnSigma (opc : BitVec 8) (s : State) : (State.complete opc s).awgnSigma = s.awgnSigma := rfl
@[simp] theorem State.complete_fadeSeed (opc : BitVec 8) (s : State) : (State.complete opc s).fadeSeed = s.fadeSeed := rfl
@[simp] theorem State.complete_fadePos (opc : BitVec 8) (s : State) : (State.complete opc s).fadePos = s.fadePos := rfl
@[simp] theorem State.complete_ricianKDb (opc : BitVec 8) (s : State) : (State.complete opc s).ricianKDb = s.ricianKDb := rfl
@[simp] theorem State.complete_fadeHRe (opc : BitVec 8) (s : State) : (State.complete opc s).fadeHRe = s.fadeHRe := rfl
@[simp] theorem State.complete_fadeHIm (opc : BitVec 8) (s : State) : (State.complete opc s).fadeHIm = s.fadeHIm := rfl
@[simp] theorem State.complete_fofsHz (opc : BitVec 8) (s : State) : (State.complete opc s).fofsHz = s.fofsHz := rfl
@[simp] theorem State.complete_fdriftRate (opc : BitVec 8) (s : State) : (State.complete opc s).fdriftRate = s.fdriftRate := rfl
@[simp] theorem State.complete_fdelayFrac (opc : BitVec 8) (s : State) : (State.complete opc s).fdelayFrac = s.fdelayFrac := rfl
@[simp] theorem State.complete_sampleCount (opc : BitVec 8) (s : State) : (State.complete opc s).sampleCount = s.sampleCount := rfl
@[simp] theorem State.complete_timingAdj (opc : BitVec 8) (s : State) : (State.complete opc s).timingAdj = s.timingAdj := rfl
@[simp] theorem State.complete_bufSel (opc : BitVec 8) (s : State) : (State.complete opc s).bufSel = s.bufSel := rfl
@[simp] theorem State.complete_bufPtr (opc : BitVec 8) (s : State) : (State.complete opc s).bufPtr = s.bufPtr := rfl
@[simp] theorem State.complete_constIdx (opc : BitVec 8) (s : State) : (State.complete opc s).constIdx = s.constIdx := rfl
@[simp] theorem State.complete_kernIdx (opc : BitVec 8) (s : State) : (State.complete opc s).kernIdx = s.kernIdx := rfl
@[simp] theorem State.complete_lpfIdx (opc : BitVec 8) (s : State) : (State.complete opc s).lpfIdx = s.lpfIdx := rfl
@[simp] theorem State.complete_bufs (opc : BitVec 8) (s : State) : (State.complete opc s).bufs = s.bufs := rfl
@[simp] theorem State.complete_kern (opc : BitVec 8) (s : State) : (State.complete opc s).kern = s.kern := rfl
@[simp] theorem State.complete_lpf (opc : BitVec 8) (s : State) : (State.complete opc s).lpf = s.lpf := rfl
@[simp] theorem State.complete_consts (opc : BitVec 8) (s : State) : (State.complete opc s).consts = s.consts := rfl
@[simp] theorem State.complete_inbox (opc : BitVec 8) (s : State) : (State.complete opc s).inbox = s.inbox := rfl
@[simp] theorem State.complete_resp (opc : BitVec 8) (s : State) : (State.complete opc s).resp = s.resp := rfl
@[simp] theorem State.complete_draws (opc : BitVec 8) (s : State) : (State.complete opc s).draws = s.draws + 1 := rfl

/-! `State.raiseError` -/

@[simp] theorem State.raiseError_irqEn (opc : BitVec 8) (e : ErrCode) (s : State) : (State.raiseError opc e s).irqEn = s.irqEn := rfl
@[simp] theorem State.raiseError_status (opc : BitVec 8) (e : ErrCode) (s : State) : (State.raiseError opc e s).status = { s.status.completed opc e.code with cfgValid := if opc = 0x01#8 then false else s.status.cfgValid } := rfl
@[simp] theorem State.raiseError_cmd (opc : BitVec 8) (e : ErrCode) (s : State) : (State.raiseError opc e s).cmd = s.cmd := rfl
@[simp] theorem State.raiseError_scheme (opc : BitVec 8) (e : ErrCode) (s : State) : (State.raiseError opc e s).scheme = s.scheme := rfl
@[simp] theorem State.raiseError_bitRate (opc : BitVec 8) (e : ErrCode) (s : State) : (State.raiseError opc e s).bitRate = s.bitRate := rfl
@[simp] theorem State.raiseError_carrierHz (opc : BitVec 8) (e : ErrCode) (s : State) : (State.raiseError opc e s).carrierHz = s.carrierHz := rfl
@[simp] theorem State.raiseError_alpha (opc : BitVec 8) (e : ErrCode) (s : State) : (State.raiseError opc e s).alpha = s.alpha := rfl
@[simp] theorem State.raiseError_lpfMult (opc : BitVec 8) (e : ErrCode) (s : State) : (State.raiseError opc e s).lpfMult = s.lpfMult := rfl
@[simp] theorem State.raiseError_order (opc : BitVec 8) (e : ErrCode) (s : State) : (State.raiseError opc e s).order = s.order := rfl
@[simp] theorem State.raiseError_fs (opc : BitVec 8) (e : ErrCode) (s : State) : (State.raiseError opc e s).fs = s.fs := rfl
@[simp] theorem State.raiseError_sps (opc : BitVec 8) (e : ErrCode) (s : State) : (State.raiseError opc e s).sps = s.sps := rfl
@[simp] theorem State.raiseError_rrcLen (opc : BitVec 8) (e : ErrCode) (s : State) : (State.raiseError opc e s).rrcLen = s.rrcLen := rfl
@[simp] theorem State.raiseError_totalDelay (opc : BitVec 8) (e : ErrCode) (s : State) : (State.raiseError opc e s).totalDelay = s.totalDelay := rfl
@[simp] theorem State.raiseError_sScale (opc : BitVec 8) (e : ErrCode) (s : State) : (State.raiseError opc e s).sScale = s.sScale := rfl
@[simp] theorem State.raiseError_baud (opc : BitVec 8) (e : ErrCode) (s : State) : (State.raiseError opc e s).baud = s.baud := rfl
@[simp] theorem State.raiseError_kernE (opc : BitVec 8) (e : ErrCode) (s : State) : (State.raiseError opc e s).kernE = s.kernE := rfl
@[simp] theorem State.raiseError_snrDb (opc : BitVec 8) (e : ErrCode) (s : State) : (State.raiseError opc e s).snrDb = s.snrDb := rfl
@[simp] theorem State.raiseError_awgnSeed (opc : BitVec 8) (e : ErrCode) (s : State) : (State.raiseError opc e s).awgnSeed = s.awgnSeed := rfl
@[simp] theorem State.raiseError_awgnPos (opc : BitVec 8) (e : ErrCode) (s : State) : (State.raiseError opc e s).awgnPos = s.awgnPos := rfl
@[simp] theorem State.raiseError_awgnSigma (opc : BitVec 8) (e : ErrCode) (s : State) : (State.raiseError opc e s).awgnSigma = s.awgnSigma := rfl
@[simp] theorem State.raiseError_fadeSeed (opc : BitVec 8) (e : ErrCode) (s : State) : (State.raiseError opc e s).fadeSeed = s.fadeSeed := rfl
@[simp] theorem State.raiseError_fadePos (opc : BitVec 8) (e : ErrCode) (s : State) : (State.raiseError opc e s).fadePos = s.fadePos := rfl
@[simp] theorem State.raiseError_ricianKDb (opc : BitVec 8) (e : ErrCode) (s : State) : (State.raiseError opc e s).ricianKDb = s.ricianKDb := rfl
@[simp] theorem State.raiseError_fadeHRe (opc : BitVec 8) (e : ErrCode) (s : State) : (State.raiseError opc e s).fadeHRe = s.fadeHRe := rfl
@[simp] theorem State.raiseError_fadeHIm (opc : BitVec 8) (e : ErrCode) (s : State) : (State.raiseError opc e s).fadeHIm = s.fadeHIm := rfl
@[simp] theorem State.raiseError_fofsHz (opc : BitVec 8) (e : ErrCode) (s : State) : (State.raiseError opc e s).fofsHz = s.fofsHz := rfl
@[simp] theorem State.raiseError_fdriftRate (opc : BitVec 8) (e : ErrCode) (s : State) : (State.raiseError opc e s).fdriftRate = s.fdriftRate := rfl
@[simp] theorem State.raiseError_fdelayFrac (opc : BitVec 8) (e : ErrCode) (s : State) : (State.raiseError opc e s).fdelayFrac = s.fdelayFrac := rfl
@[simp] theorem State.raiseError_sampleCount (opc : BitVec 8) (e : ErrCode) (s : State) : (State.raiseError opc e s).sampleCount = s.sampleCount := rfl
@[simp] theorem State.raiseError_timingAdj (opc : BitVec 8) (e : ErrCode) (s : State) : (State.raiseError opc e s).timingAdj = s.timingAdj := rfl
@[simp] theorem State.raiseError_bufSel (opc : BitVec 8) (e : ErrCode) (s : State) : (State.raiseError opc e s).bufSel = s.bufSel := rfl
@[simp] theorem State.raiseError_bufPtr (opc : BitVec 8) (e : ErrCode) (s : State) : (State.raiseError opc e s).bufPtr = s.bufPtr := rfl
@[simp] theorem State.raiseError_constIdx (opc : BitVec 8) (e : ErrCode) (s : State) : (State.raiseError opc e s).constIdx = s.constIdx := rfl
@[simp] theorem State.raiseError_kernIdx (opc : BitVec 8) (e : ErrCode) (s : State) : (State.raiseError opc e s).kernIdx = s.kernIdx := rfl
@[simp] theorem State.raiseError_lpfIdx (opc : BitVec 8) (e : ErrCode) (s : State) : (State.raiseError opc e s).lpfIdx = s.lpfIdx := rfl
@[simp] theorem State.raiseError_bufs (opc : BitVec 8) (e : ErrCode) (s : State) : (State.raiseError opc e s).bufs = s.bufs := rfl
@[simp] theorem State.raiseError_kern (opc : BitVec 8) (e : ErrCode) (s : State) : (State.raiseError opc e s).kern = s.kern := rfl
@[simp] theorem State.raiseError_lpf (opc : BitVec 8) (e : ErrCode) (s : State) : (State.raiseError opc e s).lpf = s.lpf := rfl
@[simp] theorem State.raiseError_consts (opc : BitVec 8) (e : ErrCode) (s : State) : (State.raiseError opc e s).consts = s.consts := rfl
@[simp] theorem State.raiseError_inbox (opc : BitVec 8) (e : ErrCode) (s : State) : (State.raiseError opc e s).inbox = s.inbox := rfl
@[simp] theorem State.raiseError_resp (opc : BitVec 8) (e : ErrCode) (s : State) : (State.raiseError opc e s).resp = s.resp := rfl
@[simp] theorem State.raiseError_draws (opc : BitVec 8) (e : ErrCode) (s : State) : (State.raiseError opc e s).draws = s.draws := rfl

/-! `State.setBuf` -/

@[simp] theorem State.setBuf_irqEn (s : State) (b : Nat) (x : Buffer) : (s.setBuf b x).irqEn = s.irqEn := rfl
@[simp] theorem State.setBuf_status (s : State) (b : Nat) (x : Buffer) : (s.setBuf b x).status = s.status := rfl
@[simp] theorem State.setBuf_cmd (s : State) (b : Nat) (x : Buffer) : (s.setBuf b x).cmd = s.cmd := rfl
@[simp] theorem State.setBuf_scheme (s : State) (b : Nat) (x : Buffer) : (s.setBuf b x).scheme = s.scheme := rfl
@[simp] theorem State.setBuf_bitRate (s : State) (b : Nat) (x : Buffer) : (s.setBuf b x).bitRate = s.bitRate := rfl
@[simp] theorem State.setBuf_carrierHz (s : State) (b : Nat) (x : Buffer) : (s.setBuf b x).carrierHz = s.carrierHz := rfl
@[simp] theorem State.setBuf_alpha (s : State) (b : Nat) (x : Buffer) : (s.setBuf b x).alpha = s.alpha := rfl
@[simp] theorem State.setBuf_lpfMult (s : State) (b : Nat) (x : Buffer) : (s.setBuf b x).lpfMult = s.lpfMult := rfl
@[simp] theorem State.setBuf_order (s : State) (b : Nat) (x : Buffer) : (s.setBuf b x).order = s.order := rfl
@[simp] theorem State.setBuf_fs (s : State) (b : Nat) (x : Buffer) : (s.setBuf b x).fs = s.fs := rfl
@[simp] theorem State.setBuf_sps (s : State) (b : Nat) (x : Buffer) : (s.setBuf b x).sps = s.sps := rfl
@[simp] theorem State.setBuf_rrcLen (s : State) (b : Nat) (x : Buffer) : (s.setBuf b x).rrcLen = s.rrcLen := rfl
@[simp] theorem State.setBuf_totalDelay (s : State) (b : Nat) (x : Buffer) : (s.setBuf b x).totalDelay = s.totalDelay := rfl
@[simp] theorem State.setBuf_sScale (s : State) (b : Nat) (x : Buffer) : (s.setBuf b x).sScale = s.sScale := rfl
@[simp] theorem State.setBuf_baud (s : State) (b : Nat) (x : Buffer) : (s.setBuf b x).baud = s.baud := rfl
@[simp] theorem State.setBuf_kernE (s : State) (b : Nat) (x : Buffer) : (s.setBuf b x).kernE = s.kernE := rfl
@[simp] theorem State.setBuf_snrDb (s : State) (b : Nat) (x : Buffer) : (s.setBuf b x).snrDb = s.snrDb := rfl
@[simp] theorem State.setBuf_awgnSeed (s : State) (b : Nat) (x : Buffer) : (s.setBuf b x).awgnSeed = s.awgnSeed := rfl
@[simp] theorem State.setBuf_awgnPos (s : State) (b : Nat) (x : Buffer) : (s.setBuf b x).awgnPos = s.awgnPos := rfl
@[simp] theorem State.setBuf_awgnSigma (s : State) (b : Nat) (x : Buffer) : (s.setBuf b x).awgnSigma = s.awgnSigma := rfl
@[simp] theorem State.setBuf_fadeSeed (s : State) (b : Nat) (x : Buffer) : (s.setBuf b x).fadeSeed = s.fadeSeed := rfl
@[simp] theorem State.setBuf_fadePos (s : State) (b : Nat) (x : Buffer) : (s.setBuf b x).fadePos = s.fadePos := rfl
@[simp] theorem State.setBuf_ricianKDb (s : State) (b : Nat) (x : Buffer) : (s.setBuf b x).ricianKDb = s.ricianKDb := rfl
@[simp] theorem State.setBuf_fadeHRe (s : State) (b : Nat) (x : Buffer) : (s.setBuf b x).fadeHRe = s.fadeHRe := rfl
@[simp] theorem State.setBuf_fadeHIm (s : State) (b : Nat) (x : Buffer) : (s.setBuf b x).fadeHIm = s.fadeHIm := rfl
@[simp] theorem State.setBuf_fofsHz (s : State) (b : Nat) (x : Buffer) : (s.setBuf b x).fofsHz = s.fofsHz := rfl
@[simp] theorem State.setBuf_fdriftRate (s : State) (b : Nat) (x : Buffer) : (s.setBuf b x).fdriftRate = s.fdriftRate := rfl
@[simp] theorem State.setBuf_fdelayFrac (s : State) (b : Nat) (x : Buffer) : (s.setBuf b x).fdelayFrac = s.fdelayFrac := rfl
@[simp] theorem State.setBuf_sampleCount (s : State) (b : Nat) (x : Buffer) : (s.setBuf b x).sampleCount = s.sampleCount := rfl
@[simp] theorem State.setBuf_timingAdj (s : State) (b : Nat) (x : Buffer) : (s.setBuf b x).timingAdj = s.timingAdj := rfl
@[simp] theorem State.setBuf_bufSel (s : State) (b : Nat) (x : Buffer) : (s.setBuf b x).bufSel = s.bufSel := rfl
@[simp] theorem State.setBuf_bufPtr (s : State) (b : Nat) (x : Buffer) : (s.setBuf b x).bufPtr = s.bufPtr := rfl
@[simp] theorem State.setBuf_constIdx (s : State) (b : Nat) (x : Buffer) : (s.setBuf b x).constIdx = s.constIdx := rfl
@[simp] theorem State.setBuf_kernIdx (s : State) (b : Nat) (x : Buffer) : (s.setBuf b x).kernIdx = s.kernIdx := rfl
@[simp] theorem State.setBuf_lpfIdx (s : State) (b : Nat) (x : Buffer) : (s.setBuf b x).lpfIdx = s.lpfIdx := rfl
@[simp] theorem State.setBuf_bufs (s : State) (b : Nat) (x : Buffer) : (s.setBuf b x).bufs = s.bufs.setIfInBounds b x := rfl
@[simp] theorem State.setBuf_kern (s : State) (b : Nat) (x : Buffer) : (s.setBuf b x).kern = s.kern := rfl
@[simp] theorem State.setBuf_lpf (s : State) (b : Nat) (x : Buffer) : (s.setBuf b x).lpf = s.lpf := rfl
@[simp] theorem State.setBuf_consts (s : State) (b : Nat) (x : Buffer) : (s.setBuf b x).consts = s.consts := rfl
@[simp] theorem State.setBuf_inbox (s : State) (b : Nat) (x : Buffer) : (s.setBuf b x).inbox = s.inbox := rfl
@[simp] theorem State.setBuf_resp (s : State) (b : Nat) (x : Buffer) : (s.setBuf b x).resp = s.resp := rfl
@[simp] theorem State.setBuf_draws (s : State) (b : Nat) (x : Buffer) : (s.setBuf b x).draws = s.draws := rfl

/-! `State.putResult` -/

@[simp] theorem State.putResult_irqEn (s : State) (d : Nat) (y : Samples) : (s.putResult d y).irqEn = s.irqEn := rfl
@[simp] theorem State.putResult_status (s : State) (d : Nat) (y : Samples) : (s.putResult d y).status = s.status := rfl
@[simp] theorem State.putResult_cmd (s : State) (d : Nat) (y : Samples) : (s.putResult d y).cmd = s.cmd := rfl
@[simp] theorem State.putResult_scheme (s : State) (d : Nat) (y : Samples) : (s.putResult d y).scheme = s.scheme := rfl
@[simp] theorem State.putResult_bitRate (s : State) (d : Nat) (y : Samples) : (s.putResult d y).bitRate = s.bitRate := rfl
@[simp] theorem State.putResult_carrierHz (s : State) (d : Nat) (y : Samples) : (s.putResult d y).carrierHz = s.carrierHz := rfl
@[simp] theorem State.putResult_alpha (s : State) (d : Nat) (y : Samples) : (s.putResult d y).alpha = s.alpha := rfl
@[simp] theorem State.putResult_lpfMult (s : State) (d : Nat) (y : Samples) : (s.putResult d y).lpfMult = s.lpfMult := rfl
@[simp] theorem State.putResult_order (s : State) (d : Nat) (y : Samples) : (s.putResult d y).order = s.order := rfl
@[simp] theorem State.putResult_fs (s : State) (d : Nat) (y : Samples) : (s.putResult d y).fs = s.fs := rfl
@[simp] theorem State.putResult_sps (s : State) (d : Nat) (y : Samples) : (s.putResult d y).sps = s.sps := rfl
@[simp] theorem State.putResult_rrcLen (s : State) (d : Nat) (y : Samples) : (s.putResult d y).rrcLen = s.rrcLen := rfl
@[simp] theorem State.putResult_totalDelay (s : State) (d : Nat) (y : Samples) : (s.putResult d y).totalDelay = s.totalDelay := rfl
@[simp] theorem State.putResult_sScale (s : State) (d : Nat) (y : Samples) : (s.putResult d y).sScale = s.sScale := rfl
@[simp] theorem State.putResult_baud (s : State) (d : Nat) (y : Samples) : (s.putResult d y).baud = s.baud := rfl
@[simp] theorem State.putResult_kernE (s : State) (d : Nat) (y : Samples) : (s.putResult d y).kernE = s.kernE := rfl
@[simp] theorem State.putResult_snrDb (s : State) (d : Nat) (y : Samples) : (s.putResult d y).snrDb = s.snrDb := rfl
@[simp] theorem State.putResult_awgnSeed (s : State) (d : Nat) (y : Samples) : (s.putResult d y).awgnSeed = s.awgnSeed := rfl
@[simp] theorem State.putResult_awgnPos (s : State) (d : Nat) (y : Samples) : (s.putResult d y).awgnPos = s.awgnPos := rfl
@[simp] theorem State.putResult_awgnSigma (s : State) (d : Nat) (y : Samples) : (s.putResult d y).awgnSigma = s.awgnSigma := rfl
@[simp] theorem State.putResult_fadeSeed (s : State) (d : Nat) (y : Samples) : (s.putResult d y).fadeSeed = s.fadeSeed := rfl
@[simp] theorem State.putResult_fadePos (s : State) (d : Nat) (y : Samples) : (s.putResult d y).fadePos = s.fadePos := rfl
@[simp] theorem State.putResult_ricianKDb (s : State) (d : Nat) (y : Samples) : (s.putResult d y).ricianKDb = s.ricianKDb := rfl
@[simp] theorem State.putResult_fadeHRe (s : State) (d : Nat) (y : Samples) : (s.putResult d y).fadeHRe = s.fadeHRe := rfl
@[simp] theorem State.putResult_fadeHIm (s : State) (d : Nat) (y : Samples) : (s.putResult d y).fadeHIm = s.fadeHIm := rfl
@[simp] theorem State.putResult_fofsHz (s : State) (d : Nat) (y : Samples) : (s.putResult d y).fofsHz = s.fofsHz := rfl
@[simp] theorem State.putResult_fdriftRate (s : State) (d : Nat) (y : Samples) : (s.putResult d y).fdriftRate = s.fdriftRate := rfl
@[simp] theorem State.putResult_fdelayFrac (s : State) (d : Nat) (y : Samples) : (s.putResult d y).fdelayFrac = s.fdelayFrac := rfl
@[simp] theorem State.putResult_sampleCount (s : State) (d : Nat) (y : Samples) : (s.putResult d y).sampleCount = s.sampleCount := rfl
@[simp] theorem State.putResult_timingAdj (s : State) (d : Nat) (y : Samples) : (s.putResult d y).timingAdj = s.timingAdj := rfl
@[simp] theorem State.putResult_bufSel (s : State) (d : Nat) (y : Samples) : (s.putResult d y).bufSel = s.bufSel := rfl
@[simp] theorem State.putResult_bufPtr (s : State) (d : Nat) (y : Samples) : (s.putResult d y).bufPtr = s.bufPtr := rfl
@[simp] theorem State.putResult_constIdx (s : State) (d : Nat) (y : Samples) : (s.putResult d y).constIdx = s.constIdx := rfl
@[simp] theorem State.putResult_kernIdx (s : State) (d : Nat) (y : Samples) : (s.putResult d y).kernIdx = s.kernIdx := rfl
@[simp] theorem State.putResult_lpfIdx (s : State) (d : Nat) (y : Samples) : (s.putResult d y).lpfIdx = s.lpfIdx := rfl
@[simp] theorem State.putResult_bufs (s : State) (d : Nat) (y : Samples) : (s.putResult d y).bufs = s.bufs.setIfInBounds d y.buffer := rfl
@[simp] theorem State.putResult_kern (s : State) (d : Nat) (y : Samples) : (s.putResult d y).kern = s.kern := rfl
@[simp] theorem State.putResult_lpf (s : State) (d : Nat) (y : Samples) : (s.putResult d y).lpf = s.lpf := rfl
@[simp] theorem State.putResult_consts (s : State) (d : Nat) (y : Samples) : (s.putResult d y).consts = s.consts := rfl
@[simp] theorem State.putResult_inbox (s : State) (d : Nat) (y : Samples) : (s.putResult d y).inbox = s.inbox := rfl
@[simp] theorem State.putResult_resp (s : State) (d : Nat) (y : Samples) : (s.putResult d y).resp = s.resp := rfl
@[simp] theorem State.putResult_draws (s : State) (d : Nat) (y : Samples) : (s.putResult d y).draws = s.draws := rfl

/-! `State.putNoise` -/

@[simp] theorem State.putNoise_irqEn (s : State) (n : Nat) (g : Word) : (s.putNoise n g).irqEn = s.irqEn := rfl
@[simp] theorem State.putNoise_status (s : State) (n : Nat) (g : Word) : (s.putNoise n g).status = s.status := rfl
@[simp] theorem State.putNoise_cmd (s : State) (n : Nat) (g : Word) : (s.putNoise n g).cmd = s.cmd := rfl
@[simp] theorem State.putNoise_scheme (s : State) (n : Nat) (g : Word) : (s.putNoise n g).scheme = s.scheme := rfl
@[simp] theorem State.putNoise_bitRate (s : State) (n : Nat) (g : Word) : (s.putNoise n g).bitRate = s.bitRate := rfl
@[simp] theorem State.putNoise_carrierHz (s : State) (n : Nat) (g : Word) : (s.putNoise n g).carrierHz = s.carrierHz := rfl
@[simp] theorem State.putNoise_alpha (s : State) (n : Nat) (g : Word) : (s.putNoise n g).alpha = s.alpha := rfl
@[simp] theorem State.putNoise_lpfMult (s : State) (n : Nat) (g : Word) : (s.putNoise n g).lpfMult = s.lpfMult := rfl
@[simp] theorem State.putNoise_order (s : State) (n : Nat) (g : Word) : (s.putNoise n g).order = s.order := rfl
@[simp] theorem State.putNoise_fs (s : State) (n : Nat) (g : Word) : (s.putNoise n g).fs = s.fs := rfl
@[simp] theorem State.putNoise_sps (s : State) (n : Nat) (g : Word) : (s.putNoise n g).sps = s.sps := rfl
@[simp] theorem State.putNoise_rrcLen (s : State) (n : Nat) (g : Word) : (s.putNoise n g).rrcLen = s.rrcLen := rfl
@[simp] theorem State.putNoise_totalDelay (s : State) (n : Nat) (g : Word) : (s.putNoise n g).totalDelay = s.totalDelay := rfl
@[simp] theorem State.putNoise_sScale (s : State) (n : Nat) (g : Word) : (s.putNoise n g).sScale = s.sScale := rfl
@[simp] theorem State.putNoise_baud (s : State) (n : Nat) (g : Word) : (s.putNoise n g).baud = s.baud := rfl
@[simp] theorem State.putNoise_kernE (s : State) (n : Nat) (g : Word) : (s.putNoise n g).kernE = s.kernE := rfl
@[simp] theorem State.putNoise_snrDb (s : State) (n : Nat) (g : Word) : (s.putNoise n g).snrDb = s.snrDb := rfl
@[simp] theorem State.putNoise_awgnSeed (s : State) (n : Nat) (g : Word) : (s.putNoise n g).awgnSeed = s.awgnSeed := rfl
@[simp] theorem State.putNoise_awgnPos (s : State) (n : Nat) (g : Word) : (s.putNoise n g).awgnPos = s.awgnPos + BitVec.ofNat 64 n := rfl
@[simp] theorem State.putNoise_awgnSigma (s : State) (n : Nat) (g : Word) : (s.putNoise n g).awgnSigma = g := rfl
@[simp] theorem State.putNoise_fadeSeed (s : State) (n : Nat) (g : Word) : (s.putNoise n g).fadeSeed = s.fadeSeed := rfl
@[simp] theorem State.putNoise_fadePos (s : State) (n : Nat) (g : Word) : (s.putNoise n g).fadePos = s.fadePos := rfl
@[simp] theorem State.putNoise_ricianKDb (s : State) (n : Nat) (g : Word) : (s.putNoise n g).ricianKDb = s.ricianKDb := rfl
@[simp] theorem State.putNoise_fadeHRe (s : State) (n : Nat) (g : Word) : (s.putNoise n g).fadeHRe = s.fadeHRe := rfl
@[simp] theorem State.putNoise_fadeHIm (s : State) (n : Nat) (g : Word) : (s.putNoise n g).fadeHIm = s.fadeHIm := rfl
@[simp] theorem State.putNoise_fofsHz (s : State) (n : Nat) (g : Word) : (s.putNoise n g).fofsHz = s.fofsHz := rfl
@[simp] theorem State.putNoise_fdriftRate (s : State) (n : Nat) (g : Word) : (s.putNoise n g).fdriftRate = s.fdriftRate := rfl
@[simp] theorem State.putNoise_fdelayFrac (s : State) (n : Nat) (g : Word) : (s.putNoise n g).fdelayFrac = s.fdelayFrac := rfl
@[simp] theorem State.putNoise_sampleCount (s : State) (n : Nat) (g : Word) : (s.putNoise n g).sampleCount = s.sampleCount := rfl
@[simp] theorem State.putNoise_timingAdj (s : State) (n : Nat) (g : Word) : (s.putNoise n g).timingAdj = s.timingAdj := rfl
@[simp] theorem State.putNoise_bufSel (s : State) (n : Nat) (g : Word) : (s.putNoise n g).bufSel = s.bufSel := rfl
@[simp] theorem State.putNoise_bufPtr (s : State) (n : Nat) (g : Word) : (s.putNoise n g).bufPtr = s.bufPtr := rfl
@[simp] theorem State.putNoise_constIdx (s : State) (n : Nat) (g : Word) : (s.putNoise n g).constIdx = s.constIdx := rfl
@[simp] theorem State.putNoise_kernIdx (s : State) (n : Nat) (g : Word) : (s.putNoise n g).kernIdx = s.kernIdx := rfl
@[simp] theorem State.putNoise_lpfIdx (s : State) (n : Nat) (g : Word) : (s.putNoise n g).lpfIdx = s.lpfIdx := rfl
@[simp] theorem State.putNoise_bufs (s : State) (n : Nat) (g : Word) : (s.putNoise n g).bufs = s.bufs := rfl
@[simp] theorem State.putNoise_kern (s : State) (n : Nat) (g : Word) : (s.putNoise n g).kern = s.kern := rfl
@[simp] theorem State.putNoise_lpf (s : State) (n : Nat) (g : Word) : (s.putNoise n g).lpf = s.lpf := rfl
@[simp] theorem State.putNoise_consts (s : State) (n : Nat) (g : Word) : (s.putNoise n g).consts = s.consts := rfl
@[simp] theorem State.putNoise_inbox (s : State) (n : Nat) (g : Word) : (s.putNoise n g).inbox = s.inbox := rfl
@[simp] theorem State.putNoise_resp (s : State) (n : Nat) (g : Word) : (s.putNoise n g).resp = s.resp := rfl
@[simp] theorem State.putNoise_draws (s : State) (n : Nat) (g : Word) : (s.putNoise n g).draws = s.draws := rfl

/-! `State.putFade` -/

@[simp] theorem State.putFade_irqEn (s : State) (h : Cplx) : (s.putFade h).irqEn = s.irqEn := rfl
@[simp] theorem State.putFade_status (s : State) (h : Cplx) : (s.putFade h).status = s.status := rfl
@[simp] theorem State.putFade_cmd (s : State) (h : Cplx) : (s.putFade h).cmd = s.cmd := rfl
@[simp] theorem State.putFade_scheme (s : State) (h : Cplx) : (s.putFade h).scheme = s.scheme := rfl
@[simp] theorem State.putFade_bitRate (s : State) (h : Cplx) : (s.putFade h).bitRate = s.bitRate := rfl
@[simp] theorem State.putFade_carrierHz (s : State) (h : Cplx) : (s.putFade h).carrierHz = s.carrierHz := rfl
@[simp] theorem State.putFade_alpha (s : State) (h : Cplx) : (s.putFade h).alpha = s.alpha := rfl
@[simp] theorem State.putFade_lpfMult (s : State) (h : Cplx) : (s.putFade h).lpfMult = s.lpfMult := rfl
@[simp] theorem State.putFade_order (s : State) (h : Cplx) : (s.putFade h).order = s.order := rfl
@[simp] theorem State.putFade_fs (s : State) (h : Cplx) : (s.putFade h).fs = s.fs := rfl
@[simp] theorem State.putFade_sps (s : State) (h : Cplx) : (s.putFade h).sps = s.sps := rfl
@[simp] theorem State.putFade_rrcLen (s : State) (h : Cplx) : (s.putFade h).rrcLen = s.rrcLen := rfl
@[simp] theorem State.putFade_totalDelay (s : State) (h : Cplx) : (s.putFade h).totalDelay = s.totalDelay := rfl
@[simp] theorem State.putFade_sScale (s : State) (h : Cplx) : (s.putFade h).sScale = s.sScale := rfl
@[simp] theorem State.putFade_baud (s : State) (h : Cplx) : (s.putFade h).baud = s.baud := rfl
@[simp] theorem State.putFade_kernE (s : State) (h : Cplx) : (s.putFade h).kernE = s.kernE := rfl
@[simp] theorem State.putFade_snrDb (s : State) (h : Cplx) : (s.putFade h).snrDb = s.snrDb := rfl
@[simp] theorem State.putFade_awgnSeed (s : State) (h : Cplx) : (s.putFade h).awgnSeed = s.awgnSeed := rfl
@[simp] theorem State.putFade_awgnPos (s : State) (h : Cplx) : (s.putFade h).awgnPos = s.awgnPos := rfl
@[simp] theorem State.putFade_awgnSigma (s : State) (h : Cplx) : (s.putFade h).awgnSigma = s.awgnSigma := rfl
@[simp] theorem State.putFade_fadeSeed (s : State) (h : Cplx) : (s.putFade h).fadeSeed = s.fadeSeed := rfl
@[simp] theorem State.putFade_fadePos (s : State) (h : Cplx) : (s.putFade h).fadePos = s.fadePos + 2#64 := rfl
@[simp] theorem State.putFade_ricianKDb (s : State) (h : Cplx) : (s.putFade h).ricianKDb = s.ricianKDb := rfl
@[simp] theorem State.putFade_fadeHRe (s : State) (h : Cplx) : (s.putFade h).fadeHRe = h.re := rfl
@[simp] theorem State.putFade_fadeHIm (s : State) (h : Cplx) : (s.putFade h).fadeHIm = h.im := rfl
@[simp] theorem State.putFade_fofsHz (s : State) (h : Cplx) : (s.putFade h).fofsHz = s.fofsHz := rfl
@[simp] theorem State.putFade_fdriftRate (s : State) (h : Cplx) : (s.putFade h).fdriftRate = s.fdriftRate := rfl
@[simp] theorem State.putFade_fdelayFrac (s : State) (h : Cplx) : (s.putFade h).fdelayFrac = s.fdelayFrac := rfl
@[simp] theorem State.putFade_sampleCount (s : State) (h : Cplx) : (s.putFade h).sampleCount = s.sampleCount := rfl
@[simp] theorem State.putFade_timingAdj (s : State) (h : Cplx) : (s.putFade h).timingAdj = s.timingAdj := rfl
@[simp] theorem State.putFade_bufSel (s : State) (h : Cplx) : (s.putFade h).bufSel = s.bufSel := rfl
@[simp] theorem State.putFade_bufPtr (s : State) (h : Cplx) : (s.putFade h).bufPtr = s.bufPtr := rfl
@[simp] theorem State.putFade_constIdx (s : State) (h : Cplx) : (s.putFade h).constIdx = s.constIdx := rfl
@[simp] theorem State.putFade_kernIdx (s : State) (h : Cplx) : (s.putFade h).kernIdx = s.kernIdx := rfl
@[simp] theorem State.putFade_lpfIdx (s : State) (h : Cplx) : (s.putFade h).lpfIdx = s.lpfIdx := rfl
@[simp] theorem State.putFade_bufs (s : State) (h : Cplx) : (s.putFade h).bufs = s.bufs := rfl
@[simp] theorem State.putFade_kern (s : State) (h : Cplx) : (s.putFade h).kern = s.kern := rfl
@[simp] theorem State.putFade_lpf (s : State) (h : Cplx) : (s.putFade h).lpf = s.lpf := rfl
@[simp] theorem State.putFade_consts (s : State) (h : Cplx) : (s.putFade h).consts = s.consts := rfl
@[simp] theorem State.putFade_inbox (s : State) (h : Cplx) : (s.putFade h).inbox = s.inbox := rfl
@[simp] theorem State.putFade_resp (s : State) (h : Cplx) : (s.putFade h).resp = s.resp := rfl
@[simp] theorem State.putFade_draws (s : State) (h : Cplx) : (s.putFade h).draws = s.draws := rfl

/-! `State.putDerived` -/

@[simp] theorem State.putDerived_irqEn (s : State) (d : Derived) : (s.putDerived d).irqEn = s.irqEn := rfl
@[simp] theorem State.putDerived_status (s : State) (d : Derived) : (s.putDerived d).status = { s.status with cfgValid := true } := rfl
@[simp] theorem State.putDerived_cmd (s : State) (d : Derived) : (s.putDerived d).cmd = s.cmd := rfl
@[simp] theorem State.putDerived_scheme (s : State) (d : Derived) : (s.putDerived d).scheme = s.scheme := rfl
@[simp] theorem State.putDerived_bitRate (s : State) (d : Derived) : (s.putDerived d).bitRate = s.bitRate := rfl
@[simp] theorem State.putDerived_carrierHz (s : State) (d : Derived) : (s.putDerived d).carrierHz = s.carrierHz := rfl
@[simp] theorem State.putDerived_alpha (s : State) (d : Derived) : (s.putDerived d).alpha = s.alpha := rfl
@[simp] theorem State.putDerived_lpfMult (s : State) (d : Derived) : (s.putDerived d).lpfMult = s.lpfMult := rfl
@[simp] theorem State.putDerived_order (s : State) (d : Derived) : (s.putDerived d).order = d.order := rfl
@[simp] theorem State.putDerived_fs (s : State) (d : Derived) : (s.putDerived d).fs = d.fs := rfl
@[simp] theorem State.putDerived_sps (s : State) (d : Derived) : (s.putDerived d).sps = d.sps := rfl
@[simp] theorem State.putDerived_rrcLen (s : State) (d : Derived) : (s.putDerived d).rrcLen = d.rrcLen := rfl
@[simp] theorem State.putDerived_totalDelay (s : State) (d : Derived) : (s.putDerived d).totalDelay = d.totalDelay := rfl
@[simp] theorem State.putDerived_sScale (s : State) (d : Derived) : (s.putDerived d).sScale = d.sScale := rfl
@[simp] theorem State.putDerived_baud (s : State) (d : Derived) : (s.putDerived d).baud = d.baud := rfl
@[simp] theorem State.putDerived_kernE (s : State) (d : Derived) : (s.putDerived d).kernE = d.kernE := rfl
@[simp] theorem State.putDerived_snrDb (s : State) (d : Derived) : (s.putDerived d).snrDb = s.snrDb := rfl
@[simp] theorem State.putDerived_awgnSeed (s : State) (d : Derived) : (s.putDerived d).awgnSeed = s.awgnSeed := rfl
@[simp] theorem State.putDerived_awgnPos (s : State) (d : Derived) : (s.putDerived d).awgnPos = s.awgnPos := rfl
@[simp] theorem State.putDerived_awgnSigma (s : State) (d : Derived) : (s.putDerived d).awgnSigma = s.awgnSigma := rfl
@[simp] theorem State.putDerived_fadeSeed (s : State) (d : Derived) : (s.putDerived d).fadeSeed = s.fadeSeed := rfl
@[simp] theorem State.putDerived_fadePos (s : State) (d : Derived) : (s.putDerived d).fadePos = s.fadePos := rfl
@[simp] theorem State.putDerived_ricianKDb (s : State) (d : Derived) : (s.putDerived d).ricianKDb = s.ricianKDb := rfl
@[simp] theorem State.putDerived_fadeHRe (s : State) (d : Derived) : (s.putDerived d).fadeHRe = s.fadeHRe := rfl
@[simp] theorem State.putDerived_fadeHIm (s : State) (d : Derived) : (s.putDerived d).fadeHIm = s.fadeHIm := rfl
@[simp] theorem State.putDerived_fofsHz (s : State) (d : Derived) : (s.putDerived d).fofsHz = s.fofsHz := rfl
@[simp] theorem State.putDerived_fdriftRate (s : State) (d : Derived) : (s.putDerived d).fdriftRate = s.fdriftRate := rfl
@[simp] theorem State.putDerived_fdelayFrac (s : State) (d : Derived) : (s.putDerived d).fdelayFrac = s.fdelayFrac := rfl
@[simp] theorem State.putDerived_sampleCount (s : State) (d : Derived) : (s.putDerived d).sampleCount = s.sampleCount := rfl
@[simp] theorem State.putDerived_timingAdj (s : State) (d : Derived) : (s.putDerived d).timingAdj = s.timingAdj := rfl
@[simp] theorem State.putDerived_bufSel (s : State) (d : Derived) : (s.putDerived d).bufSel = s.bufSel := rfl
@[simp] theorem State.putDerived_bufPtr (s : State) (d : Derived) : (s.putDerived d).bufPtr = s.bufPtr := rfl
@[simp] theorem State.putDerived_constIdx (s : State) (d : Derived) : (s.putDerived d).constIdx = s.constIdx := rfl
@[simp] theorem State.putDerived_kernIdx (s : State) (d : Derived) : (s.putDerived d).kernIdx = s.kernIdx := rfl
@[simp] theorem State.putDerived_lpfIdx (s : State) (d : Derived) : (s.putDerived d).lpfIdx = s.lpfIdx := rfl
@[simp] theorem State.putDerived_bufs (s : State) (d : Derived) : (s.putDerived d).bufs = s.bufs := rfl
@[simp] theorem State.putDerived_kern (s : State) (d : Derived) : (s.putDerived d).kern = d.kern := rfl
@[simp] theorem State.putDerived_lpf (s : State) (d : Derived) : (s.putDerived d).lpf = d.lpf := rfl
@[simp] theorem State.putDerived_consts (s : State) (d : Derived) : (s.putDerived d).consts = s.consts := rfl
@[simp] theorem State.putDerived_inbox (s : State) (d : Derived) : (s.putDerived d).inbox = s.inbox := rfl
@[simp] theorem State.putDerived_resp (s : State) (d : Derived) : (s.putDerived d).resp = s.resp := rfl
@[simp] theorem State.putDerived_draws (s : State) (d : Derived) : (s.putDerived d).draws = s.draws := rfl

/-! `State.unconfigure` -/

@[simp] theorem State.unconfigure_irqEn (s : State) : (s.unconfigure).irqEn = s.irqEn := rfl
@[simp] theorem State.unconfigure_status (s : State) : (s.unconfigure).status = { s.status with cfgValid := false } := rfl
@[simp] theorem State.unconfigure_cmd (s : State) : (s.unconfigure).cmd = s.cmd := rfl
@[simp] theorem State.unconfigure_scheme (s : State) : (s.unconfigure).scheme = s.scheme := rfl
@[simp] theorem State.unconfigure_bitRate (s : State) : (s.unconfigure).bitRate = s.bitRate := rfl
@[simp] theorem State.unconfigure_carrierHz (s : State) : (s.unconfigure).carrierHz = s.carrierHz := rfl
@[simp] theorem State.unconfigure_alpha (s : State) : (s.unconfigure).alpha = s.alpha := rfl
@[simp] theorem State.unconfigure_lpfMult (s : State) : (s.unconfigure).lpfMult = s.lpfMult := rfl
@[simp] theorem State.unconfigure_order (s : State) : (s.unconfigure).order = s.order := rfl
@[simp] theorem State.unconfigure_fs (s : State) : (s.unconfigure).fs = s.fs := rfl
@[simp] theorem State.unconfigure_sps (s : State) : (s.unconfigure).sps = s.sps := rfl
@[simp] theorem State.unconfigure_rrcLen (s : State) : (s.unconfigure).rrcLen = s.rrcLen := rfl
@[simp] theorem State.unconfigure_totalDelay (s : State) : (s.unconfigure).totalDelay = s.totalDelay := rfl
@[simp] theorem State.unconfigure_sScale (s : State) : (s.unconfigure).sScale = s.sScale := rfl
@[simp] theorem State.unconfigure_baud (s : State) : (s.unconfigure).baud = s.baud := rfl
@[simp] theorem State.unconfigure_kernE (s : State) : (s.unconfigure).kernE = s.kernE := rfl
@[simp] theorem State.unconfigure_snrDb (s : State) : (s.unconfigure).snrDb = s.snrDb := rfl
@[simp] theorem State.unconfigure_awgnSeed (s : State) : (s.unconfigure).awgnSeed = s.awgnSeed := rfl
@[simp] theorem State.unconfigure_awgnPos (s : State) : (s.unconfigure).awgnPos = s.awgnPos := rfl
@[simp] theorem State.unconfigure_awgnSigma (s : State) : (s.unconfigure).awgnSigma = s.awgnSigma := rfl
@[simp] theorem State.unconfigure_fadeSeed (s : State) : (s.unconfigure).fadeSeed = s.fadeSeed := rfl
@[simp] theorem State.unconfigure_fadePos (s : State) : (s.unconfigure).fadePos = s.fadePos := rfl
@[simp] theorem State.unconfigure_ricianKDb (s : State) : (s.unconfigure).ricianKDb = s.ricianKDb := rfl
@[simp] theorem State.unconfigure_fadeHRe (s : State) : (s.unconfigure).fadeHRe = s.fadeHRe := rfl
@[simp] theorem State.unconfigure_fadeHIm (s : State) : (s.unconfigure).fadeHIm = s.fadeHIm := rfl
@[simp] theorem State.unconfigure_fofsHz (s : State) : (s.unconfigure).fofsHz = s.fofsHz := rfl
@[simp] theorem State.unconfigure_fdriftRate (s : State) : (s.unconfigure).fdriftRate = s.fdriftRate := rfl
@[simp] theorem State.unconfigure_fdelayFrac (s : State) : (s.unconfigure).fdelayFrac = s.fdelayFrac := rfl
@[simp] theorem State.unconfigure_sampleCount (s : State) : (s.unconfigure).sampleCount = s.sampleCount := rfl
@[simp] theorem State.unconfigure_timingAdj (s : State) : (s.unconfigure).timingAdj = s.timingAdj := rfl
@[simp] theorem State.unconfigure_bufSel (s : State) : (s.unconfigure).bufSel = s.bufSel := rfl
@[simp] theorem State.unconfigure_bufPtr (s : State) : (s.unconfigure).bufPtr = s.bufPtr := rfl
@[simp] theorem State.unconfigure_constIdx (s : State) : (s.unconfigure).constIdx = s.constIdx := rfl
@[simp] theorem State.unconfigure_kernIdx (s : State) : (s.unconfigure).kernIdx = s.kernIdx := rfl
@[simp] theorem State.unconfigure_lpfIdx (s : State) : (s.unconfigure).lpfIdx = s.lpfIdx := rfl
@[simp] theorem State.unconfigure_bufs (s : State) : (s.unconfigure).bufs = s.bufs := rfl
@[simp] theorem State.unconfigure_kern (s : State) : (s.unconfigure).kern = s.kern := rfl
@[simp] theorem State.unconfigure_lpf (s : State) : (s.unconfigure).lpf = s.lpf := rfl
@[simp] theorem State.unconfigure_consts (s : State) : (s.unconfigure).consts = s.consts := rfl
@[simp] theorem State.unconfigure_inbox (s : State) : (s.unconfigure).inbox = s.inbox := rfl
@[simp] theorem State.unconfigure_resp (s : State) : (s.unconfigure).resp = s.resp := rfl
@[simp] theorem State.unconfigure_draws (s : State) : (s.unconfigure).draws = s.draws := rfl

/-! `State.inFlight` -/

@[simp] theorem State.inFlight_irqEn (s : State) (c : Word) : (s.inFlight c).irqEn = s.irqEn := rfl
@[simp] theorem State.inFlight_status (s : State) (c : Word) : (s.inFlight c).status = { s.status with busy := true } := rfl
@[simp] theorem State.inFlight_cmd (s : State) (c : Word) : (s.inFlight c).cmd = c := rfl
@[simp] theorem State.inFlight_scheme (s : State) (c : Word) : (s.inFlight c).scheme = s.scheme := rfl
@[simp] theorem State.inFlight_bitRate (s : State) (c : Word) : (s.inFlight c).bitRate = s.bitRate := rfl
@[simp] theorem State.inFlight_carrierHz (s : State) (c : Word) : (s.inFlight c).carrierHz = s.carrierHz := rfl
@[simp] theorem State.inFlight_alpha (s : State) (c : Word) : (s.inFlight c).alpha = s.alpha := rfl
@[simp] theorem State.inFlight_lpfMult (s : State) (c : Word) : (s.inFlight c).lpfMult = s.lpfMult := rfl
@[simp] theorem State.inFlight_order (s : State) (c : Word) : (s.inFlight c).order = s.order := rfl
@[simp] theorem State.inFlight_fs (s : State) (c : Word) : (s.inFlight c).fs = s.fs := rfl
@[simp] theorem State.inFlight_sps (s : State) (c : Word) : (s.inFlight c).sps = s.sps := rfl
@[simp] theorem State.inFlight_rrcLen (s : State) (c : Word) : (s.inFlight c).rrcLen = s.rrcLen := rfl
@[simp] theorem State.inFlight_totalDelay (s : State) (c : Word) : (s.inFlight c).totalDelay = s.totalDelay := rfl
@[simp] theorem State.inFlight_sScale (s : State) (c : Word) : (s.inFlight c).sScale = s.sScale := rfl
@[simp] theorem State.inFlight_baud (s : State) (c : Word) : (s.inFlight c).baud = s.baud := rfl
@[simp] theorem State.inFlight_kernE (s : State) (c : Word) : (s.inFlight c).kernE = s.kernE := rfl
@[simp] theorem State.inFlight_snrDb (s : State) (c : Word) : (s.inFlight c).snrDb = s.snrDb := rfl
@[simp] theorem State.inFlight_awgnSeed (s : State) (c : Word) : (s.inFlight c).awgnSeed = s.awgnSeed := rfl
@[simp] theorem State.inFlight_awgnPos (s : State) (c : Word) : (s.inFlight c).awgnPos = s.awgnPos := rfl
@[simp] theorem State.inFlight_awgnSigma (s : State) (c : Word) : (s.inFlight c).awgnSigma = s.awgnSigma := rfl
@[simp] theorem State.inFlight_fadeSeed (s : State) (c : Word) : (s.inFlight c).fadeSeed = s.fadeSeed := rfl
@[simp] theorem State.inFlight_fadePos (s : State) (c : Word) : (s.inFlight c).fadePos = s.fadePos := rfl
@[simp] theorem State.inFlight_ricianKDb (s : State) (c : Word) : (s.inFlight c).ricianKDb = s.ricianKDb := rfl
@[simp] theorem State.inFlight_fadeHRe (s : State) (c : Word) : (s.inFlight c).fadeHRe = s.fadeHRe := rfl
@[simp] theorem State.inFlight_fadeHIm (s : State) (c : Word) : (s.inFlight c).fadeHIm = s.fadeHIm := rfl
@[simp] theorem State.inFlight_fofsHz (s : State) (c : Word) : (s.inFlight c).fofsHz = s.fofsHz := rfl
@[simp] theorem State.inFlight_fdriftRate (s : State) (c : Word) : (s.inFlight c).fdriftRate = s.fdriftRate := rfl
@[simp] theorem State.inFlight_fdelayFrac (s : State) (c : Word) : (s.inFlight c).fdelayFrac = s.fdelayFrac := rfl
@[simp] theorem State.inFlight_sampleCount (s : State) (c : Word) : (s.inFlight c).sampleCount = s.sampleCount := rfl
@[simp] theorem State.inFlight_timingAdj (s : State) (c : Word) : (s.inFlight c).timingAdj = s.timingAdj := rfl
@[simp] theorem State.inFlight_bufSel (s : State) (c : Word) : (s.inFlight c).bufSel = s.bufSel := rfl
@[simp] theorem State.inFlight_bufPtr (s : State) (c : Word) : (s.inFlight c).bufPtr = s.bufPtr := rfl
@[simp] theorem State.inFlight_constIdx (s : State) (c : Word) : (s.inFlight c).constIdx = s.constIdx := rfl
@[simp] theorem State.inFlight_kernIdx (s : State) (c : Word) : (s.inFlight c).kernIdx = s.kernIdx := rfl
@[simp] theorem State.inFlight_lpfIdx (s : State) (c : Word) : (s.inFlight c).lpfIdx = s.lpfIdx := rfl
@[simp] theorem State.inFlight_bufs (s : State) (c : Word) : (s.inFlight c).bufs = s.bufs := rfl
@[simp] theorem State.inFlight_kern (s : State) (c : Word) : (s.inFlight c).kern = s.kern := rfl
@[simp] theorem State.inFlight_lpf (s : State) (c : Word) : (s.inFlight c).lpf = s.lpf := rfl
@[simp] theorem State.inFlight_consts (s : State) (c : Word) : (s.inFlight c).consts = s.consts := rfl
@[simp] theorem State.inFlight_inbox (s : State) (c : Word) : (s.inFlight c).inbox = [] := rfl
@[simp] theorem State.inFlight_resp (s : State) (c : Word) : (s.inFlight c).resp = s.resp := rfl
@[simp] theorem State.inFlight_draws (s : State) (c : Word) : (s.inFlight c).draws = s.draws := rfl

/-! `State.hardReset` -/

@[simp] theorem State.hardReset_irqEn (s : State) : (s.hardReset).irqEn = State.reset.irqEn := rfl
@[simp] theorem State.hardReset_status (s : State) : (s.hardReset).status = State.reset.status := rfl
@[simp] theorem State.hardReset_cmd (s : State) : (s.hardReset).cmd = State.reset.cmd := rfl
@[simp] theorem State.hardReset_scheme (s : State) : (s.hardReset).scheme = State.reset.scheme := rfl
@[simp] theorem State.hardReset_bitRate (s : State) : (s.hardReset).bitRate = State.reset.bitRate := rfl
@[simp] theorem State.hardReset_carrierHz (s : State) : (s.hardReset).carrierHz = State.reset.carrierHz := rfl
@[simp] theorem State.hardReset_alpha (s : State) : (s.hardReset).alpha = State.reset.alpha := rfl
@[simp] theorem State.hardReset_lpfMult (s : State) : (s.hardReset).lpfMult = State.reset.lpfMult := rfl
@[simp] theorem State.hardReset_order (s : State) : (s.hardReset).order = State.reset.order := rfl
@[simp] theorem State.hardReset_fs (s : State) : (s.hardReset).fs = State.reset.fs := rfl
@[simp] theorem State.hardReset_sps (s : State) : (s.hardReset).sps = State.reset.sps := rfl
@[simp] theorem State.hardReset_rrcLen (s : State) : (s.hardReset).rrcLen = State.reset.rrcLen := rfl
@[simp] theorem State.hardReset_totalDelay (s : State) : (s.hardReset).totalDelay = State.reset.totalDelay := rfl
@[simp] theorem State.hardReset_sScale (s : State) : (s.hardReset).sScale = State.reset.sScale := rfl
@[simp] theorem State.hardReset_baud (s : State) : (s.hardReset).baud = State.reset.baud := rfl
@[simp] theorem State.hardReset_kernE (s : State) : (s.hardReset).kernE = State.reset.kernE := rfl
@[simp] theorem State.hardReset_snrDb (s : State) : (s.hardReset).snrDb = State.reset.snrDb := rfl
@[simp] theorem State.hardReset_awgnSeed (s : State) : (s.hardReset).awgnSeed = State.reset.awgnSeed := rfl
@[simp] theorem State.hardReset_awgnPos (s : State) : (s.hardReset).awgnPos = State.reset.awgnPos := rfl
@[simp] theorem State.hardReset_awgnSigma (s : State) : (s.hardReset).awgnSigma = State.reset.awgnSigma := rfl
@[simp] theorem State.hardReset_fadeSeed (s : State) : (s.hardReset).fadeSeed = State.reset.fadeSeed := rfl
@[simp] theorem State.hardReset_fadePos (s : State) : (s.hardReset).fadePos = State.reset.fadePos := rfl
@[simp] theorem State.hardReset_ricianKDb (s : State) : (s.hardReset).ricianKDb = State.reset.ricianKDb := rfl
@[simp] theorem State.hardReset_fadeHRe (s : State) : (s.hardReset).fadeHRe = State.reset.fadeHRe := rfl
@[simp] theorem State.hardReset_fadeHIm (s : State) : (s.hardReset).fadeHIm = State.reset.fadeHIm := rfl
@[simp] theorem State.hardReset_fofsHz (s : State) : (s.hardReset).fofsHz = State.reset.fofsHz := rfl
@[simp] theorem State.hardReset_fdriftRate (s : State) : (s.hardReset).fdriftRate = State.reset.fdriftRate := rfl
@[simp] theorem State.hardReset_fdelayFrac (s : State) : (s.hardReset).fdelayFrac = State.reset.fdelayFrac := rfl
@[simp] theorem State.hardReset_sampleCount (s : State) : (s.hardReset).sampleCount = State.reset.sampleCount := rfl
@[simp] theorem State.hardReset_timingAdj (s : State) : (s.hardReset).timingAdj = State.reset.timingAdj := rfl
@[simp] theorem State.hardReset_bufSel (s : State) : (s.hardReset).bufSel = State.reset.bufSel := rfl
@[simp] theorem State.hardReset_bufPtr (s : State) : (s.hardReset).bufPtr = State.reset.bufPtr := rfl
@[simp] theorem State.hardReset_constIdx (s : State) : (s.hardReset).constIdx = State.reset.constIdx := rfl
@[simp] theorem State.hardReset_kernIdx (s : State) : (s.hardReset).kernIdx = State.reset.kernIdx := rfl
@[simp] theorem State.hardReset_lpfIdx (s : State) : (s.hardReset).lpfIdx = State.reset.lpfIdx := rfl
@[simp] theorem State.hardReset_bufs (s : State) : (s.hardReset).bufs = State.reset.bufs := rfl
@[simp] theorem State.hardReset_kern (s : State) : (s.hardReset).kern = State.reset.kern := rfl
@[simp] theorem State.hardReset_lpf (s : State) : (s.hardReset).lpf = State.reset.lpf := rfl
@[simp] theorem State.hardReset_consts (s : State) : (s.hardReset).consts = State.reset.consts := rfl
@[simp] theorem State.hardReset_inbox (s : State) : (s.hardReset).inbox = s.inbox := rfl
@[simp] theorem State.hardReset_resp (s : State) : (s.hardReset).resp = State.reset.resp := rfl
@[simp] theorem State.hardReset_draws (s : State) : (s.hardReset).draws = s.draws := rfl

/-! `Status.completed` and `Status.issued`. -/

@[simp] theorem Status.completed_busy (t : Status) (opc e : BitVec 8) : (t.completed opc e).busy = false := rfl
@[simp] theorem Status.completed_done (t : Status) (opc e : BitVec 8) : (t.completed opc e).done = true := rfl
@[simp] theorem Status.completed_cfgValid (t : Status) (opc e : BitVec 8) : (t.completed opc e).cfgValid = t.cfgValid := rfl
@[simp] theorem Status.completed_ovr (t : Status) (opc e : BitVec 8) : (t.completed opc e).ovr = t.ovr := rfl
@[simp] theorem Status.completed_wbusy (t : Status) (opc e : BitVec 8) : (t.completed opc e).wbusy = t.wbusy := rfl
@[simp] theorem Status.completed_kValid (t : Status) (opc e : BitVec 8) : (t.completed opc e).kValid = t.kValid := rfl
@[simp] theorem Status.completed_err (t : Status) (opc e : BitVec 8) : (t.completed opc e).err = e := rfl
@[simp] theorem Status.completed_lastOpc (t : Status) (opc e : BitVec 8) : (t.completed opc e).lastOpc = opc := rfl
@[simp] theorem Status.issued_busy (t : Status) : t.issued.busy = true := rfl
@[simp] theorem Status.issued_done (t : Status) : t.issued.done = false := rfl
@[simp] theorem Status.issued_cfgValid (t : Status) : t.issued.cfgValid = t.cfgValid := rfl
@[simp] theorem Status.issued_ovr (t : Status) : t.issued.ovr = t.ovr := rfl
@[simp] theorem Status.issued_wbusy (t : Status) : t.issued.wbusy = t.wbusy := rfl
@[simp] theorem Status.issued_kValid (t : Status) : t.issued.kValid = t.kValid := rfl
@[simp] theorem Status.issued_err (t : Status) : t.issued.err = t.err := rfl
@[simp] theorem Status.issued_lastOpc (t : Status) : t.issued.lastOpc = t.lastOpc := rfl

end Sys2Proof.Machine
end

