-- ==== Sys2Proof/Laws/Bus.lean ====
section
/-! SUPPORT. The shared operations of a host access: the block's place, an admitted access, a read's answer. -/

namespace Sys2Proof.Machine

/-- BASE is a multiple of 4096 (R62). -/
theorem base_mod : Config.base % 4096 = 0 := by unfold Config.base; exact Nat.mul_mod_left _ _

/-- The address of an offset of the block reaches that offset. -/
theorem blockOffset_of_lt {off : Nat} (h : off < 4096) : blockOffset (Config.base + off) = some off := by
  simp [blockOffset, h]

/-- Every other address reaches nothing. -/
theorem blockOffset_outside {addr : Nat} (h : ∀ off, off < 4096 → addr ≠ Config.base + off) :
    blockOffset addr = none := by
  unfold blockOffset
  rw [if_neg]
  rintro ⟨h1, h2⟩
  exact h (addr - Config.base) (by omega) (by omega)

/-- An aligned access that is busy, or whose window index is in range, is admitted. -/
theorem accessOffset_admitted {off : Nat} {s : State} {wdata : Option Word} (h : off % 8 = 0)
    (hw : s.status.busy = true ∨ s.windowOut (regAt off) wdata.isNone = false) :
    accessOffset off 8 wdata s = .next (s.accessReg (regAt off) wdata) := by
  simp only [accessOffset]
  rw [if_neg (by simp [h]), if_neg]
  rintro ⟨a, b⟩
  rcases hw with hw | hw
  · rw [a] at hw; cases hw
  · rw [b] at hw; cases hw

/-- A host access ends with a bus error or in a next state. -/
theorem accessOffset_outcome (off width : Nat) (wdata : Option Word) (s : State) :
    (∃ f, accessOffset off width wdata s = .fault f)
      ∨ accessOffset off width wdata s = .next (s.accessReg (regAt off) wdata) := by
  unfold accessOffset
  split
  · exact .inl ⟨_, rfl⟩
  · split
    · exact .inl ⟨_, rfl⟩
    · exact .inr rfl

/-- The offsets at which each reserved word of R16's map stands. -/
theorem regAt_reserved {off : Nat} (h0 : off % 8 = 0)
    (h : off = 0x038 ∨ (0x068 ≤ off ∧ off ≤ 0x078) ∨ (0x130 ≤ off ∧ off ≤ 0x178) ∨ (0x1A8 ≤ off ∧ off ≤ 0x1B8)
      ∨ 0x1F0 ≤ off) : regAt off = .reserved := by
  unfold regAt
  split <;> first | rfl | omega

@[simp] theorem State.answer_some (s : State) (w : Word) : s.answer (some w) = { s with resp := .data w } := rfl
@[simp] theorem State.answer_none (s : State) :
    s.answer none = { s with resp := .data (Config.freeRead s.draws), draws := s.draws + 1 } := rfl

end Sys2Proof.Machine
end

