-- ==== Sys2Proof/Laws/Memory.lean ====
section
/-! SUPPORT. The laws of the sparse memories: a read after a write, and the canonical form that every operation keeps. -/

namespace Sys2Proof.Machine

variable {α : Type}

@[simp] theorem Memory.read_nil (a : Nat) : Memory.read ([] : Memory α) a = none := rfl

/-- A read at the written address answers the written value. -/
@[simp] theorem Memory.read_write_same (m : Memory α) (a : Nat) (v : α) : Memory.read (Memory.write m a v) a = some v := by
  induction m with
  | nil => simp [Memory.write, Memory.read]
  | cons p r ih =>
    obtain ⟨k, w⟩ := p
    simp only [Memory.write]
    split
    · simp [Memory.read]
    · split
      · simp [Memory.read]
      · have : ¬ k = a := by omega
        simp [Memory.read, this, ih]

/-- A write leaves every other address as it was. -/
theorem Memory.read_write_other (m : Memory α) {a b : Nat} (v : α) (h : b ≠ a) :
    Memory.read (Memory.write m a v) b = Memory.read m b := by
  induction m with
  | nil => simp [Memory.write, Memory.read, Ne.symm h]
  | cons p r ih =>
    obtain ⟨k, w⟩ := p
    simp only [Memory.write]
    split
    · simp [Memory.read, Ne.symm h]
    · split
      · next hk => subst hk; simp [Memory.read, Ne.symm h]
      · simp [Memory.read, ih]

/-- The canonical form from a lower address on is one from any address below it. -/
theorem Memory.risingFrom_mono {lo lo' bound : Nat} {m : Memory α} (h : lo' ≤ lo)
    (hm : Memory.risingFrom lo bound m = true) : Memory.risingFrom lo' bound m = true := by
  cases m with
  | nil => rfl
  | cons p r =>
    simp only [Memory.risingFrom, Bool.and_eq_true, decide_eq_true_eq] at hm ⊢
    exact ⟨⟨by omega, hm.1.2⟩, hm.2⟩

/-- A write below the bound keeps the canonical form. -/
theorem Memory.risingFrom_write {lo bound a : Nat} {m : Memory α} (v : α) (hm : Memory.risingFrom lo bound m = true)
    (hlo : lo ≤ a) (ha : a < bound) : Memory.risingFrom lo bound (Memory.write m a v) = true := by
  induction m generalizing lo with
  | nil => simp [Memory.write, Memory.risingFrom, hlo, ha]
  | cons p r ih =>
    obtain ⟨k, w⟩ := p
    simp only [Memory.risingFrom, Bool.and_eq_true, decide_eq_true_eq] at hm
    obtain ⟨⟨h1, h2⟩, h3⟩ := hm
    simp only [Memory.write]
    split
    · next h => simp [Memory.risingFrom, hlo, ha, h2, h3, Nat.succ_le_of_lt h]
    · split
      · next h => subst h; simp [Memory.risingFrom, hlo, ha, h3]
      · simp only [Memory.risingFrom, Bool.and_eq_true, decide_eq_true_eq]
        exact ⟨⟨h1, h2⟩, ih h3 (by omega)⟩

/-- A write below the bound keeps a memory well formed. -/
theorem Memory.wf_write {bound a : Nat} {m : Memory α} (v : α) (hm : Memory.wf bound m = true) (ha : a < bound) :
    Memory.wf bound (Memory.write m a v) = true := Memory.risingFrom_write v hm (Nat.zero_le a) ha

/-- Nothing stands below the first address of the canonical form. -/
theorem Memory.read_below {lo bound a : Nat} {m : Memory α} (hm : Memory.risingFrom lo bound m = true) (h : a < lo) :
    Memory.read m a = none := by
  induction m generalizing lo with
  | nil => rfl
  | cons p r ih =>
    obtain ⟨k, w⟩ := p
    simp only [Memory.risingFrom, Bool.and_eq_true, decide_eq_true_eq] at hm
    have : ¬ k = a := by omega
    simp only [Memory.read, this, if_false]
    exact ih hm.2 (by omega)

/-- Nothing stands at or above the bound. -/
theorem Memory.read_above {lo bound a : Nat} {m : Memory α} (hm : Memory.risingFrom lo bound m = true) (h : bound ≤ a) :
    Memory.read m a = none := by
  induction m generalizing lo with
  | nil => rfl
  | cons p r ih =>
    obtain ⟨k, w⟩ := p
    simp only [Memory.risingFrom, Bool.and_eq_true, decide_eq_true_eq] at hm
    have : ¬ k = a := by omega
    simp only [Memory.read, this, if_false]
    exact ih hm.2

/-- What the memory of a list reads at each address. -/
theorem Memory.read_ofList (a i : Nat) (l : List α) :
    Memory.read (Memory.ofList a l) i = if i < a then none else l[i - a]? := by
  induction l generalizing a with
  | nil => simp [Memory.ofList]
  | cons v vs ih =>
    simp only [Memory.ofList, Memory.read]
    by_cases h : a = i
    · subst h; simp
    · simp only [h, if_false, ih]
      by_cases h2 : i < a
      · simp [h2, Nat.lt_succ_of_lt h2]
      · have : ¬ i < a + 1 := by omega
        simp only [this, h2, if_false]
        have : i - a = (i - (a + 1)) + 1 := by omega
        rw [this]; simp

/-- What the memory of a list from address 0 on reads. -/
@[simp] theorem Memory.read_ofList_zero (i : Nat) (l : List α) : Memory.read (Memory.ofList 0 l) i = l[i]? := by
  simp [Memory.read_ofList]

/-- The memory of a list that fits is in canonical form. -/
theorem Memory.risingFrom_ofList {bound : Nat} (a : Nat) (l : List α) (h : a + l.length ≤ bound) :
    Memory.risingFrom a bound (Memory.ofList a l) = true := by
  induction l generalizing a with
  | nil => rfl
  | cons v vs ih =>
    simp only [List.length_cons] at h
    simp only [Memory.ofList, Memory.risingFrom, Bool.and_eq_true, decide_eq_true_eq]
    exact ⟨⟨Nat.le_refl a, by omega⟩, ih (a + 1) (by omega)⟩

/-- The memory of a list that fits is well formed. -/
theorem Memory.wf_ofList {bound : Nat} (l : List α) (h : l.length ≤ bound) :
    Memory.wf bound (Memory.ofList 0 l) = true := Memory.risingFrom_ofList 0 l (by omega)

/-- The empty memory is well formed. -/
@[simp] theorem Memory.wf_nil (bound : Nat) : Memory.wf bound ([] : Memory α) = true := rfl

/-- On a canonical memory a run is a read at each address. -/
theorem Memory.run_eq (free : Nat → α) {lo bound : Nat} (a n : Nat) {m : Memory α}
    (hm : Memory.risingFrom lo bound m = true) :
    Memory.run free a n m = (List.range' a n).map fun i => (Memory.read m i).getD (free i) := by
  induction m generalizing a n lo with
  | nil => simp [Memory.run]
  | cons p r ih =>
    obtain ⟨k, v⟩ := p
    simp only [Memory.risingFrom, Bool.and_eq_true, decide_eq_true_eq] at hm
    obtain ⟨⟨h1, h2⟩, h3⟩ := hm
    simp only [Memory.run]
    split
    · next hk =>
      rw [ih a n h3]
      apply List.map_congr_left
      intro i hi
      have : ¬ k = i := by have := List.mem_range'_1.1 hi; omega
      simp [Memory.read, this]
    · next hk =>
      split
      · next hn =>
        rw [ih (k + 1) _ h3]
        have e : n = (k - a) + (1 + (n - (k - a) - 1)) := by omega
        conv_rhs => rw [e, ← List.range'_append_1, ← List.range'_append_1]
        simp only [List.map_append]
        have e2 : a + (k - a) = k := by omega
        rw [e2]
        congr 1
        · apply List.map_congr_left
          intro i hi
          have hik : i < k := by have := List.mem_range'_1.1 hi; omega
          have : ¬ k = i := by omega
          simp [Memory.read, this, Memory.read_below h3 (by omega : i < k + 1)]
        · simp only [List.range'_one, List.map_cons, List.map_nil, Memory.read, if_true, Option.getD_some,
            List.singleton_append]
          congr 1
          apply List.map_congr_left
          intro i hi
          have : ¬ k = i := by have := List.mem_range'_1.1 hi; omega
          simp [this]
      · next hn =>
        apply List.map_congr_left
        intro i hi
        have hik := List.mem_range'_1.1 hi
        have : ¬ k = i := by omega
        simp [Memory.read, this, Memory.read_below h3 (by omega : i < k + 1)]

/-- A run has the length asked for. -/
theorem Memory.run_length (free : Nat → α) (a n : Nat) (m : Memory α) : (Memory.run free a n m).length = n := by
  induction m generalizing a n with
  | nil => simp [Memory.run]
  | cons p r ih =>
    obtain ⟨k, v⟩ := p
    simp only [Memory.run]
    split
    · exact ih a n
    · split
      · next h => simp [ih]; omega
      · simp

end Sys2Proof.Machine
end

