-- ==== Sys2Proof/Laws/Ops.lean ====
section
/-! SUPPORT. One lemma per shared operation of Machine/Ops.lean and Machine/Operands.lean: what a buffer holds after a
write, what a command reads of one, and every way a command can complete. -/

namespace Sys2Proof.Machine

/-! Buffers. -/

/-- The buffer just replaced. -/
theorem State.buf_setBuf_same (s : State) {b : Nat} (x : Buffer) (h : b < Config.nBuf) : (s.setBuf b x).buf b = x := by
  simp [State.buf, State.setBuf, h]

/-- Every other buffer. -/
theorem State.buf_setBuf_other (s : State) {a b : Nat} (x : Buffer) (h : a ≠ b) : (s.setBuf b x).buf a = s.buf a := by
  simp [State.buf, State.setBuf, Ne.symm h]

/-- The words of every other buffer. -/
theorem State.word_setBuf_other (s : State) {a b : Nat} (x : Buffer) (h : a ≠ b) (i : Nat) :
    (s.setBuf b x).word a i = s.word a i := by simp [State.word, State.buf_setBuf_other s x h]

/-- The words of the buffer just replaced. -/
theorem State.word_setBuf_same (s : State) {b : Nat} (x : Buffer) (h : b < Config.nBuf) (i : Nat) :
    (s.setBuf b x).word b i = Memory.read x.words i := by simp [State.word, State.buf_setBuf_same s x h]

/-- The buffers after reset. -/
theorem State.buf_reset (b : Nat) : State.reset.buf b = Buffer.empty := by
  simp only [State.buf, State.reset, Vector.getElem?_replicate]
  split <;> rfl

/-! Tabulated lists. -/

@[simp] theorem length_tabulate {α : Type} (n : Nat) (f : Nat → α) : (tabulate n f).length = n := by simp [tabulate]

theorem getElem?_tabulate {α : Type} (n : Nat) (f : Nat → α) (i : Nat) :
    (tabulate n f)[i]? = if i < n then some (f i) else none := by
  by_cases h : i < n <;> simp [tabulate, h]

theorem getD_tabulate {α : Type} (n : Nat) (f : Nat → α) (i : Nat) (d : α) :
    (tabulate n f).toArray.getD i d = if i < n then f i else d := by
  by_cases h : i < n <;> simp [tabulate, h]

/-- Word `2i` of a complex list is the real part of element `i`, word `2i + 1` the imaginary one. -/
theorem getElem?_flatMap_cplx (l : List Cplx) (i : Nat) :
    (l.flatMap fun c => [c.re, c.im])[2 * i]? = l[i]?.map Cplx.re
      ∧ (l.flatMap fun c => [c.re, c.im])[2 * i + 1]? = l[i]?.map Cplx.im := by
  induction l generalizing i with
  | nil => simp
  | cons c r ih =>
    cases i with
    | zero => simp
    | succ j =>
      have e : 2 * (j + 1) = 2 * j + 1 + 1 := by omega
      simpa [e] using ih j

theorem length_flatMap_cplx (l : List Cplx) : (l.flatMap fun c => [c.re, c.im]).length = 2 * l.length := by
  induction l with
  | nil => rfl
  | cons c r ih => simp [ih]; omega

/-! Results. -/

/-- The words of a result: as many as its elements' layout takes (R50). -/
theorem Samples.length_words (y : Samples) : y.words.length = y.kind.wpe * y.length := by
  cases y with
  | bits l => simp [Samples.words, Samples.kind, Samples.length, BufKind.wpe]
  | real l => simp [Samples.words, Samples.kind, Samples.length, BufKind.wpe]
  | cplx l =>
    simp only [Samples.words, Samples.kind, Samples.length, BufKind.wpe]
    exact length_flatMap_cplx l

/-- A result within the capacity is a canonical memory. -/
theorem Samples.wf_buffer (y : Samples) (h : y.kind.wpe * y.length ≤ Config.bufWords) :
    Memory.wf Config.bufWords y.buffer.words = true := Memory.wf_ofList _ (by rw [Samples.length_words]; exact h)

@[simp] theorem Samples.buffer_kind (y : Samples) : y.buffer.kind = y.kind := rfl

/-- A buffer's length register counts the elements of a result that fits in it. -/
theorem Samples.buffer_len (y : Samples) (h : y.length < 2 ^ 64) : y.buffer.len.toNat = y.length := by
  simpa [Samples.buffer] using h

@[simp] theorem Samples.read_buffer (y : Samples) (i : Nat) : Memory.read y.buffer.words i = y.words[i]? := by
  simp [Samples.buffer]

/-! What a command reads of its source buffer. -/

/-- Word `i` of a buffer as a command reads it, an unwritten one being free (R52). -/
theorem Buffer.firstWords_eq (x : Buffer) (draw n : Nat) (h : Memory.wf Config.bufWords x.words = true) :
    x.firstWords draw n = (List.range n).map fun i => (Memory.read x.words i).getD (Config.freeWord draw i) := by
  rw [Buffer.firstWords, Memory.run_eq _ 0 n h, List.range_eq_range']

theorem pairUp_map_range' (f : Nat → Word) (a n : Nat) :
    pairUp ((List.range' a (2 * n)).map f) = (List.range n).map fun i => ⟨f (a + 2 * i), f (a + 2 * i + 1)⟩ := by
  induction n generalizing a with
  | zero => rfl
  | succ n ih =>
    have e : 2 * (n + 1) = 2 * n + 1 + 1 := by omega
    rw [e, List.range'_succ, List.range'_succ, List.map_cons, List.map_cons, pairUp, ih, List.range_succ_eq_map]
    simp only [List.map_cons, List.map_map, Nat.mul_zero, Nat.add_zero]
    congr 1
    apply List.map_congr_left
    intro i _
    simp only [Function.comp]
    have e3 : a + 1 + 1 + 2 * i = a + 2 * (i + 1) := by omega
    rw [e3]

/-- Element `i` of a REAL buffer as a command reads it. -/
theorem Buffer.getD_realElems (x : Buffer) (draw i : Nat) (d : Word) (h : Memory.wf Config.bufWords x.words = true) :
    (x.realElems draw).getD i d
      = if i < x.len.toNat then (Memory.read x.words i).getD (Config.freeWord draw i) else d := by
  rw [Buffer.realElems, Buffer.firstWords_eq x draw _ h]
  exact getD_tabulate _ _ i d

/-- Element `i` of a BITS buffer as a command reads it. -/
theorem Buffer.getD_bitElems (x : Buffer) (draw i : Nat) (d : Bool) (h : Memory.wf Config.bufWords x.words = true) :
    (x.bitElems draw).getD i d
      = if i < x.len.toNat then ((Memory.read x.words i).getD (Config.freeWord draw i)).getLsbD 0 else d := by
  rw [Buffer.bitElems, Buffer.firstWords_eq x draw _ h, List.map_map]
  exact getD_tabulate _ _ i d

/-- Element `i` of a CPLX buffer as a command reads it. -/
theorem Buffer.getD_cplxElems (x : Buffer) (draw i : Nat) (d : Cplx) (h : Memory.wf Config.bufWords x.words = true) :
    (x.cplxElems draw).getD i d
      = if i < x.len.toNat then
          ⟨(Memory.read x.words (2 * i)).getD (Config.freeWord draw (2 * i)),
           (Memory.read x.words (2 * i + 1)).getD (Config.freeWord draw (2 * i + 1))⟩
        else d := by
  rw [Buffer.cplxElems, Buffer.firstWords_eq x draw _ h, List.range_eq_range', pairUp_map_range']
  simp only [Nat.zero_add]
  exact getD_tabulate _ _ i d

/-! Completion. -/

@[simp] theorem finish_ok (opc : BitVec 8) (s t : State) : finish opc s (.ok t) = .next (t.complete opc) := rfl

@[simp] theorem finish_error (opc : BitVec 8) (s : State) (e : ErrCode) :
    finish opc s (.error e) = .next (s.raiseError opc e) := rfl

/-- A command always answers a next state (R127). -/
theorem finish_next (opc : BitVec 8) (s : State) (r : Except ErrCode State) : ∃ t, finish opc s r = .next t := by
  cases r <;> exact ⟨_, rfl⟩

/-- A data command completes with E_BUFID, with E_NOCFG, with an error of its own checks, or with its writes (R129). -/
theorem dataCommand_cases (opc : BitVec 8) (dst src : Nat) (s : State) (body : Buffer → Except ErrCode State) :
    ((Config.nBuf ≤ src ∨ Config.nBuf ≤ dst) ∧ dataCommand opc dst src s body = .next (s.raiseError opc .bufId))
      ∨ (src < Config.nBuf ∧ dst < Config.nBuf ∧ s.status.cfgValid = false
          ∧ dataCommand opc dst src s body = .next (s.raiseError opc .noCfg))
      ∨ (src < Config.nBuf ∧ dst < Config.nBuf ∧ s.status.cfgValid = true
          ∧ dataCommand opc dst src s body = finish opc s (body (s.buf src))) := by
  unfold dataCommand
  by_cases h : Config.nBuf ≤ src ∨ Config.nBuf ≤ dst
  · exact .inl ⟨h, by simp [h]⟩
  · have h1 : src < Config.nBuf := by omega
    have h2 : dst < Config.nBuf := by omega
    cases hc : s.status.cfgValid
    · exact .inr (.inl ⟨h1, h2, rfl, by simp [h]⟩)
    · exact .inr (.inr ⟨h1, h2, rfl, by simp [h]⟩)

/-- A data command on operands that exist, with a valid configuration, is its own checks and writes. -/
theorem dataCommand_ready (opc : BitVec 8) {dst src : Nat} {s : State} (body : Buffer → Except ErrCode State)
    (hd : dst < Config.nBuf) (hs : src < Config.nBuf) (hc : s.status.cfgValid = true) :
    dataCommand opc dst src s body = finish opc s (body (s.buf src)) := by
  have : ¬ (Config.nBuf ≤ src ∨ Config.nBuf ≤ dst) := by omega
  simp [dataCommand, this, hc]

end Sys2Proof.Machine
end

