-- ==== Sys2Proof/Laws/Commands.lean ====
section
/-! SUPPORT. Everything a command can do, said once: `exec` completes with an error and no writes, or with the writes of
its rule (R127, R130). -/

namespace Sys2Proof.Machine

/-- A result that fits in a buffer. -/
def Samples.Fits (y : Samples) : Prop := y.kind.wpe * y.length ≤ Config.bufWords

/-- A result buffer and nothing else is written. -/
def WritesBuffer (dst : Nat) (s r : State) : Prop := ∃ y : Samples, y.Fits ∧ r = s.putResult dst y

/-- The writes of a command without error, before STATUS. -/
def CommandWrites (i : Instr) (s r : State) : Prop :=
  match i with
  | .nop => r = s
  | .config => ∃ d, s.configure = .ok d ∧ r = s.putDerived d
  | .awgn dst _ => ∃ r0, WritesBuffer dst s r0 ∧ (r = r0 ∨ ∃ n sig, r = r0.putNoise n sig)
  | .fadeRay dst _ => ∃ r0 h, WritesBuffer dst s r0 ∧ r = r0.putFade h
  | .fadeRic dst _ => ∃ r0 h, WritesBuffer dst s r0 ∧ r = r0.putFade h
  | .map dst _ => WritesBuffer dst s r
  | .comb dst _ => WritesBuffer dst s r
  | .rrc dst _ => WritesBuffer dst s r
  | .upconv dst _ => WritesBuffer dst s r
  | .fofs dst _ => WritesBuffer dst s r
  | .fdrift dst _ => WritesBuffer dst s r
  | .fdelay dst _ => WritesBuffer dst s r
  | .downconv dst _ => WritesBuffer dst s r
  | .matchFull dst _ => WritesBuffer dst s r
  | .matchTrim dst _ => WritesBuffer dst s r
  | .sample dst _ => WritesBuffer dst s r
  | .sampleAuto dst _ => WritesBuffer dst s r
  | .demap dst _ => WritesBuffer dst s r

theorem fits_cplx {n : Nat} {f : Nat → Cplx} (h : 2 * n ≤ Config.bufWords) : (Samples.cplx (tabulate n f)).Fits := by
  simpa [Samples.Fits, Samples.kind, Samples.length, BufKind.wpe] using h

theorem fits_real {n : Nat} {f : Nat → Word} (h : n ≤ Config.bufWords) : (Samples.real (tabulate n f)).Fits := by
  simpa [Samples.Fits, Samples.kind, Samples.length, BufKind.wpe] using h

theorem fits_bits {l : List Bool} (h : l.length ≤ Config.bufWords) : (Samples.bits l).Fits := by
  simpa [Samples.Fits, Samples.kind, Samples.length, BufKind.wpe] using h

/-- A kind that a channel command takes is REAL or CPLX. -/
theorem BufKind.isSignal_cases {k : BufKind} (h : ¬ k.isSignal = false) : k = .real ∨ k = .cplx := by
  cases k <;> simp_all [BufKind.isSignal]

/-- A written result buffer leaves every buffer in canonical form, and nothing but buffers changes. -/
theorem WritesBuffer.wf {dst : Nat} {s r : State} (h : WritesBuffer dst s r)
    (hs : ∀ b, b < Config.nBuf → Memory.wf Config.bufWords (s.buf b).words = true) :
    (∀ b, b < Config.nBuf → Memory.wf Config.bufWords (r.buf b).words = true) ∧ r = { s with bufs := r.bufs } := by
  obtain ⟨y, hy, rfl⟩ := h
  refine ⟨fun b hb => ?_, rfl⟩
  by_cases e : b = dst
  · subst e; rw [State.putResult, State.buf_setBuf_same _ _ hb]; exact y.wf_buffer hy
  · rw [State.putResult, State.buf_setBuf_other _ _ e]; exact hs b hb

/-! The writes of each command's own part. -/

theorem runMap_ok {dst : Nat} {s t : State} {x : Buffer} (h : runMap dst s x = .ok t) : WritesBuffer dst s t := by
  simp only [runMap] at h
  split at h
  · simp at h
  split at h
  · simp at h
  split at h
  · simp at h
  next hc => cases h; exact ⟨_, fits_cplx (by omega), rfl⟩

theorem runComb_ok {dst : Nat} {s t : State} {x : Buffer} (h : runComb dst s x = .ok t) : WritesBuffer dst s t := by
  simp only [runComb] at h
  split at h
  · simp at h
  split at h
  · simp at h
  next hc => cases h; exact ⟨_, fits_cplx (by omega), rfl⟩

theorem runRrc_ok {dst : Nat} {s t : State} {x : Buffer} (h : runRrc dst s x = .ok t) : WritesBuffer dst s t := by
  simp only [runRrc] at h
  split at h
  · simp at h
  split at h
  · simp at h
  next hc => cases h; exact ⟨_, fits_cplx (by omega), rfl⟩

theorem runUpconv_ok {dst : Nat} {s t : State} {x : Buffer} (h : runUpconv dst s x = .ok t) : WritesBuffer dst s t := by
  simp only [runUpconv] at h
  split at h
  · simp at h
  split at h
  · simp at h
  next hc => cases h; exact ⟨_, fits_real (by omega), rfl⟩

theorem runAwgn_ok {dst : Nat} {s t : State} {x : Buffer} (h : runAwgn dst s x = .ok t) :
    ∃ r0, WritesBuffer dst s r0 ∧ (t = r0 ∨ ∃ n sig, t = r0.putNoise n sig) := by
  simp only [runAwgn] at h
  split at h
  · simp at h
  next hk =>
  split at h
  · simp at h
  split at h
  · simp at h
  next hc =>
  split at h
  next hr =>
    simp only [hr, BufKind.wpe] at hc
    split at h
    · cases h; exact ⟨_, ⟨.real [], by simp [Samples.Fits, Samples.length], rfl⟩, .inl rfl⟩
    · cases h; exact ⟨_, ⟨_, fits_real (by omega), rfl⟩, .inr ⟨_, _, rfl⟩⟩
  next hr =>
    have hx : x.kind = .cplx := (BufKind.isSignal_cases hk).resolve_left hr
    simp only [hx, BufKind.wpe] at hc
    split at h
    · cases h; exact ⟨_, ⟨.cplx [], by simp [Samples.Fits, Samples.length], rfl⟩, .inl rfl⟩
    · cases h; exact ⟨_, ⟨_, fits_cplx (by omega), rfl⟩, .inr ⟨_, _, rfl⟩⟩

theorem runFadeRay_ok {dst : Nat} {s t : State} {x : Buffer} (h : runFadeRay dst s x = .ok t) :
    ∃ r0 g, WritesBuffer dst s r0 ∧ t = r0.putFade g := by
  simp only [runFadeRay] at h
  split at h
  · simp at h
  next hk =>
  split at h
  · simp at h
  next hc =>
  cases h
  refine ⟨_, _, ⟨_, ?_, rfl⟩, rfl⟩
  by_cases hr : x.kind = .real
  · simp only [hr, if_true, BufKind.wpe] at hc ⊢
    exact fits_real (by omega)
  · have hx : x.kind = .cplx := (BufKind.isSignal_cases hk).resolve_left hr
    simp only [hr, if_false]
    simp only [hx, BufKind.wpe] at hc
    exact fits_cplx (by omega)

/-- A rotated signal is as long as its source. -/
theorem length_rotate (s : State) (x : Buffer) (h : Nat → Cplx) : (rotate s x h).length = x.len.toNat := by
  simp only [rotate]; split <;> simp

theorem runFadeRic_ok {dst : Nat} {s t : State} {x : Buffer} (h : runFadeRic dst s x = .ok t) :
    ∃ r0 g, WritesBuffer dst s r0 ∧ t = r0.putFade g := by
  simp only [runFadeRic] at h
  split at h
  · simp at h
  split at h
  · simp at h
  split at h
  · simp at h
  split at h
  · simp at h
  next hc =>
  cases h
  refine ⟨_, _, ⟨_, ?_, rfl⟩, rfl⟩
  simp only [Samples.Fits, Samples.kind, Samples.length, BufKind.wpe, length_rotate]
  omega

theorem runPhasors_ok {dst : Nat} {s t : State} {param : Word} {r : Nat → ℚ} {x : Buffer}
    (h : runPhasors dst s param r x = .ok t) : WritesBuffer dst s t := by
  simp only [runPhasors] at h
  split at h
  · simp at h
  split at h
  · simp at h
  split at h
  · simp at h
  next hc =>
  cases h
  refine ⟨_, ?_, rfl⟩
  simp only [Samples.Fits, Samples.kind, Samples.length, BufKind.wpe, length_rotate]
  omega

theorem runFdelay_ok {dst : Nat} {s t : State} {x : Buffer} (h : runFdelay dst s x = .ok t) : WritesBuffer dst s t := by
  simp only [runFdelay] at h
  split at h
  · simp at h
  next hk =>
  split at h
  · simp at h
  split at h
  · simp at h
  next hc =>
  cases h
  refine ⟨_, ?_, rfl⟩
  by_cases hr : x.kind = .real
  · simp only [hr, if_true, BufKind.wpe] at hc ⊢
    exact fits_real (by omega)
  · have hx : x.kind = .cplx := (BufKind.isSignal_cases hk).resolve_left hr
    simp only [hr, if_false]
    simp only [hx, BufKind.wpe] at hc
    exact fits_cplx (by omega)

theorem runDownconv_ok {dst : Nat} {s t : State} {x : Buffer} (h : runDownconv dst s x = .ok t) :
    WritesBuffer dst s t := by
  simp only [runDownconv] at h
  split at h
  · simp at h
  split at h
  · simp at h
  next hc => cases h; exact ⟨_, fits_cplx (by omega), rfl⟩

theorem runMatch_ok {dst : Nat} {s t : State} {keep : Nat → Nat} {x : Buffer} (hk : ∀ n, keep n ≤ n)
    (h : runMatch dst s keep x = .ok t) : WritesBuffer dst s t := by
  simp only [runMatch] at h
  split at h
  · simp at h
  split at h
  · simp at h
  next hc =>
  cases h
  exact ⟨_, fits_cplx (by have := hk (fullLength s.rrcLen.toNat x.len.toNat); omega), rfl⟩

theorem runSample_ok {dst : Nat} {s t : State} {x : Buffer} (h : runSample dst s x = .ok t) : WritesBuffer dst s t := by
  simp only [runSample] at h
  split at h
  · simp at h
  split at h
  · simp at h
  split at h
  · simp at h
  next hc => cases h; exact ⟨_, fits_cplx (by omega), rfl⟩

/-- There are at most `N` instants inside a source of `N` samples. -/
theorem autoCount_le {st : Int} (N sps : Nat) (h : ¬ st < 0) : autoCount st N sps ≤ N := by
  simp only [autoCount]
  split
  · have := Nat.div_le_self (N - 1 - st.toNat) sps; omega
  · omega

theorem runSampleAuto_ok {dst : Nat} {s t : State} {x : Buffer} (h : runSampleAuto dst s x = .ok t) :
    WritesBuffer dst s t := by
  simp only [runSampleAuto] at h
  split at h
  · simp at h
  split at h
  · simp at h
  next hst =>
  split at h
  · simp at h
  next hc =>
  cases h
  exact ⟨_, fits_cplx (by have := autoCount_le x.len.toNat s.sps.toNat hst; omega), rfl⟩

/-- A decision has as many bits as the order. -/
theorem length_demapBits (draw order i : Nat) (points : List ConstEntry) (x : Cplx) :
    (demapBits draw order i points x).length = order := by
  simp only [demapBits]
  split
  · next h => simp [h]
  · split
    · next h => simp [h]
    · simp [indexBits]

/-- Lists of one length, put together. -/
theorem length_flatten_tabulate {α : Type} (n c : Nat) (f : Nat → List α) (h : ∀ i, (f i).length = c) :
    (tabulate n f).flatten.length = n * c := by
  have e : List.length ∘ f = fun _ => c := funext h
  simp [tabulate, List.length_flatten, e]

/-- Element `k` of lists of one length, put together. -/
theorem getElem?_flatten_tabulate {α : Type} (n c : Nat) (f : Nat → List α) (h : ∀ i, (f i).length = c) :
    ∀ k, k < n * c → (tabulate n f).flatten[k]? = (f (k / c))[k % c]? := by
  induction n with
  | zero => intro k hk; omega
  | succ n ih =>
    intro k hk
    have e : tabulate (n + 1) f = tabulate n f ++ [f n] := by simp [tabulate, List.range_succ]
    have hl := length_flatten_tabulate n c f h
    rw [e, List.flatten_append]
    by_cases hk2 : k < n * c
    · rw [List.getElem?_append_left (by omega), ih k hk2]
    · have hdiv : k / c = n := by apply Nat.div_eq_of_lt_le <;> omega
      have hmod : k % c = k - n * c := by
        have := Nat.div_add_mod k c
        rw [hdiv, Nat.mul_comm] at this; omega
      rw [List.getElem?_append_right (by omega), hl, hdiv, hmod]
      simp

theorem runDemap_ok {dst : Nat} {s t : State} {x : Buffer} (h : runDemap dst s x = .ok t) : WritesBuffer dst s t := by
  simp only [runDemap] at h
  split at h
  · simp at h
  split at h
  · simp at h
  next hc =>
  cases h
  refine ⟨_, fits_bits ?_, rfl⟩
  rw [length_flatten_tabulate _ _ _ fun i => length_demapBits _ _ _ _ _]
  omega

/-! `exec`. -/

theorem finish_outcome (opc : BitVec 8) (s : State) (r : Except ErrCode State) {W : State → Prop}
    (h : ∀ t, r = .ok t → W t) :
    (∃ e, finish opc s r = .next (s.raiseError opc e)) ∨ ∃ t, W t ∧ finish opc s r = .next (t.complete opc) := by
  cases r with
  | ok t => exact .inr ⟨t, h t rfl, rfl⟩
  | error e => exact .inl ⟨e, rfl⟩

theorem dataCommand_outcome (opc : BitVec 8) (dst src : Nat) (s : State) (body : Buffer → Except ErrCode State)
    {W : State → Prop} (h : ∀ x t, body x = .ok t → W t) :
    (∃ e, dataCommand opc dst src s body = .next (s.raiseError opc e))
      ∨ ∃ t, W t ∧ dataCommand opc dst src s body = .next (t.complete opc) := by
  rcases dataCommand_cases opc dst src s body with ⟨_, e⟩ | ⟨_, _, _, e⟩ | ⟨_, _, _, e⟩
  · exact .inl ⟨_, e⟩
  · exact .inl ⟨_, e⟩
  · rw [e]; exact finish_outcome opc s _ (h _)

/-- Every command completes with an error and no writes, or with the writes of its rule. -/
theorem exec_outcome (i : Instr) (s : State) :
    (∃ e, exec i s = .next (s.raiseError i.opcode e))
      ∨ ∃ r, CommandWrites i s r ∧ exec i s = .next (r.complete i.opcode) := by
  cases i with
  | nop => exact .inr ⟨s, rfl, rfl⟩
  | config =>
    simp only [exec, execConfig]
    refine finish_outcome _ s _ fun t h => ?_
    split at h
    · next d hd => cases h; exact ⟨d, hd, rfl⟩
    · cases h
  | map d x => exact dataCommand_outcome _ d x s _ fun _ _ => runMap_ok
  | comb d x => exact dataCommand_outcome _ d x s _ fun _ _ => runComb_ok
  | rrc d x => exact dataCommand_outcome _ d x s _ fun _ _ => runRrc_ok
  | upconv d x => exact dataCommand_outcome _ d x s _ fun _ _ => runUpconv_ok
  | awgn d x => exact dataCommand_outcome _ d x s _ fun _ _ => runAwgn_ok
  | fadeRay d x => exact dataCommand_outcome _ d x s _ fun _ _ => runFadeRay_ok
  | fadeRic d x => exact dataCommand_outcome _ d x s _ fun _ _ => runFadeRic_ok
  | fofs d x => exact dataCommand_outcome _ d x s _ fun _ _ => runPhasors_ok
  | fdrift d x => exact dataCommand_outcome _ d x s _ fun _ _ => runPhasors_ok
  | fdelay d x => exact dataCommand_outcome _ d x s _ fun _ _ => runFdelay_ok
  | downconv d x => exact dataCommand_outcome _ d x s _ fun _ _ => runDownconv_ok
  | matchFull d x => exact dataCommand_outcome _ d x s _ fun _ _ => runMatch_ok fun _ => Nat.le_refl _
  | matchTrim d x => exact dataCommand_outcome _ d x s _ fun _ _ => runMatch_ok fun _ => Nat.sub_le _ _
  | sample d x => exact dataCommand_outcome _ d x s _ fun _ _ => runSample_ok
  | sampleAuto d x => exact dataCommand_outcome _ d x s _ fun _ _ => runSampleAuto_ok
  | demap d x => exact dataCommand_outcome _ d x s _ fun _ _ => runDemap_ok

end Sys2Proof.Machine
end

