-- ==== Sys2Proof/Laws/Decode.lean ====
section
/-! SUPPORT. The fields of a command word as numbers, and when each form of decoding answers a command. -/

namespace Sys2Proof

theorem toNat_fieldOpc (c : Word) : (fieldOpc c).toNat = c.toNat % 2 ^ 8 := by simp [fieldOpc]

theorem fieldSrc_eq (c : Word) : fieldSrc c = c.toNat / 2 ^ 8 % 2 ^ 4 := by
  simp [fieldSrc, Nat.shiftRight_eq_div_pow]

theorem fieldDst_eq (c : Word) : fieldDst c = c.toNat / 2 ^ 12 % 2 ^ 4 := by
  simp [fieldDst, Nat.shiftRight_eq_div_pow]

theorem toNat_fieldFlags (c : Word) : (fieldFlags c).toNat = c.toNat / 2 ^ 16 % 2 ^ 8 := by
  simp [fieldFlags, Nat.shiftRight_eq_div_pow]

theorem toNat_fieldRsv (c : Word) : (fieldRsv c).toNat = c.toNat / 2 ^ 24 := by
  have := c.isLt
  simp [fieldRsv, Nat.shiftRight_eq_div_pow]; omega

theorem fieldFlags_eq_iff (c : Word) (k : BitVec 8) : fieldFlags c = k ↔ c.toNat / 2 ^ 16 % 2 ^ 8 = k.toNat := by
  rw [← toNat_fieldFlags]; exact ⟨fun h => by rw [h], fun h => BitVec.eq_of_toNat_eq h⟩

theorem fieldRsv_eq_iff (c : Word) (k : BitVec 40) : fieldRsv c = k ↔ c.toNat / 2 ^ 24 = k.toNat := by
  rw [← toNat_fieldRsv]; exact ⟨fun h => by rw [h], fun h => BitVec.eq_of_toNat_eq h⟩

/-- A control command answers itself exactly where SRC, DST and FLAGS are 0. -/
theorem decodeControl_eq_ok (c : Word) (i0 i : Instr) :
    decodeControl c i0 = .ok i ↔ fieldFlags c = 0#8 ∧ fieldSrc c = 0 ∧ fieldDst c = 0 ∧ i0 = i := by
  unfold decodeControl; split_ifs <;> simp_all; tauto

/-- A plain data command answers itself exactly where FLAGS is 0. -/
theorem decodePlain_eq_ok (c : Word) (i0 : (dst src : Nat) → Instr) (i : Instr) :
    decodePlain c i0 = .ok i ↔ fieldFlags c = 0#8 ∧ i0 (fieldDst c) (fieldSrc c) = i := by
  unfold decodePlain; split_ifs <;> simp_all

/-- A command with a variant bit answers the variant its FLAGS name. -/
theorem decodeVariant_eq_ok (c : Word) (i0 i1 : (dst src : Nat) → Instr) (i : Instr) :
    decodeVariant c i0 i1 = .ok i ↔ (fieldFlags c = 0#8 ∧ i0 (fieldDst c) (fieldSrc c) = i)
      ∨ (fieldFlags c = 1#8 ∧ i1 (fieldDst c) (fieldSrc c) = i) := by
  unfold decodeVariant; split_ifs <;> simp_all

end Sys2Proof
end

