-- ==== Sys2Proof/Laws/Rounding.lean ====
section
/-! SUPPORT. What rounding makes: the value of a word from its fields, the integer roundings behind RN, and that a rounded
significand in units of the binade makes RN. -/

namespace Sys2Proof.Machine

/-! Words and their values. -/

/-- The value of `± m · 2^(e - 1075)`. -/
theorem F64.toRat_of_val {x : Word} {s : Bool} {m e : Nat} (h : F64.val x = .fin s m e) :
    (F64.toRat x : ℝ) = (if s then -1 else 1) * ((m : ℝ) * 2 ^ ((e : ℤ) - 1075)) := by
  have key : ((if 1075 ≤ e then ((m * 2 ^ (e - 1075) : Nat) : ℚ) else mkRat m (2 ^ (1075 - e)) : ℚ) : ℝ)
      = (m : ℝ) * 2 ^ ((e : ℤ) - 1075) := by
    split
    · next h1 =>
      obtain ⟨k, rfl⟩ := Nat.exists_eq_add_of_le h1
      rw [show ((1075 + k : ℕ) : ℤ) - 1075 = (k : ℤ) by push_cast; ring, zpow_natCast]
      simp
    · next h1 =>
      obtain ⟨k, hk⟩ := Nat.exists_eq_add_of_lt (not_le.1 h1)
      rw [show 1075 - e = k + 1 by omega, Rat.mkRat_eq_div, show (e : ℤ) - 1075 = -((k + 1 : ℕ) : ℤ) by omega, zpow_neg,
        zpow_natCast]
      push_cast; rfl
  unfold F64.toRat
  rw [h]
  dsimp only
  cases s
  · simp only [Bool.false_eq_true, if_false, one_mul]; exact key
  · simp only [if_true]; rw [← key]; push_cast; ring

/-- The fields of a word from its sign and its lower 63 bits. -/
theorem F64.pack_fields (neg : Bool) {b : Nat} (hb : b < 2 ^ 63) :
    F64.sign (F64.pack neg b) = neg ∧ F64.expo (F64.pack neg b) = b / 2 ^ 52 ∧ F64.frac (F64.pack neg b) = b % 2 ^ 52
      ∧ (F64.pack neg b).getLsbD 0 = decide (b % 2 = 1) := by
  have ht : (F64.pack neg b).toNat = (if neg then 2 ^ 63 else 0) + b := by
    unfold F64.pack; rw [BitVec.toNat_ofNat]; apply Nat.mod_eq_of_lt; split <;> omega
  refine ⟨?_, ?_, ?_, ?_⟩
  · unfold F64.sign; rw [BitVec.getLsbD, Nat.testBit_eq_decide_div_mod_eq, ht]
    cases neg <;> simp <;> omega
  · unfold F64.expo; rw [BitVec.extractLsb'_toNat, ht, Nat.shiftRight_eq_div_pow]
    cases neg <;> simp <;> omega
  · unfold F64.frac; rw [BitVec.extractLsb'_toNat, ht, Nat.shiftRight_eq_div_pow]
    cases neg <;> simp; omega
  · rw [BitVec.getLsbD, Nat.testBit_eq_decide_div_mod_eq, ht]
    cases neg <;> simp; omega

/-- The parts of a finite word. -/
theorem F64.val_of_finite {x : Word} (h : F64.isFinite x = true) :
    ∃ m e : Nat, F64.val x = .fin (F64.sign x) m e ∧ 1 ≤ e ∧ e ≤ 2046 ∧ m < 2 ^ 53 ∧ (1 < e → 2 ^ 52 ≤ m) := by
  have h1 : F64.expo x ≠ 0x7FF := by simpa [F64.isFinite] using h
  have h2 : F64.expo x < 2 ^ 11 := by unfold F64.expo; exact BitVec.isLt _
  have h3 : F64.frac x < 2 ^ 52 := by unfold F64.frac; exact BitVec.isLt _
  unfold F64.val
  rw [if_neg h1]
  split
  · exact ⟨_, _, rfl, by omega, by omega, by omega, by omega⟩
  · exact ⟨_, _, rfl, by omega, by omega, by omega, by omega⟩

/-- A word made of a rounded significand, where it does not overflow. -/
theorem F64.ofUlps_finite (neg : Bool) {m : Nat} {q : ℤ} (hq : -1074 ≤ q) (hm : m ≤ 2 ^ 53) (hn : -1074 < q → 2 ^ 52 ≤ m)
    (hb : (q + 1074).toNat * 2 ^ 52 + m < 0x7FF * 2 ^ 52) :
    F64.isFinite (F64.ofUlps neg m q) = true ∧ F64.sign (F64.ofUlps neg m q) = neg
      ∧ (F64.ofUlps neg m q).getLsbD 0 = decide (m % 2 = 1)
      ∧ (F64.toRat (F64.ofUlps neg m q) : ℝ) = (if neg then -1 else 1) * ((m : ℝ) * 2 ^ q) := by
  unfold F64.ofUlps
  dsimp only
  rw [if_neg (by omega)]
  obtain ⟨k, hk⟩ : ∃ k : Nat, q = (k : ℤ) - 1074 := ⟨(q + 1074).toNat, by omega⟩
  have hk' : (q + 1074).toNat = k := by omega
  rw [hk'] at hb ⊢
  obtain ⟨f1, f2, f3, f4⟩ := F64.pack_fields neg (b := k * 2 ^ 52 + m) (by omega)
  generalize F64.pack neg (k * 2 ^ 52 + m) = w at *
  have he : F64.expo w ≠ 0x7FF := by omega
  refine ⟨by simp [F64.isFinite, he], f1, by rw [f4]; congr 1; simp; omega, ?_⟩
  by_cases hsub : m < 2 ^ 52
  · have hk0 : k = 0 := by by_contra; have := hn (by omega); omega
    subst hk0
    have hv : F64.val w = .fin neg m 1 := by
      unfold F64.val; rw [if_neg he, if_pos (by omega), f1, f3]; congr 1; omega
    rw [F64.toRat_of_val hv, hk]; norm_num
  · rcases Nat.lt_or_ge m (2 ^ 53) with h53 | h53
    · have hv : F64.val w = .fin neg m (k + 1) := by
        unfold F64.val; rw [if_neg he, if_neg (by omega), f1, f3, f2]; congr 1 <;> omega
      rw [F64.toRat_of_val hv, hk]; push_cast; rw [show (k : ℤ) + 1 - 1075 = k - 1074 by ring]
    · have hm : m = 2 ^ 53 := le_antisymm hm h53
      subst hm
      have hv : F64.val w = .fin neg (2 ^ 52) (k + 2) := by
        have g2 : F64.expo w = k + 2 := by omega
        have g3 : F64.frac w = 0 := by omega
        unfold F64.val; rw [if_neg he, if_neg (by omega), f1, g2, g3, Nat.add_zero]
      rw [F64.toRat_of_val hv, hk]; push_cast
      rw [show (k : ℤ) + 2 - 1075 = (k - 1074) + 1 by ring, zpow_add₀ two_ne_zero ((k : ℤ) - 1074) 1, zpow_one]
      generalize (2 : ℝ) ^ ((k : ℤ) - 1074) = z
      cases neg <;> simp <;> ring

/-- A finite word is a multiple of the unit of any binade it is not below. -/
theorem F64.multiple_of_finite {v : Word} (h : F64.isFinite v = true) {q : ℤ} (hq : -1074 ≤ q)
    (hbig : -1074 < q → (2 : ℝ) ^ (q + 52) ≤ |(F64.toRat v : ℝ)|) : ∃ k : ℤ, (F64.toRat v : ℝ) = k * 2 ^ q := by
  obtain ⟨m, e, hv, he1, he2, hm, hn⟩ := F64.val_of_finite h
  have hval := F64.toRat_of_val hv
  have hqe : q ≤ (e : ℤ) - 1075 := by
    by_contra hc
    have hc := not_le.1 hc
    have h1 := hbig (by omega)
    rw [hval, abs_mul, abs_mul, abs_of_pos (show (0 : ℝ) < 2 ^ ((e : ℤ) - 1075) by positivity), Nat.abs_cast] at h1
    have hs : |(if F64.sign v then (-1 : ℝ) else 1)| = 1 := by split <;> norm_num
    rw [hs, one_mul] at h1
    have hm' : (m : ℝ) < 2 ^ (53 : ℤ) := by exact_mod_cast hm
    have h2 : (m : ℝ) * 2 ^ ((e : ℤ) - 1075) < 2 ^ (53 : ℤ) * 2 ^ ((e : ℤ) - 1075) := by gcongr
    rw [← zpow_add₀ two_ne_zero] at h2
    have h3 : (2 : ℝ) ^ (53 + ((e : ℤ) - 1075)) ≤ 2 ^ (q + 52) := zpow_le_zpow_right₀ (by norm_num) (by omega)
    linarith
  obtain ⟨j, hj⟩ := Int.le.dest hqe
  refine ⟨(if F64.sign v then -1 else 1) * (m * 2 ^ j), ?_⟩
  rw [hval, ← hj, zpow_add₀ two_ne_zero, zpow_natCast]
  push_cast
  split <;> ring

/-! Rounding to an integer. -/

theorem RoundsTo.far {y : ℝ} {m : Nat} (h : RoundsTo y m) (k : ℤ) (hk : k ≠ m) :
    |(m : ℝ) - y| ≤ |(k : ℝ) - y| ∧ (|(k : ℝ) - y| = |(m : ℝ) - y| → m % 2 = 0) := by
  have h1 : (1 : ℝ) ≤ |(k : ℝ) - m| := by
    have : (1 : ℤ) ≤ |k - m| := Int.one_le_abs (sub_ne_zero.2 hk)
    exact_mod_cast this
  have h2 := abs_sub_le (k : ℝ) y m
  rw [abs_sub_comm y (m : ℝ)] at h2
  have h3 := h.1
  exact ⟨by linarith, fun e => h.2 (by linarith)⟩

theorem RoundsTo.near {y : ℝ} {m : Nat} (h : RoundsTo y m) (k : ℤ) : |(m : ℝ) - y| ≤ |(k : ℝ) - y| := by
  by_cases hk : k = m
  · rw [hk]; simp
  · exact (h.far k hk).1

/-- `ratLog2 n d` is the floor of the binary logarithm of `n / d`. -/
theorem ratLog2_spec {n d : Nat} (hn : 0 < n) (hd : 0 < d) :
    (2 : ℝ) ^ ratLog2 n d ≤ (n : ℝ) / d ∧ (n : ℝ) / d < 2 ^ (ratLog2 n d + 1) := by
  have hd' : (0 : ℝ) < d := by exact_mod_cast hd
  have n1 : (2 : ℝ) ^ (Nat.log2 n : ℤ) ≤ n := by
    rw [zpow_natCast]; exact_mod_cast Nat.log2_self_le hn.ne'
  have n2 : (n : ℝ) < 2 ^ ((Nat.log2 n : ℤ) + 1) := by exact_mod_cast @Nat.lt_log2_self n
  have d1 : (2 : ℝ) ^ (Nat.log2 d : ℤ) ≤ d := by
    rw [zpow_natCast]; exact_mod_cast Nat.log2_self_le hd.ne'
  have d2 : (d : ℝ) < 2 ^ ((Nat.log2 d : ℤ) + 1) := by exact_mod_cast @Nat.lt_log2_self d
  obtain ⟨k, hk⟩ : ∃ k : ℤ, k = (Nat.log2 n : ℤ) - (Nat.log2 d : ℤ) := ⟨_, rfl⟩
  have up : (n : ℝ) / d < 2 ^ (k + 1) := by
    rw [div_lt_iff₀ hd']
    refine n2.trans_le ?_
    calc (2 : ℝ) ^ ((Nat.log2 n : ℤ) + 1) = 2 ^ (k + 1) * 2 ^ (Nat.log2 d : ℤ) := by
          rw [← zpow_add₀ two_ne_zero]; congr 1; omega
      _ ≤ _ := by gcongr
  have down : (2 : ℝ) ^ (k - 1) ≤ (n : ℝ) / d := by
    rw [le_div_iff₀ hd']
    refine le_trans ?_ n1
    calc (2 : ℝ) ^ (k - 1) * d ≤ 2 ^ (k - 1) * 2 ^ ((Nat.log2 d : ℤ) + 1) := by gcongr
      _ = _ := by rw [← zpow_add₀ two_ne_zero]; congr 1; omega
  have hge : (if 0 ≤ k then decide (d * 2 ^ k.toNat ≤ n) else decide (d ≤ n * 2 ^ (-k).toNat)) = true
      ↔ (2 : ℝ) ^ k ≤ (n : ℝ) / d := by
    rw [le_div_iff₀ hd']
    split
    · next h =>
      lift k to ℕ using h
      rw [decide_eq_true_iff, zpow_natCast, Int.toNat_natCast, mul_comm d]
      exact_mod_cast Iff.rfl
    · next h =>
      obtain ⟨j, rfl⟩ : ∃ j : ℕ, k = -j := ⟨(-k).toNat, by omega⟩
      rw [decide_eq_true_iff, neg_neg, Int.toNat_natCast, zpow_neg, zpow_natCast, inv_mul_le_iff₀ (by positivity),
        mul_comm ((2 : ℝ) ^ j)]
      exact_mod_cast Iff.rfl
  unfold ratLog2
  dsimp only
  rw [← hk]
  generalize (if 0 ≤ k then decide (d * 2 ^ k.toNat ≤ n) else decide (d ≤ n * 2 ^ (-k).toNat)) = b at *
  cases b
  · have h := mt hge.2 (by simp)
    simp only [Bool.false_eq_true, if_false]
    exact ⟨down, by rw [sub_add_cancel]; exact not_le.1 h⟩
  · simp only [if_true]
    exact ⟨hge.1 rfl, up⟩

theorem roundNearestEven_spec (N : Nat) {D : Nat} (hD : 0 < D) : RoundsTo ((N : ℝ) / D) (roundNearestEven N D) := by
  have hD' : (0 : ℝ) < D := by exact_mod_cast hD
  have hdm := Nat.div_add_mod N D
  have hmod := Nat.mod_lt N hD
  unfold roundNearestEven
  dsimp only
  generalize N / D = m at *
  generalize N % D = r at *
  have e : (N : ℝ) / D = m + r / D := by
    have hN : (N : ℝ) = D * m + r := by exact_mod_cast hdm.symm
    rw [hN]; field_simp
  have hr0 : 0 ≤ (r : ℝ) / D := by positivity
  rw [e]
  split
  · next h =>
    have h1 : (D : ℝ) ≤ 2 * r := by exact_mod_cast (by omega : D ≤ 2 * r)
    have h2 : 1 / 2 ≤ (r : ℝ) / D := by rw [le_div_iff₀ hD']; linarith
    have h3 : (r : ℝ) / D < 1 := by rw [div_lt_one hD']; exact_mod_cast hmod
    have e2 : |((m + 1 : ℕ) : ℝ) - (m + r / D)| = 1 - r / D := by push_cast; rw [abs_of_nonneg (by linarith)]; ring
    refine ⟨by rw [e2]; linarith, fun he => ?_⟩
    rw [e2] at he
    have h4 : (r : ℝ) / D = 1 / 2 := by linarith
    rw [div_eq_iff hD'.ne'] at h4
    have : 2 * r = D := by exact_mod_cast (by linarith : 2 * (r : ℝ) = D)
    omega
  · next h =>
    have h1 : 2 * (r : ℝ) ≤ D := by exact_mod_cast (by omega : 2 * r ≤ D)
    have h2 : (r : ℝ) / D ≤ 1 / 2 := by rw [div_le_iff₀ hD']; linarith
    have e2 : |(m : ℝ) - (m + r / D)| = r / D := by rw [sub_add_cancel_left, abs_neg, abs_of_nonneg hr0]
    refine ⟨by rw [e2]; linarith, fun he => ?_⟩
    rw [e2, div_eq_iff hD'.ne'] at he
    have : 2 * r = D := by exact_mod_cast (by linarith : 2 * (r : ℝ) = D)
    omega

theorem isqrtFuel_spec : ∀ (k n : Nat), n < 4 ^ k →
    isqrtFuel k n * isqrtFuel k n ≤ n ∧ n < (isqrtFuel k n + 1) * (isqrtFuel k n + 1)
  | 0, n, h => by simp at h; subst h; simp [isqrtFuel]
  | k + 1, n, h => by
    have hk : n / 4 < 4 ^ k := by rw [Nat.div_lt_iff_lt_mul (by norm_num)]; rw [pow_succ] at h; exact h
    obtain ⟨h1, h2⟩ := isqrtFuel_spec k (n / 4) hk
    simp only [isqrtFuel]
    set r := isqrtFuel k (n / 4) with hr
    have h3 : 4 * (r * r) ≤ n := by omega
    have h4 : n < 4 * ((r + 1) * (r + 1)) := by omega
    split
    · next hc => exact ⟨hc, by nlinarith⟩
    · next hc => exact ⟨by nlinarith, by omega⟩

/-- `isqrt n` is the floor of the square root of `n`. -/
theorem isqrt_spec (n : Nat) : isqrt n * isqrt n ≤ n ∧ n < (isqrt n + 1) * (isqrt n + 1) := by
  refine isqrtFuel_spec _ n ?_
  have h := @Nat.lt_log2_self n
  refine h.trans_le ?_
  rw [show (4 : Nat) = 2 ^ 2 from rfl, ← pow_mul]
  exact Nat.pow_le_pow_right (by norm_num) (by omega)

theorem roundSqrtUlps_spec (N : Nat) {D : Nat} (hD : 0 < D) :
    RoundsTo (Real.sqrt ((N : ℝ) / D)) (roundSqrtUlps N D) := by
  have hD' : (0 : ℝ) < D := by exact_mod_cast hD
  obtain ⟨h1, h2⟩ := isqrt_spec (N / D)
  unfold roundSqrtUlps
  dsimp only
  generalize isqrt (N / D) = s at *
  set y := Real.sqrt ((N : ℝ) / D) with hy
  have hy0 : 0 ≤ y := Real.sqrt_nonneg _
  have hN : (N : ℝ) = y * y * D := by
    rw [show y * y = N / D from Real.mul_self_sqrt (by positivity)]; field_simp
  have l1 : (s : ℝ) ≤ y := by
    apply Real.le_sqrt_of_sq_le
    rw [le_div_iff₀ hD', sq]
    exact_mod_cast (Nat.le_div_iff_mul_le hD).1 h1
  have l2 : y < s + 1 := by
    rw [hy, Real.sqrt_lt' (by positivity), div_lt_iff₀ hD', sq]
    exact_mod_cast (Nat.div_lt_iff_lt_mul hD).1 h2
  have hyy : 4 * (N : ℝ) = (2 * y) * (2 * y) * D := by rw [hN]; ring
  have lt : (2 * s + 1) * (2 * s + 1) * D < 4 * N ↔ 2 * (s : ℝ) + 1 < 2 * y := by
    rw [mul_self_lt_mul_self_iff (a := 2 * (s : ℝ) + 1) (by positivity) (by positivity), ← mul_lt_mul_iff_left₀ hD',
      ← hyy]
    exact_mod_cast Iff.rfl
  have eq : (2 * s + 1) * (2 * s + 1) * D = 4 * N ↔ 2 * (s : ℝ) + 1 = 2 * y := by
    rw [← mul_self_inj (a := 2 * (s : ℝ) + 1) (by positivity) (by positivity), ← mul_left_inj' hD'.ne', ← hyy]
    exact_mod_cast Iff.rfl
  split
  · next h =>
    rw [lt, eq] at h
    have hge : 2 * (s : ℝ) + 1 ≤ 2 * y := h.elim le_of_lt fun h => h.1.le
    have e2 : |((s + 1 : ℕ) : ℝ) - y| = s + 1 - y := by push_cast; rw [abs_of_nonneg (by linarith)]
    refine ⟨by rw [e2]; linarith, fun he => ?_⟩
    rw [e2] at he
    rcases h with h | h
    · linarith
    · omega
  · next h =>
    rw [lt, eq] at h
    push Not at h
    have hle := h.1
    have e2 : |(s : ℝ) - y| = y - s := by rw [abs_sub_comm, abs_of_nonneg (by linarith)]
    refine ⟨by rw [e2]; linarith, fun he => ?_⟩
    rw [e2] at he
    have := h.2 (by linarith)
    omega

/-! A rounded significand. -/

/-- Where a value rounds to an infinity: the exponent field of its rounded word is full. -/
theorem overflow_iff {y : ℝ} {q : ℤ} {m : Nat} (hq : -1074 ≤ q) (hy53 : y < 2 ^ 53) (hy52 : -1074 < q → 2 ^ 52 ≤ y)
    (hm53 : m ≤ 2 ^ 53) (hm52 : -1074 < q → 2 ^ 52 ≤ m) (hm : RoundsTo y m) :
    y * 2 ^ q < 2 ^ 1024 - 2 ^ 970 ↔ (q + 1074).toNat * 2 ^ 52 + m < 0x7FF * 2 ^ 52 := by
  have hu : (0 : ℝ) < 2 ^ q := by positivity
  have habs := abs_le.1 hm.1
  obtain ⟨T, hT⟩ : ∃ T : ℝ, T = 2 ^ 970 := ⟨_, rfl⟩
  have hT0 : 0 < T := by rw [hT]; positivity
  have h1024 : (2 : ℝ) ^ 1024 = 2 ^ 54 * T := by
    rw [hT]; exact (congrArg ((2 : ℝ) ^ ·) (show 1024 = 54 + 970 by norm_num)).trans (pow_add 2 54 970)
  have hTz : T = (2 : ℝ) ^ (970 : ℤ) := by rw [hT]; exact (zpow_natCast (2 : ℝ) 970).symm
  rw [h1024, ← hT]
  clear h1024 hT
  rcases lt_trichotomy q 971 with h | h | h
  · refine ⟨fun _ => by omega, fun _ => ?_⟩
    have h2 : (2 : ℝ) ^ q ≤ T := by rw [hTz]; exact zpow_le_zpow_right₀ (by norm_num) (by omega)
    have h3 : y * 2 ^ q < 2 ^ 53 * T :=
      lt_of_lt_of_le (mul_lt_mul_of_pos_right hy53 hu) (mul_le_mul_of_nonneg_left h2 (by norm_num))
    clear hTz
    linarith
  · have h2 : (2 : ℝ) ^ q = 2 * T := by
      rw [h, hTz]
      exact (congrArg ((2 : ℝ) ^ ·) (show (971 : ℤ) = 1 + 970 by norm_num)).trans (zpow_one_add₀ two_ne_zero 970)
    rw [h2, show (q + 1074).toNat = 2045 by omega]
    clear hTz
    constructor
    · intro hx
      have hy1 : y < 2 ^ 53 - 1 / 2 := by
        by_contra hc
        have := mul_le_mul_of_nonneg_right (not_lt.1 hc) hT0.le
        nlinarith
      have : m < 2 ^ 53 := by exact_mod_cast (by linarith : (m : ℝ) < 2 ^ 53)
      omega
    · intro hb
      have hm2 : (m : ℝ) + 1 ≤ 2 ^ 53 := by exact_mod_cast (by omega : m + 1 ≤ 2 ^ 53)
      have hy1 : y < 2 ^ 53 - 1 / 2 := by
        rcases lt_or_eq_of_le (show y ≤ (m : ℝ) + 1 / 2 by linarith) with h4 | h4
        · linarith
        · have h6 := hm.2 (by rw [h4]; norm_num)
          have h8 : (m : ℝ) + 2 ≤ 2 ^ 53 := by exact_mod_cast (by omega : m + 2 ≤ 2 ^ 53)
          linarith
      have := mul_lt_mul_of_pos_right hy1 hT0
      nlinarith
  · have h2 : 4 * T ≤ (2 : ℝ) ^ q := by
      have : (4 : ℝ) * T = 2 ^ (972 : ℤ) := by
        rw [hTz, show (4 : ℝ) = 2 ^ (2 : ℤ) by norm_num, ← zpow_add₀ two_ne_zero]; norm_num
      rw [this]; exact zpow_le_zpow_right₀ (by norm_num) (by omega)
    have h3 := hy52 (by omega)
    have h4 := hm52 (by omega)
    have h5 : 2 ^ 52 * (4 * T) ≤ y * 2 ^ q := mul_le_mul h3 h2 (by positivity) (by linarith)
    clear hTz
    generalize (2 : ℝ) ^ q = Q at *
    exact ⟨fun h => by exfalso; linarith, fun h => by exfalso; omega⟩

/-- A significand rounded in units of `2^q`, of a value of the binade of `q`, makes RN of `± y · 2^q`. -/
theorem isRN_ofUlps_units (neg : Bool) {y : ℝ} {q : ℤ} {m : Nat} (hq : -1074 ≤ q) (hy0 : 0 < y) (hy53 : y < 2 ^ 53)
    (hy52 : -1074 < q → 2 ^ 52 ≤ y) (hm : RoundsTo y m) :
    IsRN (if neg then -(y * 2 ^ q) else y * 2 ^ q) (F64.ofUlps neg m q) ∧ F64.sign (F64.ofUlps neg m q) = neg := by
  have hu : (0 : ℝ) < 2 ^ q := by positivity
  have hx : 0 < y * 2 ^ q := mul_pos hy0 hu
  have habs := abs_le.1 hm.1
  have hm53 : m ≤ 2 ^ 53 := Nat.lt_succ_iff.1 (by exact_mod_cast (by linarith : (m : ℝ) < 2 ^ 53 + 1))
  have hm52 : -1074 < q → 2 ^ 52 ≤ m := fun h =>
    Nat.lt_succ_iff.1 (by exact_mod_cast (by have := hy52 h; linarith : (2 : ℝ) ^ 52 < m + 1))
  have hthr := overflow_iff hq hy53 hy52 hm53 hm52 hm
  have hΘ : (0 : ℝ) < 2 ^ 1024 - 2 ^ 970 := sub_pos.2 (pow_lt_pow_right₀ (by norm_num) (by norm_num))
  have hax : |if neg then -(y * 2 ^ q) else y * 2 ^ q| = y * 2 ^ q := by cases neg <;> simp [abs_of_pos hx]
  -- the distance of a value to `± y · 2^q`, in units
  have dist : ∀ z : ℝ, |z * 2 ^ q - (if neg then -(y * 2 ^ q) else y * 2 ^ q)| = |(if neg then -z else z) - y| * 2 ^ q := by
    intro z
    rw [← abs_of_pos hu, ← abs_mul, abs_of_pos hu]
    cases neg
    · simp [sub_mul]
    · simp only [if_true]; rw [← abs_neg]; congr 1; ring
  unfold IsRN
  generalize (2 ^ 1024 - 2 ^ 970 : ℝ) = Θ at *
  by_cases hfin : (q + 1074).toNat * 2 ^ 52 + m < 0x7FF * 2 ^ 52
  · have hxt := hthr.2 hfin
    obtain ⟨g1, g2, g3, g4⟩ := F64.ofUlps_finite neg hq hm53 hm52 hfin
    generalize F64.ofUlps neg m q = w at *
    have hw : |(F64.toRat w : ℝ) - (if neg then -(y * 2 ^ q) else y * 2 ^ q)| = |(m : ℝ) - y| * 2 ^ q := by
      rw [g4, ← mul_assoc, dist]; cases neg <;> simp
    have hmult : ∀ (v : Word) (k : ℤ), (F64.toRat v : ℝ) = k * 2 ^ q →
        |(F64.toRat v : ℝ) - (if neg then -(y * 2 ^ q) else y * 2 ^ q)|
          = |(((if neg then -k else k) : ℤ) : ℝ) - y| * 2 ^ q := by
      intro v k hk
      rw [hk, dist]; cases neg <;> simp
    have hlow : ∀ v : Word, -1074 < q → |(F64.toRat v : ℝ)| < (2 : ℝ) ^ (q + 52) →
        |(m : ℝ) - y| * 2 ^ q < |(F64.toRat v : ℝ) - (if neg then -(y * 2 ^ q) else y * 2 ^ q)| := by
      intro v hq5 hv
      have h52 := hy52 hq5
      have h1 := hm.near (2 ^ 52)
      rw [show ((2 ^ 52 : ℤ) : ℝ) = (2 : ℝ) ^ 52 by norm_cast, abs_sub_comm ((2 : ℝ) ^ 52) y,
        abs_of_nonneg (by linarith : 0 ≤ y - 2 ^ 52)] at h1
      have h2 := abs_sub_abs_le_abs_sub (if neg then -(y * 2 ^ q) else y * 2 ^ q) (F64.toRat v : ℝ)
      rw [hax, abs_sub_comm] at h2
      have h3 : (2 : ℝ) ^ (q + 52) = 2 ^ 52 * 2 ^ q := by
        rw [zpow_add₀ two_ne_zero, mul_comm]; exact congrArg (· * (2 : ℝ) ^ q) (zpow_natCast (2 : ℝ) 52)
      have h4 := mul_le_mul_of_nonneg_right h1 hu.le
      rw [h3] at hv
      rw [sub_mul] at h4
      linarith
    refine ⟨⟨fun _ => ⟨⟨g1, fun v hv => ?_⟩, fun v hv hne heq => ?_⟩, fun h => ?_, fun h => ?_⟩, g2⟩
    · rw [hw]
      by_cases hbig : -1074 < q → (2 : ℝ) ^ (q + 52) ≤ |(F64.toRat v : ℝ)|
      · obtain ⟨k, hk⟩ := F64.multiple_of_finite hv hq hbig
        rw [hmult v k hk]
        exact mul_le_mul_of_nonneg_right (hm.near _) hu.le
      · push Not at hbig
        exact (hlow v hbig.1 hbig.2).le
    · rw [hw] at heq
      by_cases hbig : -1074 < q → (2 : ℝ) ^ (q + 52) ≤ |(F64.toRat v : ℝ)|
      · obtain ⟨k, hk⟩ := F64.multiple_of_finite hv hq hbig
        rw [hmult v k hk] at heq
        have hkm : (if neg then -k else k) ≠ (m : ℤ) := by
          intro h2
          have h3 : (((if neg then -k else k) : ℤ) : ℝ) = (m : ℝ) := by rw [h2]; simp
          have : (F64.toRat v : ℝ) = F64.toRat w := by rw [hk, g4, ← h3]; cases neg <;> simp
          exact hne (by exact_mod_cast this)
        rw [g3, (hm.far _ hkm).2 (mul_right_cancel₀ hu.ne' heq)]; rfl
      · push Not at hbig
        have := hlow v hbig.1 hbig.2
        linarith
    · cases neg <;> simp at h <;> linarith
    · cases neg <;> simp at h <;> linarith
  · have hxt : ¬ y * 2 ^ q < Θ := fun h => hfin (hthr.1 h)
    have hw : F64.ofUlps neg m q = F64.infinity neg := by
      unfold F64.ofUlps; rw [if_pos (by omega)]
    rw [hw]
    refine ⟨⟨fun h => absurd (by rwa [hax] at h) hxt, fun h => ?_, fun h => ?_⟩, (F64.pack_fields neg (by norm_num)).1⟩
    · cases neg
      · rfl
      · simp at h; linarith
    · cases neg
      · simp at h; linarith
      · rfl

/-- A significand rounded in units of the binade of `x` makes RN of `± x`. -/
theorem isRN_ofUlps (neg : Bool) {x : ℝ} {e : ℤ} {m : Nat} (hlo : (2 : ℝ) ^ e ≤ x) (hhi : x < 2 ^ (e + 1))
    (hm : RoundsTo (x / 2 ^ ulpExp e) m) :
    IsRN (if neg then -x else x) (F64.ofUlps neg m (ulpExp e)) ∧ F64.sign (F64.ofUlps neg m (ulpExp e)) = neg := by
  have hx : 0 < x := lt_of_lt_of_le (by positivity) hlo
  obtain ⟨q, hq⟩ : ∃ q, q = ulpExp e := ⟨_, rfl⟩
  rw [← hq] at hm ⊢
  have hq1 : -1074 ≤ q := by rw [hq]; exact le_max_right _ _
  have hq2 : e - 52 ≤ q := by rw [hq]; exact le_max_left _ _
  have hq3 : -1074 < q → q = e - 52 := by intro h; rw [hq] at h ⊢; unfold ulpExp at *; omega
  have hu : (0 : ℝ) < 2 ^ q := by positivity
  have hxy : x / 2 ^ q * 2 ^ q = x := by field_simp
  have key := isRN_ofUlps_units neg hq1 (y := x / 2 ^ q) (by positivity) ?_ ?_ hm
  · rwa [hxy] at key
  · rw [div_lt_iff₀ hu]
    refine hhi.trans_le ?_
    rw [show (2 : ℝ) ^ (53 : ℕ) = 2 ^ (53 : ℤ) by norm_cast, ← zpow_add₀ two_ne_zero]
    exact zpow_le_zpow_right₀ (by norm_num) (by omega)
  · intro h
    rw [le_div_iff₀ hu]
    refine le_trans (le_of_eq ?_) hlo
    rw [show (2 : ℝ) ^ (52 : ℕ) = 2 ^ (52 : ℤ) by norm_cast, ← zpow_add₀ two_ne_zero]
    congr 1; have := hq3 h; omega

end Sys2Proof.Machine
end

