-- ==== Sys2Proof/Laws/Enclosures.lean ====
section
/-! SUPPORT. What each operation over enclosures holds, if its operands hold theirs: one lemma per operation, and one per
power series behind them. -/

namespace Sys2Proof.Machine

/-! Division of integers, rounded down and up. -/

theorem ediv_le_div (a : Int) {b : Int} (hb : 0 < b) : ((a / b : Int) : ℝ) ≤ (a : ℝ) / b := by
  have hb' : (0 : ℝ) < b := by exact_mod_cast hb
  rw [le_div_iff₀ hb']
  exact_mod_cast Int.ediv_mul_le a hb.ne'

theorem div_le_cdiv (a : Int) {b : Int} (hb : 0 < b) : (a : ℝ) / b ≤ (cdiv a b : Int) := by
  have h := ediv_le_div (-a) hb
  unfold cdiv
  push_cast at h ⊢
  rw [neg_div] at h
  linarith

/-! Sums and differences. -/

theorem Iv.holds_zero (p : Nat) : Iv.Holds p ⟨0, 0⟩ 0 := by simp [Iv.Holds]

theorem Iv.holds_one (p : Nat) : Iv.Holds p ⟨2 ^ p, 2 ^ p⟩ 1 := by simp [Iv.Holds]

theorem Iv.Holds.add {p : Nat} {a b : Iv} {x y : ℝ} (ha : a.Holds p x) (hb : b.Holds p y) :
    (Iv.add a b).Holds p (x + y) := by
  obtain ⟨h1, h2⟩ := ha
  obtain ⟨h3, h4⟩ := hb
  constructor <;> simp only [Iv.add] <;> push_cast <;> linarith

theorem Iv.Holds.neg {p : Nat} {a : Iv} {x : ℝ} (ha : a.Holds p x) : (Iv.neg a).Holds p (-x) := by
  obtain ⟨h1, h2⟩ := ha
  constructor <;> simp only [Iv.neg] <;> push_cast <;> linarith

theorem Iv.Holds.sub {p : Nat} {a b : Iv} {x y : ℝ} (ha : a.Holds p x) (hb : b.Holds p y) :
    (Iv.sub a b).Holds p (x - y) := by
  rw [sub_eq_add_neg]; exact ha.add hb.neg

/-- Moving the ends outwards by `d` units lets the value move by as much. -/
theorem Iv.Holds.widen {p : Nat} {a : Iv} {x y : ℝ} {d : Int} (ha : a.Holds p x) (h : |y - x| * 2 ^ p ≤ d) :
    (Iv.widen a d).Holds p y := by
  obtain ⟨h1, h2⟩ := ha
  have hp : (0 : ℝ) < 2 ^ p := by positivity
  have h3 : |(y - x) * 2 ^ p| ≤ d := by rw [abs_mul, abs_of_pos hp]; exact h
  rw [abs_le] at h3
  constructor <;> simp only [Iv.widen] <;> push_cast <;> nlinarith [h3.1, h3.2]

theorem Iv.Holds.congr {p : Nat} {a : Iv} {x y : ℝ} (ha : a.Holds p x) (h : x = y) : a.Holds p y := h ▸ ha

/-! Rationals, products and quotients. -/

theorem Rat.cast_eq_num_div_den (q : ℚ) : (q : ℝ) = (q.num : ℝ) / (q.den : ℝ) := Rat.cast_def q

theorem Iv.holds_ofRat (p : Nat) (q : ℚ) : (Iv.ofRat p q).Holds p q := by
  have hd : (0 : Int) < q.den := by exact_mod_cast q.den_pos
  have e : (q : ℝ) * 2 ^ p = ((q.num * 2 ^ p : Int) : ℝ) / ((q.den : Int) : ℝ) := by
    rw [Rat.cast_eq_num_div_den]; push_cast; ring
  constructor
  · rw [e]; exact ediv_le_div _ hd
  · rw [e]; exact div_le_cdiv _ hd

theorem Iv.Holds.mulRat {p : Nat} {a : Iv} {x : ℝ} (ha : a.Holds p x) (q : ℚ) : (a.mulRat q).Holds p (x * q) := by
  obtain ⟨h1, h2⟩ := ha
  have hd : (0 : Int) < q.den := by exact_mod_cast q.den_pos
  have hd' : (0 : ℝ) < ((q.den : Int) : ℝ) := by exact_mod_cast hd
  have e : x * (q : ℝ) * 2 ^ p = x * 2 ^ p * q.num / ((q.den : Int) : ℝ) := by
    rw [Rat.cast_eq_num_div_den]; push_cast; ring
  rw [Iv.Holds, e]
  unfold Iv.mulRat
  split
  · next hq =>
    have hq' : (0 : ℝ) ≤ q.num := by exact_mod_cast hq
    constructor
    · refine (ediv_le_div _ hd).trans ?_
      push_cast; gcongr
    · refine le_trans ?_ (div_le_cdiv _ hd)
      push_cast; gcongr
  · next hq =>
    have hq' : (q.num : ℝ) ≤ 0 := by exact_mod_cast (not_le.1 hq).le
    constructor
    · refine (ediv_le_div _ hd).trans ?_
      push_cast
      exact div_le_div_of_nonneg_right (mul_le_mul_of_nonpos_right h2 hq') (by exact_mod_cast hd'.le)
    · refine le_trans ?_ (div_le_cdiv _ hd)
      push_cast
      exact div_le_div_of_nonneg_right (mul_le_mul_of_nonpos_right h1 hq') (by exact_mod_cast hd'.le)

/-- A factor between two ends puts a product between two products of ends. -/
theorem min_mul_le_mul_le_max_mul {a b x y : ℝ} (h1 : a ≤ x) (h2 : x ≤ b) :
    min (a * y) (b * y) ≤ x * y ∧ x * y ≤ max (a * y) (b * y) := by
  rcases le_total 0 y with hy | hy
  · exact ⟨(min_le_left _ _).trans (mul_le_mul_of_nonneg_right h1 hy),
      (mul_le_mul_of_nonneg_right h2 hy).trans (le_max_right _ _)⟩
  · exact ⟨(min_le_right _ _).trans (mul_le_mul_of_nonpos_right h2 hy),
      (mul_le_mul_of_nonpos_right h1 hy).trans (le_max_left _ _)⟩

theorem Iv.Holds.mul {p : Nat} {a b : Iv} {x y : ℝ} (ha : a.Holds p x) (hb : b.Holds p y) :
    (Iv.mul p a b).Holds p (x * y) := by
  obtain ⟨h1, h2⟩ := ha
  obtain ⟨h3, h4⟩ := hb
  have hp : (0 : Int) < 2 ^ p := by positivity
  have hp' : (0 : ℝ) < 2 ^ p := by positivity
  obtain ⟨m1, m2⟩ := min_mul_le_mul_le_max_mul (y := y * 2 ^ p) h1 h2
  obtain ⟨l1, l2⟩ := min_mul_le_mul_le_max_mul (y := (a.lo : ℝ)) h3 h4
  obtain ⟨r1, r2⟩ := min_mul_le_mul_le_max_mul (y := (a.hi : ℝ)) h3 h4
  have e : x * y * 2 ^ p = (x * 2 ^ p) * (y * 2 ^ p) / 2 ^ p := by field_simp
  rw [Iv.Holds, e]
  constructor
  · refine (ediv_le_div _ hp).trans ?_
    push_cast
    gcongr
    refine le_trans ?_ m1
    refine le_min ?_ ?_
    · refine (min_le_left _ _).trans (le_trans ?_ (mul_comm (y * 2 ^ p) (a.lo : ℝ)).le)
      rwa [mul_comm (a.lo : ℝ) (b.lo : ℝ), mul_comm (a.lo : ℝ) (b.hi : ℝ)]
    · refine (min_le_right _ _).trans (le_trans ?_ (mul_comm (y * 2 ^ p) (a.hi : ℝ)).le)
      rwa [mul_comm (a.hi : ℝ) (b.lo : ℝ), mul_comm (a.hi : ℝ) (b.hi : ℝ)]
  · refine le_trans ?_ (div_le_cdiv _ hp)
    push_cast
    gcongr
    refine m2.trans ?_
    refine max_le ?_ ?_
    · refine (mul_comm (a.lo : ℝ) (y * 2 ^ p)).le.trans (le_trans ?_ (le_max_left _ _))
      rwa [mul_comm (a.lo : ℝ) (b.lo : ℝ), mul_comm (a.lo : ℝ) (b.hi : ℝ)]
    · refine (mul_comm (a.hi : ℝ) (y * 2 ^ p)).le.trans (le_trans ?_ (le_max_right _ _))
      rwa [mul_comm (a.hi : ℝ) (b.lo : ℝ), mul_comm (a.hi : ℝ) (b.hi : ℝ)]

/-- A quotient by an enclosure of positive values. -/
theorem Iv.Holds.div {p : Nat} {a b : Iv} {x y : ℝ} (ha : a.Holds p x) (hb : b.Holds p y) (hpos : 0 < b.lo) :
    (Iv.div p a b).Holds p (x / y) := by
  obtain ⟨h1, h2⟩ := ha
  obtain ⟨h3, h4⟩ := hb
  have hp' : (0 : ℝ) < 2 ^ p := by positivity
  have hlo : (0 : ℝ) < b.lo := by exact_mod_cast hpos
  have hy : 0 < y * 2 ^ p := hlo.trans_le h3
  have hhi : (0 : ℝ) < b.hi := hy.trans_le h4
  have hhi' : 0 < b.hi := by exact_mod_cast hhi
  have hy0 : y ≠ 0 := by rintro rfl; simp at hy
  have e : x / y * 2 ^ p = x * 2 ^ p * 2 ^ p / (y * 2 ^ p) := by field_simp
  rw [Iv.Holds, e]
  unfold Iv.div
  rw [if_neg (not_le.2 hpos)]
  constructor
  · dsimp only
    split
    · next h =>
      have h' : (0 : ℝ) ≤ a.lo := by exact_mod_cast h
      refine (ediv_le_div _ hhi').trans ?_
      push_cast
      gcongr
      exact mul_nonneg (h'.trans h1) hp'.le
    · next h =>
      have h' : (a.lo : ℝ) ≤ 0 := by exact_mod_cast (not_le.1 h).le
      refine (ediv_le_div _ hpos).trans ?_
      push_cast
      refine le_trans ?_ (div_le_div_of_nonneg_right (mul_le_mul_of_nonneg_right h1 hp'.le) hy.le)
      rw [div_le_div_iff₀ hlo hy]
      exact mul_le_mul_of_nonpos_left h3 (mul_nonpos_of_nonpos_of_nonneg h' hp'.le)
  · dsimp only
    split
    · next h =>
      have h' : (0 : ℝ) ≤ a.hi := by exact_mod_cast h
      refine le_trans ?_ (div_le_cdiv _ hpos)
      push_cast
      gcongr
    · next h =>
      have h' : (a.hi : ℝ) ≤ 0 := by exact_mod_cast (not_le.1 h).le
      refine le_trans ?_ (div_le_cdiv _ hhi')
      push_cast
      refine (div_le_div_of_nonneg_right (mul_le_mul_of_nonneg_right h2 hp'.le) hy.le).trans ?_
      rw [div_le_div_iff₀ hy hhi]
      exact mul_le_mul_of_nonpos_left h4 (mul_nonpos_of_nonpos_of_nonneg h' hp'.le)

/-- A quotient that is not known positive below straddles 0, so it does not round. -/
theorem Iv.div_unknown {p : Nat} (a : Iv) {b : Iv} (h : ¬ 0 < b.lo) :
    (Iv.div p a b).lo < 0 ∧ 0 < (Iv.div p a b).hi := by
  unfold Iv.div
  rw [if_pos (not_lt.1 h)]
  have : (0 : Int) < 2 ^ (p + 1100) := by positivity
  exact ⟨by simp only [Iv.unknown]; omega, this⟩

/-! Square roots. -/

theorem Iv.Holds.sqrt {p : Nat} {a : Iv} {x : ℝ} (ha : a.Holds p x) (hx : 0 ≤ x) :
    (Iv.sqrt p a).Holds p (Real.sqrt x) := by
  obtain ⟨h1, h2⟩ := ha
  have hp' : (0 : ℝ) < 2 ^ p := by positivity
  have e : Real.sqrt x * 2 ^ p = Real.sqrt (x * 2 ^ p * 2 ^ p) := by
    rw [mul_assoc, Real.sqrt_mul hx, Real.sqrt_mul_self hp'.le]
  have hx2 : 0 ≤ x * 2 ^ p := by positivity
  have hlo : ((a.lo.toNat : Nat) : ℝ) ≤ x * 2 ^ p := by
    have : ((a.lo.toNat : Int) : ℝ) = max (a.lo : ℝ) 0 := by rw [Int.toNat_eq_max]; push_cast; rfl
    have h3 : ((a.lo.toNat : Nat) : ℝ) = max (a.lo : ℝ) 0 := by exact_mod_cast this
    rw [h3]; exact max_le h1 hx2
  have hhi : x * 2 ^ p ≤ ((a.hi.toNat : Nat) : ℝ) := by
    have h0 : (0 : ℝ) ≤ a.hi := hx2.trans h2
    have h0' : 0 ≤ a.hi := by exact_mod_cast h0
    have : ((a.hi.toNat : Int) : ℝ) = (a.hi : ℝ) := by rw [Int.toNat_of_nonneg h0']
    have h3 : ((a.hi.toNat : Nat) : ℝ) = (a.hi : ℝ) := by exact_mod_cast this
    rw [h3]; exact h2
  rw [Iv.Holds, e]
  constructor
  · simp only [Iv.sqrt]
    have h := (isqrt_spec (a.lo.toNat * 2 ^ p)).1
    have h' : ((isqrt (a.lo.toNat * 2 ^ p) : Nat) : ℝ) * (isqrt (a.lo.toNat * 2 ^ p) : Nat) ≤ x * 2 ^ p * 2 ^ p := by
      refine le_trans (b := ((a.lo.toNat * 2 ^ p : Nat) : ℝ)) (by exact_mod_cast h) ?_
      push_cast; gcongr
    push_cast
    exact Real.le_sqrt_of_sq_le (by rw [sq]; exact h')
  · simp only [Iv.sqrt]
    have h := (isqrt_spec (a.hi.toNat * 2 ^ p)).2
    push_cast
    refine Real.sqrt_le_iff.2 ⟨by positivity, ?_⟩
    refine le_trans (b := ((a.hi.toNat * 2 ^ p : Nat) : ℝ)) (by push_cast; gcongr) ?_
    rw [sq]
    exact_mod_cast h.le

/-- An enclosure in units of `2^-p` as one with a denominator. -/
theorem Iv.Holds.enc {p : Nat} {a : Iv} {x : ℝ} (ha : a.Holds p x) : (a.enc p).Holds x := by
  refine ⟨by simp [Iv.enc], ?_, ?_⟩ <;> simp only [Iv.enc] <;> push_cast
  · exact ha.1
  · exact ha.2

/-! Power series: what is left out after `j` terms. -/

/-- An alternating series whose terms fall from term `j` on is off by at most term `j` after `j` terms. -/
theorem alternating_remainder {T : ℕ → ℝ} {S : ℝ} (hS : HasSum (fun n => (-1) ^ n * T n) S) (j : ℕ)
    (hT : ∀ i, j ≤ i → T (i + 1) ≤ T i) : |S - ∑ i ∈ Finset.range j, (-1) ^ i * T i| ≤ T j := by
  have anti : Antitone fun i => T (j + i) := antitone_nat_of_succ_le fun i => hT (j + i) (by omega)
  have h1 : HasSum (fun i => (-1) ^ i * T (j + i)) ((-1) ^ j * (S - ∑ i ∈ Finset.range j, (-1) ^ i * T i)) := by
    refine (((hasSum_nat_add_iff' j).2 hS).mul_left ((-1) ^ j)).congr_fun fun i => ?_
    have h : (-1 : ℝ) ^ j * (-1) ^ j = 1 := by rw [← mul_pow]; norm_num
    rw [add_comm i j, pow_add]
    linear_combination (-((-1 : ℝ) ^ i * T (j + i))) * h
  have h2 := h1.tendsto_sum_nat
  have lo := anti.alternating_series_le_tendsto h2 0
  have hi := anti.tendsto_le_alternating_series h2 0
  simp only [Nat.mul_zero, Finset.range_zero, Finset.sum_empty, Nat.zero_add, Finset.sum_range_one, pow_zero, one_mul,
    Nat.add_zero] at lo hi
  have e : |S - ∑ i ∈ Finset.range j, (-1) ^ i * T i| = |(-1) ^ j * (S - ∑ i ∈ Finset.range j, (-1) ^ i * T i)| := by
    rw [abs_mul, abs_pow, abs_neg, abs_one, one_pow, one_mul]
  rw [e, abs_of_nonneg lo]
  exact hi

/-- A series of positive terms that at least halve from term `j` on is at most twice term `j` above its first `j` terms. -/
theorem halving_remainder {T : ℕ → ℝ} {S : ℝ} (hS : HasSum T S) (h0 : ∀ i, 0 ≤ T i) (j : ℕ)
    (hT : ∀ i, j ≤ i → T (i + 1) ≤ T i / 2) :
    ∑ i ∈ Finset.range j, T i ≤ S ∧ S ≤ ∑ i ∈ Finset.range j, T i + 2 * T j := by
  have h1 := (hasSum_nat_add_iff' j).2 hS
  have bound : ∀ i, T (i + j) ≤ T j * (1 / 2) ^ i := by
    intro i
    induction i with
    | zero => simp
    | succ i ih =>
      have h := hT (i + j) (by omega)
      rw [show i + 1 + j = i + j + 1 by omega, pow_succ]
      linarith
  have h2 := hasSum_le bound h1 (hasSum_geometric_two.mul_left (T j))
  have h3 := h1.nonneg fun i => h0 (i + j)
  constructor <;> linarith

/-- The alternating series of a cosine or a sinc: `T` are its terms without their signs, `q` the square of the argument. -/
theorem altSeriesFrom_holds {p : Nat} {x2 : Iv} {c : Nat} {q : ℝ} {T : ℕ → ℝ} {S : ℝ} (hx : x2.Holds p q)
    (hlo : 0 ≤ x2.lo) (hq0 : 0 ≤ q) (hq : q ≤ 12)
    (hT : ∀ i : ℕ, T (i + 1) = T i * q / ((2 * i + 1 + c) * (2 * i + 2 + c))) (h0 : ∀ i, 0 ≤ T i)
    (hS : HasSum (fun n => (-1) ^ n * T n) S) :
    ∀ (fuel j : Nat) (t acc : Iv), (1 ≤ j ∨ (0 < fuel ∧ 1 < t.hi)) → t.Holds p (T j) → 0 ≤ t.lo →
      acc.Holds p (∑ i ∈ Finset.range j, (-1) ^ i * T i) → (altSeriesFrom p x2 c fuel j t acc).Holds p S := by
  have hp : (0 : ℝ) < 2 ^ p := by positivity
  have falls : ∀ i, 1 ≤ i → T (i + 1) ≤ T i := by
    intro i hi
    have hi' : (1 : ℝ) ≤ i := by exact_mod_cast hi
    rw [hT, div_le_iff₀ (by positivity)]
    have hc : (0 : ℝ) ≤ c := by positivity
    exact mul_le_mul_of_nonneg_left (by nlinarith) (h0 i)
  have stop : ∀ j (t acc : Iv) (d : Int), 1 ≤ j → t.Holds p (T j) → t.hi ≤ d →
      acc.Holds p (∑ i ∈ Finset.range j, (-1) ^ i * T i) → (acc.widen d).Holds p S := by
    intro j t acc d hj ht hd hacc
    refine hacc.widen ?_
    have h := alternating_remainder hS j fun i hi => falls i (by omega)
    have hd' : (t.hi : ℝ) ≤ d := by exact_mod_cast hd
    exact ((mul_le_mul_of_nonneg_right h hp.le).trans ht.2).trans hd'
  intro fuel
  induction fuel with
  | zero =>
    intro j t acc hj ht htlo hacc
    exact stop j t acc t.hi (by omega) ht le_rfl hacc
  | succ k ih =>
    intro j t acc hj ht htlo hacc
    simp only [altSeriesFrom]
    split
    · next h1 => exact stop j t acc 1 (by omega) ht h1 hacc
    · next h1 =>
      have hdN : 0 < (2 * j + 1 + c) * (2 * j + 2 + c) * 2 ^ p := by positivity
      have hd : (0 : Int) < (((2 * j + 1 + c) * (2 * j + 2 + c) * 2 ^ p : Nat) : Int) := by exact_mod_cast hdN
      have hdr : (0 : ℝ) < (2 * (j : ℝ) + 1 + c) * (2 * j + 2 + c) * 2 ^ p := by positivity
      have hthi : (0 : ℝ) ≤ t.hi := (mul_nonneg (h0 j) hp.le).trans ht.2
      have hxhi : (0 : ℝ) ≤ x2.hi := (mul_nonneg hq0 hp.le).trans hx.2
      have e : T (j + 1) * 2 ^ p
          = (T j * 2 ^ p) * (q * 2 ^ p) / ((2 * (j : ℝ) + 1 + c) * (2 * j + 2 + c) * 2 ^ p) := by
        rw [hT]; field_simp
      have htlo' : (0 : ℝ) ≤ t.lo := by exact_mod_cast htlo
      have hlo' : (0 : ℝ) ≤ x2.lo := by exact_mod_cast hlo
      refine ih (j + 1) _ _ (.inl (by omega)) ⟨?_, ?_⟩ (Int.ediv_nonneg (mul_nonneg htlo hlo) hd.le) ?_
      · rw [e]
        refine (ediv_le_div _ hd).trans ?_
        push_cast
        gcongr
        · exact htlo'.trans ht.1
        · exact ht.1
        · exact hx.1
      · rw [e]
        refine le_trans ?_ (div_le_cdiv _ hd)
        push_cast
        gcongr
        · exact ht.2
        · exact hx.2
      · rw [Finset.sum_range_succ]
        split
        · next hev =>
          have : (-1 : ℝ) ^ j = 1 := Even.neg_one_pow (Nat.even_iff.2 hev)
          rw [this, one_mul]; exact hacc.add ht
        · next hev =>
          have : (-1 : ℝ) ^ j = -1 := Odd.neg_one_pow (Nat.odd_iff.2 (by omega))
          rw [this, neg_one_mul, ← sub_eq_add_neg]; exact hacc.sub ht

/-- The next power of a series in `1/m`. -/
theorem nextPower_holds {p m : Nat} (hm : 0 < m) {pw : Iv} {w : ℝ} (h : pw.Holds p w) (h0 : 0 ≤ pw.lo) :
    (Iv.Holds p ⟨pw.lo / (m * m : Nat), cdiv pw.hi (m * m : Nat)⟩ (w / (m : ℝ) ^ 2)) ∧ 0 ≤ pw.lo / ((m * m : Nat) : Int) := by
  have hd : (0 : Int) < ((m * m : Nat) : Int) := by exact_mod_cast Nat.mul_pos hm hm
  have e : w / (m : ℝ) ^ 2 * 2 ^ p = w * 2 ^ p / (((m * m : Nat) : Int) : ℝ) := by push_cast; ring
  have hd' : (0 : ℝ) < (((m * m : Nat) : Int) : ℝ) := by exact_mod_cast hd
  refine ⟨⟨?_, ?_⟩, Int.ediv_nonneg h0 hd.le⟩
  · rw [e]; exact (ediv_le_div _ hd).trans (div_le_div_of_nonneg_right h.1 hd'.le)
  · rw [e]; exact (div_le_div_of_nonneg_right h.2 hd'.le).trans (div_le_cdiv _ hd)

/-- The term of a series in `1/m` from its power. -/
theorem oddTerm_holds {p j : Nat} {pw : Iv} {w : ℝ} (h : pw.Holds p w) :
    Iv.Holds p ⟨pw.lo / (2 * j + 1 : Nat), cdiv pw.hi (2 * j + 1 : Nat)⟩ (w / (2 * j + 1)) := by
  have hd : (0 : Int) < ((2 * j + 1 : Nat) : Int) := by exact_mod_cast Nat.succ_pos _
  have e : w / (2 * j + 1) * 2 ^ p = w * 2 ^ p / (((2 * j + 1 : Nat) : Int) : ℝ) := by push_cast; ring
  have hd' : (0 : ℝ) < (((2 * j + 1 : Nat) : Int) : ℝ) := by exact_mod_cast hd
  constructor
  · rw [e]; exact (ediv_le_div _ hd).trans (div_le_div_of_nonneg_right h.1 hd'.le)
  · rw [e]; exact (div_le_div_of_nonneg_right h.2 hd'.le).trans (div_le_cdiv _ hd)

/-- The first power of a series in `1/m`. -/
theorem firstPower_holds (p : Nat) {m : Nat} (hm : 0 < m) :
    Iv.Holds p ⟨2 ^ p / (m : Int), cdiv (2 ^ p) m⟩ (1 / (m : ℝ)) ∧ 0 ≤ (2 ^ p / (m : Int) : Int) := by
  have hd : (0 : Int) < (m : Int) := by exact_mod_cast hm
  have e : 1 / (m : ℝ) * 2 ^ p = ((2 ^ p : Int) : ℝ) / ((m : Int) : ℝ) := by push_cast; ring
  refine ⟨⟨?_, ?_⟩, Int.ediv_nonneg (by positivity) hd.le⟩
  · rw [e]; exact ediv_le_div _ hd
  · rw [e]; exact div_le_cdiv _ hd

/-- The series of `atan (1/m)`. -/
theorem atanInvFrom_holds {p m : Nat} (hm : 0 < m) {w : ℕ → ℝ} {S : ℝ} (h0 : ∀ i, 0 ≤ w i)
    (hw : ∀ i, w (i + 1) = w i / (m : ℝ) ^ 2) (hS : HasSum (fun n : ℕ => (-1) ^ n * (w n / (2 * n + 1))) S) :
    ∀ (fuel j : Nat) (pw acc : Iv), pw.Holds p (w j) → 0 ≤ pw.lo →
      acc.Holds p (∑ i ∈ Finset.range j, (-1) ^ i * (w i / (2 * i + 1))) → (atanInvFrom m fuel j pw acc).Holds p S := by
  have hp : (0 : ℝ) < 2 ^ p := by positivity
  have hm' : (1 : ℝ) ≤ (m : ℝ) ^ 2 := by
    have : (1 : ℝ) ≤ m := by exact_mod_cast hm
    nlinarith
  have stop : ∀ j (pw acc : Iv) (d : Int), pw.Holds p (w j) → pw.hi ≤ d →
      acc.Holds p (∑ i ∈ Finset.range j, (-1) ^ i * (w i / (2 * i + 1))) → (acc.widen d).Holds p S := by
    intro j pw acc d hpw hd hacc
    refine hacc.widen ?_
    have h := alternating_remainder (T := fun i : ℕ => w i / (2 * i + 1)) hS j fun i _ => by
      rw [hw]
      have : w i / (m : ℝ) ^ 2 ≤ w i := div_le_self (h0 i) hm'
      have hi : (0 : ℝ) ≤ i := by positivity
      push_cast
      gcongr
      · exact h0 i
      · linarith
    have h2 : w j / (2 * j + 1) ≤ w j := div_le_self (h0 j) (by have : (0 : ℝ) ≤ j := by positivity
                                                                linarith)
    have hd' : (pw.hi : ℝ) ≤ d := by exact_mod_cast hd
    exact ((mul_le_mul_of_nonneg_right (h.trans h2) hp.le).trans hpw.2).trans hd'
  intro fuel
  induction fuel with
  | zero => intro j pw acc hpw _ hacc; exact stop j pw acc pw.hi hpw le_rfl hacc
  | succ k ih =>
    intro j pw acc hpw hlo hacc
    simp only [atanInvFrom]
    split
    · next h1 => exact stop j pw acc 1 hpw h1 hacc
    · obtain ⟨h1, h2⟩ := nextPower_holds hm hpw hlo
      refine ih (j + 1) _ _ (by rw [hw]; exact h1) h2 ?_
      rw [Finset.sum_range_succ]
      split
      · next hev =>
        have : (-1 : ℝ) ^ j = 1 := Even.neg_one_pow (Nat.even_iff.2 hev)
        rw [this, one_mul]; exact hacc.add (oddTerm_holds hpw)
      · next hev =>
        have : (-1 : ℝ) ^ j = -1 := Odd.neg_one_pow (Nat.odd_iff.2 (by omega))
        rw [this, neg_one_mul, ← sub_eq_add_neg]; exact hacc.sub (oddTerm_holds hpw)

/-- Adding twice a term above the sum closes a series of positive terms that at least halve. -/
theorem Iv.Holds.closeAbove {p : Nat} {acc t : Iv} {P S w : ℝ} {d : Int} (hacc : acc.Holds p P) (ht : t.Holds p w)
    (h1 : P ≤ S) (h2 : S ≤ P + 2 * w) (hd : 2 * t.hi ≤ d) : Iv.Holds p ⟨acc.lo, acc.hi + d⟩ S := by
  have hp : (0 : ℝ) < 2 ^ p := by positivity
  have hd' : 2 * (t.hi : ℝ) ≤ d := by exact_mod_cast hd
  obtain ⟨a1, a2⟩ := hacc
  constructor
  · exact a1.trans (mul_le_mul_of_nonneg_right h1 hp.le)
  · have := mul_le_mul_of_nonneg_right h2 hp.le
    push_cast
    nlinarith [ht.2]

/-- The series of `atanh (1/m)`. -/
theorem atanhInvFrom_holds {p m : Nat} (hm : 2 ≤ m) {w : ℕ → ℝ} {S : ℝ} (h0 : ∀ i, 0 ≤ w i)
    (hw : ∀ i, w (i + 1) = w i / (m : ℝ) ^ 2) (hS : HasSum (fun n : ℕ => w n / (2 * n + 1)) S) :
    ∀ (fuel j : Nat) (pw acc : Iv), pw.Holds p (w j) → 0 ≤ pw.lo →
      acc.Holds p (∑ i ∈ Finset.range j, w i / (2 * i + 1)) → (atanhInvFrom m fuel j pw acc).Holds p S := by
  have hm' : (2 : ℝ) ≤ (m : ℝ) ^ 2 := by
    have : (2 : ℝ) ≤ m := by exact_mod_cast hm
    nlinarith
  have stop : ∀ j (pw acc : Iv) (d : Int), pw.Holds p (w j) → 2 * pw.hi ≤ d →
      acc.Holds p (∑ i ∈ Finset.range j, w i / (2 * i + 1)) → Iv.Holds p ⟨acc.lo, acc.hi + d⟩ S := by
    intro j pw acc d hpw hd hacc
    obtain ⟨h1, h2⟩ := halving_remainder hS (fun i => div_nonneg (h0 i) (by positivity)) j fun i _ => by
      have e : w i / (m : ℝ) ^ 2 ≤ w i / 2 := div_le_div_of_nonneg_left (h0 i) (by norm_num) hm'
      have hi : (0 : ℝ) ≤ i := by positivity
      rw [hw, div_right_comm (w i) _ 2]
      refine (div_le_div_of_nonneg_right e (by positivity)).trans ?_
      refine div_le_div_of_nonneg_left (div_nonneg (h0 i) (by norm_num)) (by positivity) ?_
      push_cast
      linarith
    have h3 : w j / (2 * j + 1) ≤ w j := div_le_self (h0 j) (by have : (0 : ℝ) ≤ j := by positivity
                                                                linarith)
    exact hacc.closeAbove hpw h1 (h2.trans (by linarith)) hd
  intro fuel
  induction fuel with
  | zero => intro j pw acc hpw _ hacc; exact stop j pw acc _ hpw le_rfl hacc
  | succ k ih =>
    intro j pw acc hpw hlo hacc
    simp only [atanhInvFrom]
    split
    · next h1 =>
      have h2 : 2 * pw.hi ≤ 2 := by linarith
      exact stop j pw acc 2 hpw h2 hacc
    · obtain ⟨h1, h2⟩ := nextPower_holds (by omega : 0 < m) hpw hlo
      refine ih (j + 1) _ _ (by rw [hw]; exact h1) h2 ?_
      rw [Finset.sum_range_succ]
      exact hacc.add (oddTerm_holds hpw)

/-- The series of the exponential function at `y` in `[0, 2.5]`. -/
theorem expFrom_holds {p : Nat} (hp128 : 128 ≤ p) {x : Iv} {y : ℝ} (hx : x.Holds p y) (hlo : 0 ≤ x.lo) (hy0 : 0 ≤ y)
    (hy : y ≤ 5 / 2) :
    ∀ (fuel j : Nat) (t acc : Iv), (4 ≤ j ∨ 128 ≤ fuel + j) → (j = 0 → 1 < t.hi) → t.Holds p (y ^ j / j.factorial) →
      0 ≤ t.lo → acc.Holds p (∑ i ∈ Finset.range j, y ^ i / i.factorial) → (expFrom p x fuel j t acc).Holds p (Real.exp y) := by
  have hp : (0 : ℝ) < 2 ^ p := by positivity
  have hS : HasSum (fun n : ℕ => y ^ n / n.factorial) (Real.exp y) := by
    rw [Real.exp_eq_exp_ℝ]; exact NormedSpace.expSeries_div_hasSum_exp y
  have hT : ∀ i : ℕ, y ^ (i + 1) / (i + 1).factorial = y ^ i / i.factorial * (y / (i + 1)) := by
    intro i; rw [Nat.factorial_succ, pow_succ]; push_cast; field_simp
  have h0 : ∀ i : ℕ, 0 ≤ y ^ i / i.factorial := fun i => by positivity
  have stop : ∀ (j : Nat) (t acc : Iv) (d : Int), y ≤ ((j : ℝ) + 1) / 2 → t.Holds p (y ^ j / j.factorial) → 2 * t.hi ≤ d →
      acc.Holds p (∑ i ∈ Finset.range j, y ^ i / i.factorial) → Iv.Holds p ⟨acc.lo, acc.hi + d⟩ (Real.exp y) := by
    intro j t acc d hj ht hd hacc
    obtain ⟨h1, h2⟩ := halving_remainder hS h0 j fun i hi => by
      rw [hT, div_eq_mul_one_div (y ^ i / i.factorial) 2]
      refine mul_le_mul_of_nonneg_left ?_ (h0 i)
      have hi' : (j : ℝ) ≤ i := by exact_mod_cast hi
      rw [div_le_div_iff₀ (by positivity) (by norm_num)]
      linarith
    exact hacc.closeAbove ht h1 h2 hd
  intro fuel
  induction fuel with
  | zero =>
    intro j t acc hj _ ht _ hacc
    refine stop j t acc _ ?_ ht le_rfl hacc
    have : (4 : ℝ) ≤ j := by exact_mod_cast (by omega : 4 ≤ j)
    linarith
  | succ k ih =>
    intro j t acc hj hj0 ht htlo hacc
    simp only [expFrom]
    split
    · next h1 =>
      refine stop j t acc 2 ?_ ht (by omega) hacc
      rcases Nat.lt_or_ge j 4 with hj4 | hj4
      · have hj1 : j ≠ 0 := fun h => by have := hj0 h; omega
        have small : y ^ j / j.factorial ≤ 1 / 2 ^ 128 := by
          have h2 : (y ^ j / j.factorial) * 2 ^ p ≤ 1 := ht.2.trans (by exact_mod_cast h1)
          have h3 : (2 : ℝ) ^ 128 ≤ 2 ^ p := pow_le_pow_right₀ (by norm_num) hp128
          rw [le_div_iff₀ (by positivity)]
          exact (mul_le_mul_of_nonneg_left h3 (h0 j)).trans h2
        have y1 : y ≤ 1 := by
          by_contra hc
          have hc' : 1 ≤ y := (not_le.1 hc).le
          have : (1 : ℝ) ≤ y ^ j := one_le_pow₀ hc'
          have f6 : (j.factorial : ℝ) ≤ 6 := by
            have : j.factorial ≤ 6 := by interval_cases j <;> decide
            exact_mod_cast this
          have fpos : (0 : ℝ) < j.factorial := by positivity
          have : 1 / 6 ≤ y ^ j / j.factorial := by
            rw [div_le_div_iff₀ (by norm_num) fpos]; linarith
          norm_num at small
          linarith
        have : (1 : ℝ) ≤ j := by exact_mod_cast Nat.one_le_iff_ne_zero.2 hj1
        linarith
      · have : (4 : ℝ) ≤ j := by exact_mod_cast hj4
        linarith
    · next h1 =>
      have hd : (0 : Int) < (((j + 1) * 2 ^ p : Nat) : Int) := by
        have : 0 < (j + 1) * 2 ^ p := by positivity
        exact_mod_cast this
      have e : y ^ (j + 1) / (j + 1).factorial * 2 ^ p
          = (y ^ j / j.factorial * 2 ^ p) * (y * 2 ^ p) / (((j : ℝ) + 1) * 2 ^ p) := by
        rw [hT]; field_simp
      have htlo' : (0 : ℝ) ≤ t.lo := by exact_mod_cast htlo
      have hlo' : (0 : ℝ) ≤ x.lo := by exact_mod_cast hlo
      have hthi : (0 : ℝ) ≤ t.hi := (mul_nonneg (h0 j) hp.le).trans ht.2
      have hxhi : (0 : ℝ) ≤ x.hi := (mul_nonneg hy0 hp.le).trans hx.2
      refine ih (j + 1) _ _ (by omega) (by omega) ⟨?_, ?_⟩ (Int.ediv_nonneg (mul_nonneg htlo hlo) hd.le) ?_
      · rw [e]
        refine (ediv_le_div _ hd).trans ?_
        push_cast
        gcongr
        · exact ht.1
        · exact hx.1
      · rw [e]
        refine le_trans ?_ (div_le_cdiv _ hd)
        push_cast
        gcongr
        · exact ht.2
        · exact hx.2
      · rw [Finset.sum_range_succ]; exact hacc.add ht

end Sys2Proof.Machine
end

