-- ==== Sys2Proof/Laws/PerInstr.lean ====
section
/-! SUPPORT. The per-instruction family EncodingFields: the fields of every well-formed command's word are the ones its
row of the opcode table gives (30_encoding.md R80, R83). -/

namespace Sys2Proof

/-- A word put together from its fields (R80). -/
def packWord (f : BitVec 8) (d s : BitVec 4) (o : BitVec 8) : Word := 0#40 ++ f ++ d ++ s ++ o

/-- Every bit of the word put together. -/
theorem getLsbD_packWord (f : BitVec 8) (d s : BitVec 4) (o : BitVec 8) (i : Nat) :
    (packWord f d s o).getLsbD i
      = if i < 8 then o.getLsbD i else if i < 12 then s.getLsbD (i - 8) else if i < 16 then d.getLsbD (i - 12)
        else if i < 24 then f.getLsbD (i - 16) else false := by
  have e : (packWord f d s o).getLsbD i = BitVec.getLsbD (w := 40 + 8 + 4 + 4 + 8) (0#40 ++ f ++ d ++ s ++ o) i := rfl
  rw [e, BitVec.getLsbD_append, BitVec.getLsbD_append, BitVec.getLsbD_append, BitVec.getLsbD_append]
  have e1 : i - 8 < 4 ↔ i < 12 := by omega
  have e2 : i - 8 - 4 = i - 12 := by omega
  have e3 : i - 12 < 4 ↔ i < 16 := by omega
  have e4 : i - 12 - 4 = i - 16 := by omega
  have e5 : i - 16 < 8 ↔ i < 24 := by omega
  split <;> [rfl; skip]
  by_cases h1 : i < 12 <;> by_cases h2 : i < 16 <;> by_cases h3 : i < 24 <;> simp [e1, e2, e3, e4, e5, h1, h2, h3]

theorem fieldOpc_packWord (f : BitVec 8) (d s : BitVec 4) (o : BitVec 8) : fieldOpc (packWord f d s o) = o := by
  ext i hi
  simp [fieldOpc, getLsbD_packWord, hi]

theorem fieldSrc_packWord (f : BitVec 8) (d s : BitVec 4) (o : BitVec 8) : fieldSrc (packWord f d s o) = s.toNat := by
  have : (packWord f d s o).extractLsb' 8 4 = s := by
    ext i hi
    have h2 : 8 + i < 12 := by omega
    simp [getLsbD_packWord, h2, hi]
  rw [fieldSrc, this]

theorem fieldDst_packWord (f : BitVec 8) (d s : BitVec 4) (o : BitVec 8) : fieldDst (packWord f d s o) = d.toNat := by
  have : (packWord f d s o).extractLsb' 12 4 = d := by
    ext i hi
    have h1 : ¬ 12 + i < 8 := by omega
    have h2 : 12 + i < 16 := by omega
    simp [getLsbD_packWord, h1, h2, hi]
  rw [fieldDst, this]

theorem fieldFlags_packWord (f : BitVec 8) (d s : BitVec 4) (o : BitVec 8) : fieldFlags (packWord f d s o) = f := by
  ext i hi
  have h1 : ¬ 16 + i < 8 := by omega
  have h2 : ¬ 16 + i < 12 := by omega
  have h3 : 16 + i < 24 := by omega
  simp [fieldFlags, getLsbD_packWord, h1, h2, h3, hi]

theorem fieldRsv_packWord (f : BitVec 8) (d s : BitVec 4) (o : BitVec 8) : fieldRsv (packWord f d s o) = 0#40 := by
  ext i hi
  have h1 : ¬ 24 + i < 8 := by omega
  have h2 : ¬ 24 + i < 12 := by omega
  have h3 : ¬ 24 + i < 16 := by omega
  simp [fieldRsv, getLsbD_packWord, h1, h2, h3]

namespace Laws.EncodingFields

/-- The fields of an instruction's word: RSV 0, OPC and FLAGS as its row gives them, DST and SRC its buffer numbers, or
0 where it has none. -/
def Statement (i : Instr) : Prop :=
  i.wellFormed = true →
    fieldRsv (encode i) = 0#40 ∧ fieldOpc (encode i) = i.opcode ∧ fieldFlags (encode i) = i.flags
      ∧ (fieldDst (encode i), fieldSrc (encode i)) = i.operands.getD (0, 0)

/-- The family's common proof, for any command with its two buffer numbers. -/
theorem of_operands {i : Instr} (d s : Nat) (h : i.operands.getD (0, 0) = (d, s)) (hd : d < 16) (hs : s < 16) :
    Statement i := by
  intro _
  have e : encode i = packWord i.flags (BitVec.ofNat 4 d) (BitVec.ofNat 4 s) i.opcode := by simp [encode, packWord, h]
  rw [e, fieldRsv_packWord, fieldOpc_packWord, fieldFlags_packWord, fieldDst_packWord, fieldSrc_packWord, h]
  simp [Nat.mod_eq_of_lt hd, Nat.mod_eq_of_lt hs]

/-- The family's proof for a data command. -/
theorem of_data {i : Instr} {d s : Nat} (h : i.operands = some (d, s)) : Statement i := by
  intro hw
  simp only [Instr.wellFormed, h, Bool.and_eq_true, decide_eq_true_eq] at hw
  exact of_operands d s (by simp [h]) hw.1 hw.2 (by simp [Instr.wellFormed, h, hw])

theorem nop : Statement .nop := of_operands 0 0 rfl (by decide) (by decide)
theorem config : Statement .config := of_operands 0 0 rfl (by decide) (by decide)
theorem map (d s : Nat) : Statement (.map d s) := of_data rfl
theorem comb (d s : Nat) : Statement (.comb d s) := of_data rfl
theorem rrc (d s : Nat) : Statement (.rrc d s) := of_data rfl
theorem upconv (d s : Nat) : Statement (.upconv d s) := of_data rfl
theorem awgn (d s : Nat) : Statement (.awgn d s) := of_data rfl
theorem fadeRay (d s : Nat) : Statement (.fadeRay d s) := of_data rfl
theorem fadeRic (d s : Nat) : Statement (.fadeRic d s) := of_data rfl
theorem fofs (d s : Nat) : Statement (.fofs d s) := of_data rfl
theorem fdrift (d s : Nat) : Statement (.fdrift d s) := of_data rfl
theorem fdelay (d s : Nat) : Statement (.fdelay d s) := of_data rfl
theorem downconv (d s : Nat) : Statement (.downconv d s) := of_data rfl
theorem matchFull (d s : Nat) : Statement (.matchFull d s) := of_data rfl
theorem matchTrim (d s : Nat) : Statement (.matchTrim d s) := of_data rfl
theorem sample (d s : Nat) : Statement (.sample d s) := of_data rfl
theorem sampleAuto (d s : Nat) : Statement (.sampleAuto d s) := of_data rfl
theorem demap (d s : Nat) : Statement (.demap d s) := of_data rfl

end Laws.EncodingFields

end Sys2Proof
end

