-- ==== Sys2Proof/Laws/Results.lean ====
section
/-! SUPPORT. What a completed command leaves: the destination buffer's elements and the frame, in the terms of Safety; and
what a command reads of its source, in the same terms. -/

namespace Sys2Proof.Machine

/-! Reading the source. -/

theorem State.cplxElems_eq {s : State} {b : Nat} (h : Memory.wf Config.bufWords (s.buf b).words = true) {i : Nat}
    (hi : i < s.count b) (d : Cplx) : ((s.buf b).cplxElems s.draws).getD i d = s.cplxElem b i := by
  rw [Buffer.getD_cplxElems _ _ _ _ h]; exact if_pos hi

theorem State.realElems_eq {s : State} {b : Nat} (h : Memory.wf Config.bufWords (s.buf b).words = true) {i : Nat}
    (hi : i < s.count b) (d : Word) : ((s.buf b).realElems s.draws).getD i d = s.readWord b i := by
  rw [Buffer.getD_realElems _ _ _ _ h]; exact if_pos hi

theorem State.bitElems_eq {s : State} {b : Nat} (h : Memory.wf Config.bufWords (s.buf b).words = true) {i : Nat}
    (hi : i < s.count b) (d : Bool) : ((s.buf b).bitElems s.draws).getD i d = s.bitElem b i := by
  rw [Buffer.getD_bitElems _ _ _ _ h]; exact if_pos hi

/-! Sums. -/

theorem fsum_congr {σ : Site} {lo n : Nat} {f g : Nat → Word} (h : ∀ k, lo ≤ k → k < lo + n → f k = g k) :
    fsum σ lo n f = fsum σ lo n g := by
  unfold fsum
  have aux : ∀ (l : List Nat), (∀ k ∈ l, f k = g k) → ∀ acc : Word,
      l.foldl (fun acc k => fadd (σ.sub k) acc (f k)) acc = l.foldl (fun acc k => fadd (σ.sub k) acc (g k)) acc := by
    intro l
    induction l with
    | nil => intros; rfl
    | cons a r ih =>
      intro hl acc
      simp only [List.foldl_cons]
      rw [hl a (by simp)]
      exact ih (fun k hk => hl k (by simp [hk])) _
  exact aux _ (fun k hk => by have := List.mem_range'_1.1 hk; exact h k this.1 this.2) _

theorem dotFrom_congr {σ : Site} {lo n : Nat} {a a' b b' : Nat → Word}
    (h : ∀ k, lo ≤ k → k < lo + n → a k = a' k ∧ b k = b' k) : dotFrom σ lo n a b = dotFrom σ lo n a' b' :=
  fsum_congr fun k h1 h2 => by rw [(h k h1 h2).1, (h k h1 h2).2]

/-! Results. -/

/-- The destination's words after a result is written and the command completes. -/
theorem State.word_putResult {r : State} {dst : Nat} (y : Samples) (h : dst < Config.nBuf) (opc : BitVec 8) (i : Nat) :
    ((r.putResult dst y).complete opc).word dst i = y.words[i]? := by
  have : ((r.putResult dst y).complete opc).word dst i = (r.setBuf dst y.buffer).word dst i := rfl
  rw [this, State.word_setBuf_same r _ h, Samples.read_buffer]

theorem State.buf_putResult {r : State} {dst : Nat} (y : Samples) (h : dst < Config.nBuf) (opc : BitVec 8) :
    ((r.putResult dst y).complete opc).buf dst = y.buffer := by
  have : ((r.putResult dst y).complete opc).buf dst = (r.setBuf dst y.buffer).buf dst := rfl
  rw [this, State.buf_setBuf_same r _ h]

/-- A written result with the completion is a `CompletesInto`. -/
theorem completesInto_putResult (r : State) (dst : Nat) (y : Samples) (opc : BitVec 8) :
    CompletesInto opc dst r ((r.putResult dst y).complete opc) := by
  refine ⟨rfl, fun b hb => ?_⟩
  have e : ∀ i, ((r.putResult dst y).complete opc).word b i = (r.setBuf dst y.buffer).word b i := fun _ => rfl
  have e2 : ((r.putResult dst y).complete opc).buf b = (r.setBuf dst y.buffer).buf b := rfl
  rw [e2, State.buf_setBuf_other r _ hb]
  exact ⟨rfl, rfl, fun i => by rw [e, State.word_setBuf_other r _ hb]⟩

/-- A CPLX result. -/
theorem holdsCplx_putResult (r : State) {dst n : Nat} (f : Nat → Cplx) (h : dst < Config.nBuf)
    (hn : n < 2 ^ 64) (opc : BitVec 8) :
    ((r.putResult dst (.cplx (tabulate n f))).complete opc).HoldsCplx dst n f := by
  have hw := fun i => State.word_putResult (r := r) (.cplx (tabulate n f)) h opc i
  refine ⟨by rw [State.buf_putResult _ h]; rfl, ?_, fun i hi => ?_, fun i hi => ?_⟩
  · rw [State.count, State.buf_putResult _ h, Samples.buffer_len _ (by simpa [Samples.length] using hn)]
    simp [Samples.length]
  · rw [hw, hw]
    simp only [Samples.words]
    rw [(getElem?_flatMap_cplx _ i).1, (getElem?_flatMap_cplx _ i).2, getElem?_tabulate]
    simp [hi]
  · rw [hw, List.getElem?_eq_none]
    simp only [Samples.words]
    rw [length_flatMap_cplx, length_tabulate]; exact hi

/-- A REAL result. -/
theorem holdsReal_putResult (r : State) {dst n : Nat} (f : Nat → Word) (h : dst < Config.nBuf)
    (hn : n < 2 ^ 64) (opc : BitVec 8) :
    ((r.putResult dst (.real (tabulate n f))).complete opc).HoldsReal dst n f := by
  have hw := fun i => State.word_putResult (r := r) (.real (tabulate n f)) h opc i
  refine ⟨by rw [State.buf_putResult _ h]; rfl, ?_, fun i hi => ?_, fun i hi => ?_⟩
  · rw [State.count, State.buf_putResult _ h, Samples.buffer_len _ (by simpa [Samples.length] using hn)]
    simp [Samples.length]
  · rw [hw]; simp only [Samples.words]; rw [getElem?_tabulate, if_pos hi]
  · rw [hw]; simp only [Samples.words]; rw [getElem?_tabulate, if_neg (Nat.not_lt.2 hi)]

/-- A BITS result. -/
theorem holdsBits_putResult (r : State) {dst n : Nat} (l : List Bool) (f : Nat → Bool) (h : dst < Config.nBuf)
    (hn : n < 2 ^ 64) (hl : l.length = n) (hf : ∀ i, i < n → l[i]? = some (f i)) (opc : BitVec 8) :
    ((r.putResult dst (.bits l)).complete opc).HoldsBits dst n f := by
  have hw := fun i => State.word_putResult (r := r) (.bits l) h opc i
  refine ⟨by rw [State.buf_putResult _ h]; rfl, ?_, fun i hi => ?_, fun i hi => ?_⟩
  · rw [State.count, State.buf_putResult _ h, Samples.buffer_len _ (by simpa [Samples.length, hl] using hn)]
    simp [Samples.length, hl]
  · rw [hw]; simp [Samples.words, hf i hi]
  · rw [hw]; simp [Samples.words, hl, hi]

/-- A CPLX result whose elements are given up to its length. -/
theorem State.HoldsCplx.congr {s : State} {b n : Nat} {f g : Nat → Cplx} (h : s.HoldsCplx b n f)
    (e : ∀ i, i < n → f i = g i) : s.HoldsCplx b n g :=
  ⟨h.1, h.2.1, fun i hi => by rw [← e i hi]; exact h.2.2.1 i hi, h.2.2.2⟩

/-- A REAL result whose elements are given up to its length. -/
theorem State.HoldsReal.congr {s : State} {b n : Nat} {f g : Nat → Word} (h : s.HoldsReal b n f)
    (e : ∀ i, i < n → f i = g i) : s.HoldsReal b n g :=
  ⟨h.1, h.2.1, fun i hi => by rw [← e i hi]; exact h.2.2.1 i hi, h.2.2.2⟩

/-- A BITS result whose elements are given up to its length. -/
theorem State.HoldsBits.congr {s : State} {b n : Nat} {f g : Nat → Bool} (h : s.HoldsBits b n f)
    (e : ∀ i, i < n → f i = g i) : s.HoldsBits b n g :=
  ⟨h.1, h.2.1, fun i hi => by rw [← e i hi]; exact h.2.2.1 i hi, h.2.2.2⟩

end Sys2Proof.Machine
end

