-- ==== Sys2Proof/Tests/Slice0.lean ====
section
/-! SUPPORT. Tests of the model: the refusals of WellFormed, the decoding of written-out words, the vectors of
95_test_vectors.md, and for every obligation with premises a state and operands that meet them. -/

namespace Sys2Proof.Tests

open Sys2Proof.Machine

set_option Elab.async false

/-! WellFormed (30_encoding.md R80, R81). -/

theorem test_wf_refuses_dst_16 : (Instr.map 16 0).wellFormed = false := by decide
theorem test_wf_refuses_src_16 : (Instr.demap 0 16).wellFormed = false := by decide
theorem test_wf_accepts_15 : (Instr.fadeRic 15 15).wellFormed = true ∧ Instr.nop.wellFormed = true := by decide

/-! Decoding: `word = {RSV, FLAGS, DST, SRC, OPC}` written out from R80, R82 and R83. -/

theorem test_decode_control : decode 0x000000#64 = .ok .nop ∧ decode 0x000001#64 = .ok .config := by decide +kernel
theorem test_decode_modulator : decode 0x001010#64 = .ok (.map 1 0) ∧ decode 0x002111#64 = .ok (.comb 2 1)
    ∧ decode 0x003212#64 = .ok (.rrc 3 2) ∧ decode 0x004313#64 = .ok (.upconv 4 3) := by decide +kernel
theorem test_decode_channel : decode 0x005420#64 = .ok (.awgn 5 4) ∧ decode 0x004421#64 = .ok (.fadeRay 4 4)
    ∧ decode 0x015421#64 = .ok (.fadeRic 5 4) ∧ decode 0x005422#64 = .ok (.fofs 5 4)
    ∧ decode 0x00E323#64 = .ok (.fdrift 14 3) ∧ decode 0x000F24#64 = .ok (.fdelay 0 15) := by decide +kernel
theorem test_decode_demodulator : decode 0x005430#64 = .ok (.downconv 5 4) ∧ decode 0x006531#64 = .ok (.matchFull 6 5)
    ∧ decode 0x016531#64 = .ok (.matchTrim 6 5) ∧ decode 0x007632#64 = .ok (.sample 7 6)
    ∧ decode 0x017632#64 = .ok (.sampleAuto 7 6) ∧ decode 0x000733#64 = .ok (.demap 0 7) := by decide +kernel
/-- V-ENC-3 to V-ENC-7. -/
theorem test_decode_illegal : decode 0x025421#64 = .error .reservedFlags ∧ decode 0x011010#64 = .error .reservedFlags
    ∧ decode 0x100001024#64 = .error .reservedBits ∧ decode 0x000100#64 = .error .operandOnControl
    ∧ decode 0x14#64 = .error .reservedOpcode ∧ decode 0x25#64 = .error .reservedOpcode
    ∧ decode 0x34#64 = .error .reservedOpcode ∧ decode 0xFF#64 = .error .reservedOpcode := by decide +kernel
theorem test_table_word : decodeTableWord 64 0x15421 = some (.fadeRic 5 4) ∧ decodeTableWord 64 0x25421 = none := by
  decide +kernel

/-! States for the vectors. -/

/-- The state a step answers. -/
def nextOf (o : Host.Outcome State Fault Refusal) : State :=
  match o with
  | .next t => t
  | _ => State.reset

/-- The RRC kernel of TINY (V-CFG-2). -/
def tinyKern : List Word :=
  [0xBF9A10872694EA48#64, 0xBF8E4270B02FA7E1#64, 0x3F9A3AD12739B096#64, 0x3FB0BA690490F6D0#64,
   0x3FAD3EBDDEA1DF57#64, 0xBF969A3574AFFA02#64, 0xBFC14D0ECA1BFBB1#64, 0xBFC82520D4BB5A56#64,
   0xBFB5AE42E269BCAB#64, 0x3FCA7AC17652BAC3#64, 0x3FE372E1A89DF74A#64, 0x3FEEA0C6A9D72EF4#64,
   0x3FF187B759A03961#64, 0x3FEEA0C6A9D72EF4#64, 0x3FE372E1A89DF74A#64, 0x3FCA7AC17652BAC3#64,
   0xBFB5AE42E269BCAB#64, 0xBFC82520D4BB5A56#64, 0xBFC14D0ECA1BFBB1#64, 0xBF969A3574AFFA02#64,
   0x3FAD3EBDDEA1DF57#64, 0x3FB0BA690490F6D0#64, 0x3F9A3AD12739B096#64, 0xBF8E4270B02FA7E1#64]

/-- The reset state with a valid configuration of a given order and, beside it, the values of TINY (95 §0); buffer 0 holds
`y`. LPF holds its first two taps. -/
def tiny (order : Nat) (y : Samples) : State :=
  { State.reset with
    status := { Status.reset with cfgValid := true }
    scheme := 0#64, bitRate := 5#64, carrierHz := 1#64
    order := BitVec.ofNat 64 order, fs := 20#64, sps := 4#64, rrcLen := 24#64, totalDelay := 74#64
    sScale := 0x3FF0000000000000#64, kernE := 0x400FFAC5A9A3272C#64
    kern := tinyKern, lpf := [0x3F37949F45B69BBB#64, 0x3F3FCB820ED44E02#64] }.putResult 0 y

/-- The words of the default QAM16 table (V-MAP-5). -/
def table16 : Memory ConstEntry :=
  Memory.ofList 0 ([(-3, -3), (-3, -1), (-3, 3), (-3, 1), (-1, -3), (-1, -1), (-1, 3), (-1, 1),
    (3, -3), (3, -1), (3, 3), (3, 1), (1, -3), (1, -1), (1, 3), (1, 1)].map fun p =>
      (⟨BitVec.ofInt 32 p.1, BitVec.ofInt 32 p.2⟩ : ConstEntry))

/-- `tiny` at order 4 with S = √10 and the default table. -/
def qam16 (y : Samples) : State := { tiny 4 y with sScale := 0x40094C583ADA5B53#64, consts := table16 }

/-- Buffer 1 after a command. -/
def result (i : Instr) (s : State) : Buffer := (nextOf (exec i s)).buf 1

/-- The registers that CONFIG reads, after reset. -/
def link (scheme bitRate carrier : Nat) : State :=
  { State.reset with
    scheme := BitVec.ofNat 64 scheme, bitRate := BitVec.ofNat 64 bitRate, carrierHz := BitVec.ofNat 64 carrier }

/-- 1.0 -/
abbrev p1 : Word := 0x3FF0000000000000#64
/-- -1.0 -/
abbrev m1 : Word := 0xBFF0000000000000#64
/-- 0.5 -/
abbrev half : Word := 0x3FE0000000000000#64

/-! Vectors. -/

/-- V-CMD-2. -/
theorem test_nop_status :
    (nextOf (exec .nop { State.reset with status := ⟨true, false, true, false, false, false, 3#8, 0x10#8⟩ })).status.word
      = 0x00000006#64 := by decide +kernel
/-- V-CFG-2. -/
theorem test_config_kernel : (nextOf (exec .config (link 0 5 1))).kern = tinyKern := by decide +kernel
/-- V-CFG-2: KERN_E, LPF[0], LPF[50], STATUS. -/
theorem test_config_rest :
    let t := nextOf (exec .config (link 0 5 1))
    t.kernE = 0x400FFAC5A9A3272C#64 ∧ t.lpf[0]? = some 0x3F37949F45B69BBB#64 ∧ t.lpf[50]? = some 0x3FD7FA9CB3D07A4A#64
      ∧ t.status.word = 0x00010006#64 := by decide +kernel
/-- V-MAP-3. -/
theorem test_map_qpsk :
    result (.map 1 0) (tiny 2 (.bits [false, false, false, true, true, false, true, true]))
      = (Samples.cplx [⟨m1, m1⟩, ⟨m1, p1⟩,
          ⟨p1, m1⟩, ⟨p1, p1⟩]).buffer := by decide +kernel
/-- V-MAP-5, v = 8. -/
theorem test_map_qam16 :
    result (.map 1 0) (qam16 (.bits [true, false, false, false]))
      = (Samples.cplx [⟨0x3FEE5B9D136C6D96#64, 0xBFEE5B9D136C6D96#64⟩]).buffer := by decide +kernel
/-- V-COMB-1, its nonzero elements and one other. -/
theorem test_comb_places :
    let t := nextOf (exec (.comb 1 0) (tiny 1 (.cplx [⟨p1, 0⟩, ⟨m1, 0⟩])))
    (t.buf 1).len = 31#64 ∧ t.word 1 0 = some p1 ∧ t.word 1 8 = some m1
      ∧ t.word 1 16 = some 0#64 := by decide +kernel
/-- V-COMB-4. -/
theorem test_comb_copies_nan :
    (nextOf (exec (.comb 1 0) (tiny 1 (.cplx [⟨0x7FF8000000000001#64, 0x8000000000000000#64⟩])))).word 1 0
      = some 0x7FF8000000000001#64 := by decide +kernel
/-- The RRC vector of 95 §2.4 at n = 4 and n = 12, from the first 13 samples of the comb. -/
theorem test_rrc_sums :
    let z : List Cplx := List.replicate 3 Cplx.zero
    let t := nextOf (exec (.rrc 1 0)
      (tiny 1 (.cplx ([⟨p1, 0⟩] ++ z ++ [⟨m1, 0⟩] ++ z ++ z ++ z))))
    t.word 1 8 = some 0x3FB52380B8F62A3E#64 ∧ t.word 1 24 = some 0x3FF2E29B87C6D52C#64 := by decide +kernel
/-- V-UP-1, V-UP-3, V-UP-4. -/
theorem test_upconv :
    result (.upconv 1 0) (tiny 1 (.cplx [⟨p1, 0⟩, ⟨fTwo, 0⟩, ⟨half, half⟩]))
      = (Samples.real [p1, 0x3FFE6F0E134454FF#64, 0x3FBC51525C8A6928#64]).buffer := by decide +kernel
/-- V-AWGN-2: the deviation and the position. -/
theorem test_awgn_sigma :
    let t := nextOf (exec (.awgn 1 0) { tiny 1 (.real [fTwo, 0xC000000000000000#64]) with snrDb := 0x4024000000000000#64 })
    t.awgnSigma = 0x3FE43D136248490F#64 ∧ t.awgnPos = 2#64 := by decide +kernel
/-- V-AWGN-8: `10^(3/10)`. -/
theorem test_awgn_power : rnPow10 (3 / 10) = 0x3FFFEC982D5BB8AF#64 := by decide +kernel
/-- V-FD-R1, V-FD-R3: the gain of the draws. -/
theorem test_fade_ray_gain : rayleighH 3 4 = 0x400C48C6001F0AC0#64
    ∧ rayleighH (1 / 2) (-5 / 4) = 0x3FEE768D399DC470#64 := by decide +kernel
/-- V-FD-R5: draws are made on an empty input. -/
theorem test_fade_ray_empty :
    let t := nextOf (exec (.fadeRay 1 0) (tiny 1 (.real [])))
    t.fadePos = 2#64 ∧ (t.buf 1).kind = .real := by decide +kernel
/-- V-FD-C1, V-FD-C3: the coefficient of the draws at 0 dB and 10 dB. -/
theorem test_fade_ric_gain : ricianH 0 1 0 = ⟨0x3FF3504F333F9DE6#64, 0#64⟩
    ∧ ricianH 1 1 (-1) = ⟨0x3FF2AAA7247001B8#64, 0xBFCB4A293C1D9550#64⟩ := by decide +kernel
/-- V-FD-C6: the kind is checked before K. -/
theorem test_fade_ric_kind : (nextOf (exec (.fadeRic 1 0) (tiny 1 (.bits [true])))).status.err = 4#8 := by decide +kernel
/-- V-FO-2. -/
theorem test_fofs :
    let one : Cplx := ⟨p1, p1⟩
    result (.fofs 1 0) { tiny 1 (.cplx [one, one, one]) with fofsHz := 0x4014000000000000#64 }
      = (Samples.cplx [one, ⟨p1, m1⟩, ⟨m1, m1⟩]).buffer := by
  decide +kernel
/-- V-FR-2. -/
theorem test_fdrift :
    result (.fdrift 1 0) { tiny 1 (.real [p1, p1, p1]) with fdriftRate := 0x4059000000000000#64 }
      = (Samples.cplx [⟨p1, 0⟩, ⟨0x3FE6A09E667F3BCD#64, 0xBFE6A09E667F3BCD#64⟩, ⟨m1, 0⟩]).buffer := by
  decide +kernel
/-- V-FD-1, its ends and its two middle taps. -/
theorem test_fdelay :
    let t := nextOf (exec (.fdelay 1 0) { tiny 1 (.real [p1]) with fdelayFrac := half })
    (t.buf 1).len = 21#64 ∧ t.word 1 0 = some 0x3F63FB9EB88728FA#64 ∧ t.word 1 10 = some 0x3FE47D8240369785#64
      ∧ t.word 1 11 = some 0x3FE407695121DCBA#64 ∧ t.word 1 20 = some 0xBF66161B37BDCEFA#64 := by decide +kernel
/-- V-DC-3. -/
theorem test_downconv_real :
    result (.downconv 1 0) (tiny 1 (.real [p1, p1]))
      = (Samples.cplx [⟨0x3F37949F45B69BBB#64, 0⟩, ⟨0x3F4B1C56A3F0CC7A#64, 0xBF1D25ACE3282DFB#64⟩]).buffer := by
  decide +kernel
/-- V-DC-4. -/
theorem test_downconv_cplx :
    result (.downconv 1 0) (tiny 1 (.cplx [⟨0, p1⟩])) = (Samples.cplx [⟨0, 0x3F37949F45B69BBB#64⟩]).buffer := by
  decide +kernel
/-- V-MF-1. -/
theorem test_match :
    let t := nextOf (exec (.matchFull 1 0) (tiny 1 (.cplx [⟨p1, 0⟩])))
    (t.buf 1).len = 24#64 ∧ t.word 1 0 = some 0xBF8A14C9F23454AD#64 ∧ t.word 1 24 = some 0x3FE18A94FB6CDFC5#64
      ∧ t.word 1 46 = some 0xBF7E47630AC48EB0#64 := by decide +kernel
/-- V-MF-4, and one sample more. -/
theorem test_match_trim :
    result (.matchTrim 1 0) (tiny 1 (.cplx [⟨p1, 0⟩])) = (Samples.cplx []).buffer
      ∧ (result (.matchTrim 1 0) (tiny 1 (.cplx [⟨p1, 0⟩, Cplx.zero]))).len = 1#64 := by decide +kernel

/-- 100 elements, element `n` the pair of words `n` and `2^63`. -/
def ramp : Samples := .cplx (tabulate 100 fun n => ⟨BitVec.ofNat 64 n, 0x8000000000000000#64⟩)

/-- V-SA-1. -/
theorem test_sample :
    result (.sample 1 0) { tiny 1 ramp with sampleCount := 2#64 }
      = (Samples.cplx [⟨74#64, 0x8000000000000000#64⟩, ⟨78#64, 0x8000000000000000#64⟩]).buffer := by decide +kernel
/-- V-SA-4, V-SA-5. -/
theorem test_sample_before_start :
    let s := { tiny 1 ramp with timingAdj := 0xFFFFFFFFFFFFFFB5#64 }
    (nextOf (exec (.sample 1 0) { s with sampleCount := 1#64 })).status.err = 8#8
      ∧ result (.sample 1 0) s = (Samples.cplx []).buffer := by decide +kernel
/-- V-SA-7. -/
theorem test_sample_auto : (result (.sampleAuto 1 0) (tiny 1 ramp)).len = 7#64 := by decide +kernel
/-- V-SA-8. -/
theorem test_sample_auto_empty :
    result (.sampleAuto 1 0) { tiny 1 ramp with timingAdj := 26#64 } = (Samples.cplx []).buffer := by decide +kernel
/-- V-DM-2. -/
theorem test_demap_qpsk :
    result (.demap 1 0) (tiny 2 (.cplx [⟨0x3FE6666666666666#64, 0xBFC999999999999A#64⟩, ⟨0xBFF0000000000000#64, 0x3FF0000000000000#64⟩,
        ⟨0x7FF8000000000000#64, 0x4000000000000000#64⟩, ⟨1#64, 0x8000000000000001#64⟩]))
      = (Samples.bits [true, false, false, true, false, true, true, false]).buffer := by decide +kernel
/-- V-DM-3. -/
theorem test_demap_qam16 :
    result (.demap 1 0) (qam16 (.cplx [⟨0x4007333333333333#64, 0x3FF3333333333333#64⟩])) = (Samples.bits [true, false, true, true]).buffer := by
  decide +kernel
/-- V-CMD-4 as the first step after reset, with CFG_VALID 0. -/
theorem test_step_illegal : (nextOf (step (State.reset.withFetchWord 64 2))).status.word = 0x00020102#64 := by decide +kernel
/-- V-ERR-1 as the first step after reset. -/
theorem test_step_bufid : (nextOf (step (State.reset.withFetchWord 64 0x9010))).status.word = 0x00100202#64 := by
  decide +kernel

/-- A write, then the state it answers. -/
def write (off v : Nat) (s : State) : State := nextOf (accessOffset off 8 (some (BitVec.ofNat 64 v)) s)

/-- The fault a step ends in. -/
def faultOf (o : Host.Outcome State Fault Refusal) : Option Fault :=
  match o with
  | .fault f => some f
  | _ => none

/-- V-REG-13, V-REG-14. -/
theorem test_buf_data :
    let s := write 0x190 7 (write 0x188 0xFFFFF (write 0x180 3 State.reset))
    s.bufPtr = 0x100000#64 ∧ s.word 3 0xFFFFF = some 7#64 ∧ (s.buf 3).len = 0#64
      ∧ faultOf (accessOffset 0x190 8 (some 1#64) s) = some .busWindowRange := by decide +kernel
/-- V-REG-15. -/
theorem test_const_data :
    let s := write 0x1C8 0x00000001FFFFFFFF (write 0x1C0 4095 State.reset)
    Memory.read s.consts 4095 = some ⟨BitVec.ofInt 32 (-1), 1#32⟩ ∧ s.constIdx = 4096#64
      ∧ faultOf (accessOffset 0x1C8 8 none s) = some .busWindowRange := by decide +kernel
/-- V-REG-9, V-REG-11. -/
theorem test_register_writes : (write 0x0F0 0 State.reset).status.word = 0x20#64
    ∧ (nextOf (accessOffset 0x1A0 8 none (write 0x1A0 9 State.reset))).resp = .data 0#64 := by decide +kernel
/-- V-BUSY-1, V-BUSY-2, V-BUSY-3, V-BUSY-4. -/
theorem test_busy_writes :
    let s := State.reset.inFlight 0x1010#64
    (write 0x030 0x2111 s).cmd = 0x1010#64 ∧ (write 0x030 0x2111 s).status.ovr = true
      ∧ (write 0x048 7 s).bitRate = 0#64 ∧ (write 0x048 7 s).status.wbusy = true
      ∧ (write 0x190 5 s).bufPtr = 0#64
      ∧ (write 0x028 0x18 (write 0x048 7 (write 0x030 0 s))).status.word = 1#64 := by decide +kernel
/-- V-BUS-1. -/
theorem test_bus_width : faultOf (accessOffset 0x028 4 none State.reset) = some .busWidthOrAlignment
    ∧ faultOf (accessOffset 0x02C 8 none State.reset) = some .busWidthOrAlignment := by decide +kernel

/-! Premises of the obligations: for each obligation with premises, concrete states and operands that meet them, each
clause at a boundary. -/

/-- `tiny` with buffer 0 of a given kind and length and no word written. -/
def sized (order : Nat) (k : BufKind) (n : Nat) : State :=
  (tiny order (.bits [])).setBuf 0 ⟨BitVec.ofNat 64 n, k, []⟩

/-- `sized` after a RICIAN_K_DB write of +0.0. -/
def sizedK (k : BufKind) (n : Nat) : State :=
  { sized 1 k n with status := { (sized 1 k n).status with kValid := true } }

/-- `sized` with a delay of half a sample. -/
def sizedD (k : BufKind) (n : Nat) : State := { sized 1 k n with fdelayFrac := 0x3FE0000000000000#64 }

/-- A busy machine with nothing to come from outside and a command word. -/
def busyWith (c : Word) : State := State.reset.inFlight c

theorem test_hyp_decode_encode_round_trip : (Instr.map 15 15).wellFormed = true ∧ (Instr.config).wellFormed = true := by
  decide

theorem test_hyp_step_runs_decoded_command :
    (Instr.demap 0 15).wellFormed = true ∧ decode (busyWith 0xF33#64).cmd = .ok (.demap 0 15)
      ∧ (busyWith 0xF33#64).status.busy = true ∧ (busyWith 0xF33#64).inbox = []
      ∧ ({ busyWith 0xF33#64 with inbox := [.engine, .rst] } : State).inbox = .engine :: [.rst] := by decide +kernel

/-- The four points of R85, each by a word that is illegal by that point alone. -/
theorem test_hyp_reserved_encoding :
    (busyWith 0x14#64).status.busy = true ∧ (busyWith 0x14#64).inbox = []
      ∧ (0x14#64).toNat % 2 ^ 8 ∉ [0x00, 0x01, 0x10, 0x11, 0x12, 0x13, 0x20, 0x21, 0x22, 0x23, 0x24, 0x30, 0x31, 0x32, 0x33]
      ∧ (0x1001010#64).toNat / 2 ^ 24 ≠ 0
      ∧ ((0x11010#64).toNat / 2 ^ 16 % 2 ^ 8 ≠ 0
          ∧ ¬ ((0x11010#64).toNat / 2 ^ 16 % 2 ^ 8 = 1
            ∧ ((0x11010#64).toNat % 2 ^ 8 = 0x21 ∨ (0x11010#64).toNat % 2 ^ 8 = 0x31 ∨ (0x11010#64).toNat % 2 ^ 8 = 0x32)))
      ∧ ((0x101#64).toNat % 2 ^ 8 < 2 ∧ (0x101#64).toNat / 2 ^ 8 % 2 ^ 16 ≠ 0) := by decide +kernel

theorem test_hyp_command_frame :
    (∃ t, exec (.map 1 0) (tiny 1 (.bits [true])) = .next t)
      ∧ (∀ d x, (Instr.map 1 0).operands = some (d, x) → 0 ≠ d) ∧ Instr.map 1 0 ≠ .config
      ∧ (∀ d x, Instr.map 1 0 ≠ .awgn d x) ∧ ∀ d x, Instr.map 1 0 ≠ .fadeRay d x ∧ Instr.map 1 0 ≠ .fadeRic d x :=
  ⟨⟨_, rfl⟩, by simp [Instr.operands], by simp, by simp, by simp⟩

theorem test_hyp_errors_are_precise :
    (∃ t, exec .config (link 7 0 0) = .next t ∧ t.status.err ≠ 0#8)
      ∧ (∃ t, exec (.map 15 0) State.reset = .next t ∧ t.status.err ≠ 0#8)
      ∧ (busyWith 0x102#64).status.busy = true ∧ (busyWith 0x102#64).inbox = []
      ∧ ∃ t, step (busyWith 0x102#64) = .next t ∧ t.status.err ≠ 0#8 :=
  ⟨⟨_, rfl, by decide +kernel⟩, ⟨_, rfl, by decide +kernel⟩, rfl, rfl, ⟨_, rfl, by decide +kernel⟩⟩

theorem test_hyp_common_checks :
    (Instr.map 0 8).operands = some (0, 8) ∧ Config.nBuf ≤ 8 ∧ 7 < Config.nBuf ∧ State.reset.status.cfgValid = false
      ∧ (tiny 1 (.real [])).status.cfgValid = true ∧ takesKind (.map 7 0) ((tiny 1 (.real [])).buf 0).kind = false := by
  decide +kernel

theorem test_hyp_parameter_checks :
    let s := tiny 1 (.real [1#64])
    7 < Config.nBuf ∧ 0 < Config.nBuf ∧ s.status.cfgValid = true ∧ (s.buf 0).kind = .real
      ∧ ((tiny 1 (.cplx [])).buf 0).kind = .cplx
      ∧ F64.isFinite ({ s with snrDb := 0x7FF0000000000000#64 } : State).snrDb = false
      ∧ s.status.kValid = false
      ∧ ({ s with status := { s.status with kValid := true } } : State).status.kValid = true
      ∧ F64.isFinite ({ s with ricianKDb := 0x7FF8000000000000#64 } : State).ricianKDb = false
      ∧ F64.isFinite ({ s with fofsHz := 0xFFF0000000000000#64 } : State).fofsHz = false
      ∧ F64.isFinite ({ s with fdriftRate := 0x7FF0000000000001#64 } : State).fdriftRate = false
      ∧ ¬ (0 < F64.toRat ({ s with fdelayFrac := 0x8000000000000000#64 } : State).fdelayFrac)
      ∧ ¬ (F64.toRat ({ s with fdelayFrac := 0x3FF0000000000000#64 } : State).fdelayFrac < 1) := by decide +kernel

theorem test_hyp_align_and_range :
    7 < Config.nBuf ∧ (tiny 2 (.bits [true])).status.cfgValid = true ∧ ((tiny 2 (.bits [true])).buf 0).kind = .bits
      ∧ (tiny 2 (.bits [true])).count 0 % (tiny 2 (.bits [true])).order.toNat ≠ 0
      ∧ ((tiny 1 ramp).buf 0).kind = .cplx
      ∧ 0 < ({ tiny 1 ramp with sampleCount := 1#64, timingAdj := 0xFFFFFFFFFFFFFFB5#64 } : State).sampleCount.toNat
      ∧ ((tiny 1 ramp).totalDelay.toNat : Int) + (0xFFFFFFFFFFFFFFB5#64 : Word).toInt < 0
      ∧ (((tiny 1 ramp).count 0 : Nat) : Int)
          ≤ ((tiny 1 ramp).totalDelay.toNat : Int) + (26#64 : Word).toInt + ((1 : Int) - 1) * (tiny 1 ramp).sps.toNat := by
  decide +kernel

/-- Each capacity check at the least length that meets it; SAMPLE with count 0 and, where SPS is 0, with a count of its own
above the capacity. -/
theorem test_hyp_capacity :
    let c := fun n => sized 1 .cplx n
    0 < Config.nBuf ∧ (c 1).status.cfgValid = true ∧ ((c 1).buf 0).kind = .cplx
      ∧ Config.bufWords < 2 * (c 0x80001).count 0
      ∧ Config.bufWords < 2 * ((c 131067).count 0 * (c 131067).sps.toNat + (c 131067).rrcLen.toNat - 1)
      ∧ ((c 524266).count 0 ≠ 0 ∧ Config.bufWords < 2 * ((c 524266).count 0 + (c 524266).rrcLen.toNat - 1))
      ∧ Config.bufWords < (sized 12 .cplx 87382).count 0 * (sized 12 .cplx 87382).order.toNat
      ∧ ((sized 1 .real 1).buf 0).kind = .real ∧ Config.bufWords < (sized 1 .real 0x100001).count 0
      ∧ Config.bufWords < 2 * (sized 1 .real 0x80001).count 0 := by decide +kernel

theorem test_hyp_capacity_map :
    ((sized 1 .bits 1).buf 0).kind = .bits ∧ (sized 1 .bits 0x80001).count 0 % (sized 1 .bits 0x80001).order.toNat = 0
      ∧ Config.bufWords < 2 * ((sized 1 .bits 0x80001).count 0 / (sized 1 .bits 0x80001).order.toNat)
      ∧ (sized 2 .bits 0x100002).count 0 % (sized 2 .bits 0x100002).order.toNat = 0
      ∧ Config.bufWords < (sized 2 .bits 0x100002).count 0 := by decide +kernel

theorem test_hyp_capacity_sample :
    ((sized 1 .cplx 0x80001).sampleCount.toNat = 0 ∧ Config.bufWords < 2 * (sized 1 .cplx 0x80001).count 0)
      ∧ (let s := { sized 1 .cplx 75 with sps := 0#64, sampleCount := 0x80001#64 }
         ((s.buf 0).kind = .cplx ∧ s.status.cfgValid = true)
           ∧ (0 ≤ (s.totalDelay.toNat : Int) + s.timingAdj.toInt
             ∧ (s.totalDelay.toNat : Int) + s.timingAdj.toInt + ((s.sampleCount.toNat : Int) - 1) * s.sps.toNat
                 < s.count 0)
           ∧ Config.bufWords < 2 * s.sampleCount.toNat)
      ∧ 0 ≤ ((sized 1 .cplx 0x80001).totalDelay.toNat : Int) + (0xFFFFFFFFFFFFFFB6#64 : Word).toInt := by decide +kernel

/-- The channel commands: both kinds, finite parameters, K written, a delay inside its domain. -/
theorem test_hyp_capacity_channel :
    ((sizedK .cplx 0x80001).buf 0).kind = .cplx ∧ ((sizedD .real 0xFFFED).buf 0).kind = .real
      ∧ F64.isFinite (sizedK .cplx 0x80001).snrDb = true ∧ Config.bufWords < 1 * (sized 1 .real 0x100001).count 0
      ∧ (sizedK .cplx 0x80001).status.kValid = true ∧ F64.isFinite (sizedK .cplx 0x80001).ricianKDb = true
      ∧ Config.bufWords < 2 * (sizedK .cplx 0x80001).count 0
      ∧ F64.isFinite (sizedK .cplx 0x80001).fofsHz = true ∧ F64.isFinite (sizedK .cplx 0x80001).fdriftRate = true
      ∧ F64.isFinite (sizedD .real 0xFFFED).fdelayFrac = true ∧ 0 < F64.toRat (sizedD .real 0xFFFED).fdelayFrac
      ∧ F64.toRat (sizedD .real 0xFFFED).fdelayFrac < 1
      ∧ ((sizedD .real 0xFFFED).count 0 ≠ 0 ∧ Config.bufWords < 1 * ((sizedD .real 0xFFFED).count 0 + 20))
      ∧ Config.bufWords < 2 * ((sizedD .cplx 0x7FFED).count 0 + 20) := by decide +kernel

/-- The link parameters of TINY are in range. -/
theorem tiny_linkOk : (link 0 5 1).LinkOk := by unfold State.LinkOk; decide +kernel

theorem test_hyp_config_checks :
    6 < (link 7 5 1).scheme.toNat ∧ ((link 6 5 1).scheme.toNat ≤ 6) ∧ ¬ (link 0 0 1).LinkOk
      ∧ ((link 2 4 1).scheme.toNat ≤ 6 ∧ (link 2 4 1).LinkOk ∧ ¬ (link 2 4 1).TableOk)
      ∧ ((link 0 5 1).scheme.toNat ≤ 6 ∧ (link 0 5 1).LinkOk ∧ (link 0 5 1).TableOk) := by
  refine ⟨by decide, by decide, by unfold State.LinkOk; decide +kernel, ⟨by decide, ?_, ?_⟩, by decide, tiny_linkOk, ?_⟩
  · unfold State.LinkOk; decide +kernel
  · intro h
    obtain ⟨p, hp⟩ := (h (by decide)).1 0 (by decide)
    have e : Memory.read (link 2 4 1).consts 0 = none := rfl
    rw [e] at hp; cases hp
  · intro h; exact absurd h (by decide)

/-- CONFIG derives order 4 with the default table, order 1 without one. -/
theorem test_hyp_config_derives :
    let s := { link 2 4 1 with consts := table16 }
    s.scheme.toNat ≤ 6 ∧ s.LinkOk ∧ s.TableOk := by
  refine ⟨by decide, by unfold State.LinkOk; decide +kernel, fun _ => ⟨fun v hv => ?_, fun v w hv hw => ?_⟩⟩
  · have h : ∀ v, v < 16 → (Memory.read table16 v).isSome = true := by decide +kernel
    exact Option.isSome_iff_exists.1 (h v hv)
  · have h : ∀ v, v < 16 → ∀ w, w < 16 → v ≠ w → Memory.read table16 v ≠ Memory.read table16 w := by decide +kernel
    exact h v hv w hw

/-- A buffer without a written word is in canonical form, so `sized` is ready at every length. -/
theorem sized_ready (order n : Nat) (k : BufKind) {dst : Nat} (h : dst < 8) : (sized order k n).Ready dst 0 k :=
  ⟨h, by decide, rfl, rfl, rfl⟩

/-- MAP at length 0, at order 1, 2 and 4, and at the greatest length. -/
theorem test_hyp_map :
    (sized 1 .bits 0).Ready 0 0 .bits ∧ (sized 1 .bits 0x80000).Ready 7 0 .bits ∧ (sized 2 .bits 0x100000).Ready 7 0 .bits
      ∧ (sized 4 .bits 4).Ready 1 0 .bits
      ∧ (0 < (sized 1 .bits 0x80000).order.toNat
          ∧ (sized 1 .bits 0x80000).count 0 % (sized 1 .bits 0x80000).order.toNat = 0
          ∧ (sized 1 .bits 0x80000).count 0 ≤ Config.bufWords
          ∧ 2 * ((sized 1 .bits 0x80000).count 0 / (sized 1 .bits 0x80000).order.toNat) ≤ Config.bufWords)
      ∧ (0 < (sized 4 .bits 4).order.toNat ∧ (sized 4 .bits 4).count 0 % (sized 4 .bits 4).order.toNat = 0)
      ∧ 0 < (sized 2 .bits 0x100000).order.toNat
      ∧ (sized 2 .bits 0x100000).count 0 % (sized 2 .bits 0x100000).order.toNat = 0
      ∧ (sized 2 .bits 0x100000).count 0 ≤ Config.bufWords
      ∧ 2 * ((sized 2 .bits 0x100000).count 0 / (sized 2 .bits 0x100000).order.toNat) ≤ Config.bufWords :=
  ⟨sized_ready _ _ _ (by decide), sized_ready _ _ _ (by decide), sized_ready _ _ _ (by decide),
    sized_ready _ _ _ (by decide), by decide +kernel, by decide +kernel, by decide +kernel, by decide +kernel,
    by decide +kernel, by decide +kernel⟩

/-- COMB and RRC (and MATCH) at their greatest lengths for 24 taps at 4 samples a symbol, and at length 0. -/
theorem test_hyp_comb_rrc_match :
    (sized 1 .cplx 131066).Ready 1 0 .cplx ∧ (sized 1 .cplx 524265).Ready 0 0 .cplx
      ∧ (0 < (sized 1 .cplx 131066).sps.toNat ∧ 0 < (sized 1 .cplx 131066).rrcLen.toNat
          ∧ 2 * (sized 1 .cplx 131066).count 0 ≤ Config.bufWords)
      ∧ (0 < (sized 1 .cplx 524265).rrcLen.toNat ∧ 2 * (sized 1 .cplx 524265).count 0 ≤ Config.bufWords)
      ∧ ((sized 1 .cplx 0).Ready 1 0 .cplx ∧ 0 < (sized 1 .cplx 0).rrcLen.toNat ∧ (sized 1 .cplx 0).count 0 = 0)
      ∧ 2 * ((sized 1 .cplx 131066).count 0 * (sized 1 .cplx 131066).sps.toNat + (sized 1 .cplx 131066).rrcLen.toNat - 1)
          ≤ Config.bufWords
      ∧ 2 * ((sized 1 .cplx 524265).count 0 + (sized 1 .cplx 524265).rrcLen.toNat - 1) ≤ Config.bufWords :=
  ⟨sized_ready _ _ _ (by decide), sized_ready _ _ _ (by decide), by decide +kernel, by decide +kernel,
    ⟨sized_ready _ _ _ (by decide), by decide +kernel⟩, by decide +kernel, by decide +kernel⟩

/-- UPCONV, DOWNCONV, FADE.RIC, FOFS, FDRIFT and SAMPLE at the greatest length of either kind. -/
theorem test_hyp_upconv_downconv :
    (sized 1 .cplx 0x80000).Ready 1 0 .cplx ∧ (sized 1 .real 0x80000).Ready 1 0 .real
      ∧ 2 * (sized 1 .cplx 0x80000).count 0 ≤ Config.bufWords ∧ 2 * (sized 1 .real 0x80000).count 0 ≤ Config.bufWords :=
  ⟨sized_ready _ _ _ (by decide), sized_ready _ _ _ (by decide), by decide +kernel, by decide +kernel⟩

/-- AWGN and FADE.RAY, at length 0 and at the greatest lengths; SNR_DB after reset is +0.0, so finite. -/
theorem test_hyp_awgn_fade_ray :
    (sized 1 .real 0).Ready 1 0 .real ∧ (sized 1 .real 0x100000).Ready 1 0 .real ∧ (sized 1 .cplx 0).Ready 1 0 .cplx
      ∧ (sized 1 .cplx 0x80000).Ready 1 0 .cplx
      ∧ F64.isFinite (sized 1 .real 0x100000).snrDb = true ∧ (sized 1 .real 0x100000).count 0 ≤ Config.bufWords
      ∧ F64.isFinite (sized 1 .cplx 0x80000).snrDb = true ∧ 2 * (sized 1 .cplx 0x80000).count 0 ≤ Config.bufWords :=
  ⟨sized_ready _ _ _ (by decide), sized_ready _ _ _ (by decide), sized_ready _ _ _ (by decide),
    sized_ready _ _ _ (by decide), by decide +kernel, by decide +kernel, by decide +kernel, by decide +kernel⟩

theorem test_hyp_fade_ric :
    (sizedK .real 0x80000).Ready 1 0 .real ∧ (sizedK .cplx 0x80000).Ready 1 0 .cplx
      ∧ (sizedK .real 0x80000).status.kValid = true ∧ F64.isFinite (sizedK .real 0x80000).ricianKDb = true
      ∧ (sizedK .cplx 0x80000).status.kValid = true ∧ F64.isFinite (sizedK .cplx 0x80000).ricianKDb = true
      ∧ 2 * (sizedK .real 0x80000).count 0 ≤ Config.bufWords ∧ 2 * (sizedK .cplx 0x80000).count 0 ≤ Config.bufWords :=
  ⟨⟨by decide, by decide, rfl, rfl, rfl⟩, ⟨by decide, by decide, rfl, rfl, rfl⟩, by decide +kernel, by decide +kernel,
    by decide +kernel, by decide +kernel, by decide +kernel, by decide +kernel⟩

theorem test_hyp_offset_and_drift :
    (sized 1 .real 0x80000).Ready 1 0 .real ∧ (sized 1 .cplx 0x80000).Ready 1 0 .cplx
      ∧ F64.isFinite (sized 1 .real 0x80000).fofsHz = true ∧ F64.isFinite (sized 1 .real 0x80000).fdriftRate = true
      ∧ F64.isFinite (sized 1 .cplx 0x80000).fofsHz = true ∧ F64.isFinite (sized 1 .cplx 0x80000).fdriftRate = true
      ∧ 2 * (sized 1 .real 0x80000).count 0 ≤ Config.bufWords ∧ 2 * (sized 1 .cplx 0x80000).count 0 ≤ Config.bufWords :=
  ⟨sized_ready _ _ _ (by decide), sized_ready _ _ _ (by decide), by decide +kernel, by decide +kernel,
    by decide +kernel, by decide +kernel, by decide +kernel, by decide +kernel⟩

theorem test_hyp_fdelay :
    (sizedD .real 0).Ready 1 0 .real ∧ (sizedD .real 0xFFFEC).Ready 1 0 .real ∧ (sizedD .cplx 0x7FFEC).Ready 1 0 .cplx
      ∧ F64.isFinite (sizedD .real 0).fdelayFrac = true ∧ 0 < F64.toRat (sizedD .real 0).fdelayFrac
      ∧ F64.toRat (sizedD .real 0).fdelayFrac < 1
      ∧ (sizedD .real 0xFFFEC).count 0 ≤ Config.bufWords ∧ 2 * (sizedD .cplx 0x7FFEC).count 0 ≤ Config.bufWords
      ∧ (sizedD .real 0xFFFEC).count 0 + 20 ≤ Config.bufWords ∧ 2 * ((sizedD .cplx 0x7FFEC).count 0 + 20) ≤ Config.bufWords
      ∧ (sizedD .real 0).count 0 = 0 :=
  ⟨⟨by decide, by decide, rfl, rfl, rfl⟩, ⟨by decide, by decide, rfl, rfl, rfl⟩, ⟨by decide, by decide, rfl, rfl, rfl⟩,
    by decide +kernel, by decide +kernel, by decide +kernel, by decide +kernel, by decide +kernel, by decide +kernel,
    by decide +kernel, by decide +kernel⟩

/-- SAMPLE at count 0 and at the last instant inside the source; SAMPLE.A at the first start that is no error. -/
theorem test_hyp_sample :
    (sized 1 .cplx 100).Ready 1 0 .cplx
      ∧ ((sized 1 .cplx 100).sampleCount.toNat = 0 ∧ 2 * (sized 1 .cplx 100).count 0 ≤ Config.bufWords)
      ∧ (let s := { sized 1 .cplx 99 with sampleCount := 7#64 }
         s.Ready 1 0 .cplx ∧ 2 * s.count 0 ≤ Config.bufWords ∧ 2 * s.sampleCount.toNat ≤ Config.bufWords
           ∧ (0 ≤ (s.totalDelay.toNat : Int) + s.timingAdj.toInt
             ∧ (s.totalDelay.toNat : Int) + s.timingAdj.toInt + ((s.sampleCount.toNat : Int) - 1) * s.sps.toNat
                 < s.count 0))
      ∧ (let s := { sized 1 .cplx 100 with timingAdj := 0xFFFFFFFFFFFFFFB6#64 }
         s.Ready 1 0 .cplx ∧ 0 < s.sps.toNat ∧ 2 * s.count 0 ≤ Config.bufWords
           ∧ 0 ≤ (s.totalDelay.toNat : Int) + s.timingAdj.toInt) :=
  ⟨sized_ready _ _ _ (by decide), by decide +kernel,
    ⟨⟨by decide, by decide, rfl, rfl, rfl⟩, by decide +kernel, by decide +kernel⟩,
    ⟨by decide, by decide, rfl, rfl, rfl⟩, by decide +kernel, by decide +kernel⟩

/-- DEMAP at orders 1, 2 and 12, at the greatest length of each, and a finite sample. -/
theorem test_hyp_demap :
    (sized 1 .cplx 0x80000).Ready 1 0 .cplx ∧ (sized 2 .cplx 0x80000).Ready 1 0 .cplx
      ∧ (sized 12 .cplx 87381).Ready 1 0 .cplx
      ∧ (sized 1 .cplx 0x80000).order.toNat = 1 ∧ (sized 2 .cplx 0x80000).order.toNat = 2
      ∧ 2 < (sized 12 .cplx 87381).order.toNat
      ∧ (sized 12 .cplx 87381).count 0 * (sized 12 .cplx 87381).order.toNat ≤ Config.bufWords
      ∧ 2 * (sized 12 .cplx 87381).count 0 ≤ Config.bufWords
      ∧ F64.isFinite ((qam16 (.cplx [⟨0#64, 0#64⟩])).cplxElem 0 0).re = true
      ∧ F64.isFinite ((qam16 (.cplx [⟨0#64, 0#64⟩])).cplxElem 0 0).im = true ∧ 0 < (qam16 (.cplx [⟨0#64, 0#64⟩])).count 0 :=
  ⟨sized_ready _ _ _ (by decide), sized_ready _ _ _ (by decide), sized_ready _ _ _ (by decide), by decide +kernel,
    by decide +kernel, by decide +kernel, by decide +kernel, by decide +kernel, by decide +kernel, by decide +kernel,
    by decide +kernel⟩

/-- What CONFIG accepts it derives, and the state it leaves meets the invariant if the one before it has canonical
memories. -/
theorem inv_putDerived {s : State} {d : Derived} (h : s.configure = .ok d)
    (hb : ∀ b, b < Config.nBuf → Memory.wf Config.bufWords (s.buf b).words = true)
    (hc : Memory.wf Config.constCap s.consts = true) (he : legalErr s.status.err = true) : (s.putDerived d).Inv :=
  ⟨hb, hc, he, fun _ => h⟩

/-- Before CONFIG: SMALL16 with the default table, buffer 0 the constellation points 0 and 15. -/
def small16 : State :=
  { link 2 4 1 with consts := table16 }.putResult 0
    (.cplx [⟨0xC008000000000000#64, 0xC008000000000000#64⟩, ⟨0x3FF0000000000000#64, 0x3FF0000000000000#64⟩])

/-- CONFIG accepts SMALL16 and derives order 4. -/
theorem small16_configure : ∃ d, small16.configure = .ok d ∧ d.order = 4#64 := by
  have h : (match small16.configure with | .ok d => decide (d.order = 4#64) | .error _ => false) = true := by
    decide +kernel
  cases e : small16.configure with
  | ok d => rw [e] at h; exact ⟨d, rfl, of_decide_eq_true h⟩
  | error _ => rw [e] at h; exact absurd h (by simp)

/-- The premises of ConfiguredRegisters and ConstellationInverseLaw in a state that CONFIG has left. -/
theorem test_hyp_constellation_inverse :
    ∃ s : State, s.Inv ∧ s.status.cfgValid = true ∧ s.Ready 1 0 .cplx ∧ 4 ≤ s.order.toNat
      ∧ 2 * s.count 0 ≤ Config.bufWords ∧ s.count 0 * s.order.toNat ≤ Config.bufWords
      ∧ ∀ i, i < s.count 0 → (fun i => 15 * i) i < 2 ^ s.order.toNat
          ∧ s.cplxElem 0 i = ⟨f64 (s.point (15 * i)).i.toInt, f64 (s.point (15 * i)).q.toInt⟩ := by
  obtain ⟨d, hd, ho⟩ := small16_configure
  refine ⟨small16.putDerived d, inv_putDerived hd (by decide +kernel) (by decide +kernel) (by decide +kernel), rfl,
    ⟨by decide, by decide, rfl, ?_, ?_⟩, ?_, ?_, ?_, ?_⟩
  · change (small16.buf 0).kind = .cplx; decide +kernel
  · change Memory.wf Config.bufWords (small16.buf 0).words = true; decide +kernel
  · change 4 ≤ d.order.toNat; rw [ho]; decide
  · change 2 * small16.count 0 ≤ _; decide +kernel
  · change small16.count 0 * d.order.toNat ≤ _; rw [ho]; decide +kernel
  · intro i hi
    change i < small16.count 0 at hi
    change 15 * i < 2 ^ d.order.toNat
      ∧ small16.cplxElem 0 i = ⟨f64 (small16.point (15 * i)).i.toInt, f64 (small16.point (15 * i)).q.toInt⟩
    rw [ho]
    have h2 : small16.count 0 = 2 := by decide +kernel
    rw [h2] at hi
    interval_cases i <;> decide +kernel

theorem test_hyp_cmd_write : (busyWith 0#64).status.busy = true ∧ State.reset.status.busy = false := by decide

theorem test_hyp_reserved_and_read_only :
    0xFF8 % 8 = 0 ∧ (0x1F0 ≤ 0xFF8 ∧ 0xFF8 ≤ 0xFF8) ∧ (0x0B8 % 8 = 0 ∧ (0x080 ≤ 0x0B8 ∧ 0x0B8 ≤ 0x0B8)) := by decide

theorem test_hyp_control_and_resets :
    (1#64).getLsbD 1 = false ∧ (2#64).getLsbD 1 = true
      ∧ ({ State.reset with inbox := [.rst] } : State).inbox = .rst :: [] := by decide

/-- The command word in flight: a legal one and an illegal one. -/
theorem test_hyp_interrupt_level :
    (∃ t, exec .nop State.reset = .next t)
      ∧ ((busyWith 0x14#64).status.busy = true ∧ (busyWith 0x14#64).inbox = [] ∧ ∃ t, step (busyWith 0x14#64) = .next t)
      ∧ (∃ t, step { busyWith 0#64 with inbox := [.engine] } = .next t)
      ∧ ((2#64).getLsbD 1 = true ∧ ∃ t, accessOffset 0x028 8 (some 2#64) State.reset = .next t)
      ∧ (State.reset.status.busy = false ∧ ∃ t, accessOffset 0x030 8 (some 0#64) State.reset = .next t)
      ∧ (∃ t, accessOffset 0x020 8 (some 2#64) State.reset = .next t)
      ∧ ((0#64).getLsbD 1 = false ∧ (0#64).getLsbD 0 = false ∧ ∃ t, accessOffset 0x020 8 (some 0#64) State.reset = .next t)
      ∧ ∃ t, step { State.reset with inbox := [.rst] } = .next t :=
  ⟨⟨_, rfl⟩, ⟨rfl, rfl, _, rfl⟩, ⟨_, rfl⟩, ⟨by decide, _, rfl⟩, ⟨rfl, _, rfl⟩, ⟨_, rfl⟩, ⟨by decide, by decide, _, rfl⟩,
    ⟨_, rfl⟩⟩

/-- The idle writes of R28: CONST_DATA at its last index. -/
theorem test_hyp_idle_writes :
    State.reset.status.busy = false
      ∧ (0x1C8 ∈ [0x040, 0x048, 0x050, 0x058, 0x060, 0x1C8]
          ∧ ({ State.reset with constIdx := 4095#64 } : State).constIdx.toNat < 4096) := by decide

/-- Two registers read while idle whose values differ. -/
theorem test_hyp_registers_read_back :
    let s := { State.reset with fadeHRe := 1#64, lpfIdx := 2#64 }
    s.status.busy = false ∧ (0x0F8, s.fadeHRe) ∈ [(0x0F8, s.fadeHRe), (0x1E0, s.lpfIdx)]
      ∧ accessOffset 0x0F8 8 none s = .next { s with resp := .data 1#64 }
      ∧ (0x0E0, { s with fadeSeed := 7#64, fadePos := 0#64 }) ∈ [(0x0E0, { s with fadeSeed := 7#64, fadePos := 0#64 })] :=
  ⟨rfl, by simp, rfl, by simp⟩

/-- Each clause of the windows at the ends of its range. -/
theorem test_hyp_windows :
    let s := State.reset
    s.status.busy = false
      ∧ 8 ≤ ({ s with bufSel := 8#64 } : State).bufSel.toNat ∧ 0x100000 ≤ ({ s with bufPtr := 0x100000#64 } : State).bufPtr.toNat
      ∧ ({ s with bufSel := 7#64 } : State).bufSel.toNat < 8 ∧ ({ s with bufPtr := 0xFFFFF#64 } : State).bufPtr.toNat < 0x100000
      ∧ 4096 ≤ ({ s with constIdx := 4096#64 } : State).constIdx.toNat
      ∧ ({ s with constIdx := 4095#64 } : State).constIdx.toNat < 4096
      ∧ 65536 ≤ ({ s with kernIdx := 65536#64 } : State).kernIdx.toNat
      ∧ ({ s with kernIdx := 65535#64 } : State).kernIdx.toNat < 65536
      ∧ 101 ≤ ({ s with lpfIdx := 101#64 } : State).lpfIdx.toNat ∧ ({ s with lpfIdx := 100#64 } : State).lpfIdx.toNat < 101
      ∧ ((tiny 1 (.bits [])).status.cfgValid = true
          ∧ (tiny 1 (.bits [])).kernIdx.toNat < (tiny 1 (.bits [])).rrcLen.toNat
          ∧ (tiny 1 (.bits [])).kern[(tiny 1 (.bits [])).kernIdx.toNat]? = some 0xBF9A10872694EA48#64
          ∧ (tiny 1 (.bits [])).lpf[(tiny 1 (.bits [])).lpfIdx.toNat]? = some 0x3F37949F45B69BBB#64)
      ∧ (write 0x190 7 s).word 0 0 = some 7#64 ∧ Memory.read (write 0x1C8 7 s).consts 0 = some ⟨7#32, 0#32⟩ := by
  decide +kernel

theorem test_hyp_bus_error_list :
    (4 ≠ 8 ∧ 0x02C % 8 ≠ 0) ∧ (8 = 8 ∧ 0x1E8 % 8 = 0)
      ∧ accessOffset 0x028 8 none State.reset ≠ .fault .busWindowRange :=
  ⟨by decide, by decide, by intro h; cases h⟩

/-- A host access at BASE, and one that reaches nothing. -/
theorem test_hyp_host_access :
    ({ State.reset with inbox := [.bus ⟨Config.base, 8, none⟩] } : State).inbox = .bus ⟨Config.base, 8, none⟩ :: []
      ∧ Config.base = Config.base + 0 ∧ (∀ off, off < 4096 → Config.base + 4096 ≠ Config.base + off)
      ∧ State.reset.inbox = [] ∧ State.reset.status.busy = false :=
  ⟨rfl, rfl, fun _ h => by omega, rfl, rfl⟩

/-- An access while BUSY that is answered, and that is no CTRL write; a read-only and a reserved target. -/
theorem test_hyp_busy_access :
    (busyWith 0x1010#64).status.busy = true
      ∧ (∃ t, accessOffset 0x048 8 (some 7#64) (busyWith 0x1010#64) = .next t) ∧ (0x048 = 0x020 → some 7#64 = none)
      ∧ 0x028 % 8 = 0 ∧ 0x028 ≤ 0x028 ∧ 0x1F0 % 8 = 0 ∧ 0x100 ∈ [0x0F8, 0x100] ∧ 0xFF8 % 8 = 0
      ∧ (0x1F0 ≤ 0xFF8 ∧ 0xFF8 ≤ 0xFF8) :=
  ⟨rfl, ⟨_, rfl⟩, by decide, by decide, by decide, by decide, by decide, by decide, by decide⟩

/-- A step from a state that meets the invariant. -/
theorem test_hyp_step_keeps_invariant :
    ∃ s t : State, s.Inv ∧ step s = .next t ∧ t.status.done = true := by
  refine ⟨small16.inFlight 0#64, _, ⟨?_, ?_, ?_, ?_⟩, rfl, rfl⟩
  · decide +kernel
  · decide +kernel
  · decide +kernel
  · intro h; exact absurd h (by decide +kernel)

theorem test_hyp_round_half_even : (0 : ℚ) ≤ 5 / 2 ∧ |(roundHalfEven (5 / 2) : ℚ) - 5 / 2| = 1 / 2 := by decide +kernel

theorem test_hyp_scale : 2 ≤ 2 ∧ 12 ∈ [4, 6, 8, 10, 12] := by decide

theorem test_hyp_kernel_symmetric : 1 ≤ 11 ∧ 11 < 3 * 4 := by decide

theorem test_hyp_nco : 19 < 20 := by decide

/-- A zero, a negative rational, a square root and an integer, with both sides of the overflow threshold. -/
theorem test_hyp_rounding :
    0 < 1 ∧ (0 : ℚ) ≤ 0 ∧ (-1 / 3 : ℚ) < 0 ∧ F64.sign (rnRat (-1 / 3)) = true
      ∧ F64.roundRatio true 1 (2 ^ 1080) = F64.zero true
      ∧ F64.roundRatio false (2 ^ 1024 - 2 ^ 970) 1 = F64.infinity false
      ∧ F64.isFinite (F64.roundRatio false (2 ^ 1024 - 2 ^ 970 - 1) 1) = true := by decide +kernel

/-- A tie, between 0 and the least subnormal value. -/
theorem test_hyp_rounding_tie :
    F64.roundRatio false 1 (2 ^ 1075) = 0#64 ∧ F64.isFinite 1#64 = true ∧ F64.toRat 1#64 ≠ F64.toRat 0#64
      ∧ |F64.toRat 1#64 - (1 : ℚ) / 2 ^ 1075| = |F64.toRat 0#64 - (1 : ℚ) / 2 ^ 1075| := by decide +kernel

/-- Finite operands with a sum of 0, a zero, a negative value, the infinities and a NaN. -/
theorem test_hyp_float_operations :
    (F64.isFinite p1 = true ∧ F64.isFinite m1 = true ∧ F64.toRat p1 + F64.toRat m1 = 0 ∧ F64.toRat p1 - F64.toRat p1 = 0
        ∧ F64.toRat m1 ≠ 0 ∧ F64.toRat m1 < 0 ∧ 0 ≤ F64.toRat p1)
      ∧ (F64.isFinite 0x8000000000000000#64 = true ∧ F64.toRat 0x8000000000000000#64 = 0)
      ∧ F64.infinity true = 0xFFF0000000000000#64 ∧ F64.infinity false = 0x7FF0000000000000#64
      ∧ F64.isNaN 0x7FF0000000000001#64 = true := by decide +kernel

/-- Taps that round: the one tap of an empty window, the last of 21 at half a sample, and the outermost and the middle one of
an RRC kernel of six. -/
theorem test_hyp_trig :
    128 ≤ 128
      ∧ ((windowedSincEnc 0 (fun _ => 0) 128)[0]?.bind Enc.round?) = some p1
      ∧ ((windowedSincEnc 20 (fun k => (k : ℚ) - 10 - 1 / 2) 128)[20]?.bind Enc.round?) = some 0xBF66161B37BDCEFA#64
      ∧ (0 : ℚ) < 1 / 2 ∧ (1 / 2 : ℚ) ≤ 1
      ∧ ((rrcEncs (1 / 2) 1 1 128)[0]?.bind Enc.round?).isSome = true
      ∧ ((rrcEncs (1 / 2) 1 1 128)[3]?.bind Enc.round?).isSome = true
      ∧ (309 : ℚ) ≤ 309 ∧ (-324 : ℚ) ≤ -324 := by decide +kernel

/-- An enclosure of 1/3 that rounds. -/
theorem test_hyp_enclosure :
    (⟨1, 1, 3⟩ : Enc).Holds (1 / 3) ∧ (⟨1, 1, 3⟩ : Enc).round? = some 0x3FD5555555555555#64 :=
  ⟨⟨by decide, by norm_num, by norm_num⟩, by decide +kernel⟩

/-- A list of one such enclosure at every precision. -/
theorem test_hyp_ladder :
    let enc : Nat → List Enc := fun _ => [⟨1, 1, 3⟩]
    (∀ p ∈ precisions, ∀ (k : Nat) (e : Enc), (enc p)[k]? = some e → e.round? ≠ none → e.Holds (1 / 3))
      ∧ (∃ p ∈ precisions, roundAll? (enc p) ≠ none) ∧ (rnList enc)[0]? = some 0x3FD5555555555555#64 := by
  refine ⟨fun p _ k e he _ => ?_, ⟨128, by decide, by decide +kernel⟩, by decide +kernel⟩
  rcases k with _ | k
  · have : e = ⟨1, 1, 3⟩ := by simpa using he.symm
    rw [this]; exact test_hyp_enclosure.1
  · simp at he

end Sys2Proof.Tests
end

section
/-! PROOFS. The engine's turn and a host access as one step (00_scope.md R13, 20_memory.md R62, R67). -/

namespace Sys2Proof.Machine

/-! Steps. -/

theorem step_of_inbox_nil {s : State} (h : s.inbox = []) : step s = engineTurn s := by
  unfold step; rw [h]

theorem step_of_inbox_cons {s : State} {e : HostEvent} {rest : List HostEvent} (h : s.inbox = e :: rest) :
    step s = handleEvent e { s with inbox := rest } := by
  unfold step; rw [h]

theorem engineTurn_of_idle {s : State} (h : s.status.busy = false) : engineTurn s = .next s := by
  unfold engineTurn; rw [h]; rfl

theorem engineTurn_of_decode {s : State} {i : Instr} (hbusy : s.status.busy = true) (hi : decode s.cmd = .ok i) :
    engineTurn s = exec i s := by
  unfold engineTurn engineStep; rw [hbusy, hi]; rfl

theorem busStep_of_offset {s : State} {a : BusAccess} {off : Nat} (h : blockOffset a.addr = some off) :
    busStep a s = accessOffset off a.width a.wdata s := by
  unfold busStep; rw [h]

theorem busStep_outside {s : State} {a : BusAccess} (h : blockOffset a.addr = none) : busStep a s = .next s := by
  unfold busStep; rw [h]

/-- Settles O4: the engine's turn, at an empty inbox or as its first event, decodes CMD. -/
theorem stepRunsDecodedCommand : Obligations.StepRunsDecodedCommand := by
  intro s i _ hi hbusy
  refine ⟨fun hnil => ?_, fun rest hcons => ?_⟩
  · rw [step_of_inbox_nil hnil, engineTurn_of_decode hbusy hi]
  · rw [step_of_inbox_cons hcons]
    exact engineTurn_of_decode (s := { s with inbox := rest }) hbusy hi

/-- Settles O45: inside the block an address is an offset, outside it is none, and idle nothing happens. -/
theorem hostAccessIsOneStep : Obligations.HostAccessIsOneStep := by
  refine ⟨base_mod, fun s a rest hcons => ⟨fun off hoff haddr => ?_, fun hout => ?_⟩, fun s hnil hidle => ?_⟩
  · rw [step_of_inbox_cons hcons]
    exact busStep_of_offset (haddr ▸ blockOffset_of_lt hoff)
  · rw [step_of_inbox_cons hcons]
    exact busStep_outside (blockOffset_outside hout)
  · rw [step_of_inbox_nil hnil, engineTurn_of_idle hidle]

end Sys2Proof.Machine
end

section
/-! PROOFS. RN of rationals, of their square roots and of integers (00_scope.md R8). -/

namespace Sys2Proof.Machine

/-! RN in general: zeros, and a word that is RN of two reals is RN of every real between them. -/

@[simp] theorem F64.isFinite_infinity (s : Bool) : F64.isFinite (F64.infinity s) = false := by cases s <;> decide

@[simp] theorem F64.sign_zero (s : Bool) : F64.sign (F64.zero s) = s := (F64.pack_fields s (by norm_num)).1

/-- The size from which RN answers an infinity (R8). -/
theorem overflow_pos : (0 : ℝ) < 2 ^ 1024 - 2 ^ 970 := sub_pos.2 (pow_lt_pow_right₀ (by norm_num) (by norm_num))

/-- A finite word of value 0 is RN of 0. -/
theorem isRN_zero_of_toRat {w : Word} (hf : F64.isFinite w = true) (h0 : (F64.toRat w : ℝ) = 0) : IsRN 0 w := by
  have hΘ := overflow_pos
  refine ⟨fun _ => ⟨⟨hf, fun v _ => by simp [h0]⟩, fun v _ hne heq => ?_⟩, fun h => absurd h (not_le.2 hΘ),
    fun h => absurd h (not_le.2 (neg_lt_zero.2 hΘ))⟩
  have hv : (F64.toRat v : ℝ) = F64.toRat w := by rw [h0]; simpa [h0] using heq
  exact absurd (by exact_mod_cast hv) hne

theorem isRN_zero (s : Bool) : IsRN 0 (F64.zero s) :=
  isRN_zero_of_toRat (by cases s <;> decide) (by
    have h : F64.toRat (F64.zero s) = 0 := by cases s <;> decide +kernel
    rw [h, Rat.cast_zero])

/-- Where the real lies that a word is RN of, read off the word. -/
theorem IsRN.range {x : ℝ} {w : Word} (h : IsRN x w) :
    (F64.isFinite w = true → |x| < 2 ^ 1024 - 2 ^ 970) ∧ (w = F64.infinity false → 2 ^ 1024 - 2 ^ 970 ≤ x)
      ∧ (w = F64.infinity true → x ≤ -(2 ^ 1024 - 2 ^ 970)) := by
  obtain ⟨hin, hpos, hneg⟩ := h
  generalize (2 ^ 1024 - 2 ^ 970 : ℝ) = Θ at *
  have hne : F64.infinity false ≠ F64.infinity true := by decide
  rcases lt_or_ge |x| Θ with h | h
  · have hf := (hin h).1.1
    exact ⟨fun _ => h, fun e => by simp [e] at hf, fun e => by simp [e] at hf⟩
  · rcases le_abs'.1 h with h | h
    · have hw := hneg h
      exact ⟨fun hf => by simp [hw] at hf, fun e => absurd (e.symm.trans hw) hne, fun _ => h⟩
    · have hw := hpos h
      exact ⟨fun hf => by simp [hw] at hf, fun _ => h, fun e => absurd (hw.symm.trans e) hne⟩

/-- A word is finite or an infinity where it is RN of something. -/
theorem IsRN.finite_or_infinity {x : ℝ} {w : Word} (h : IsRN x w) :
    F64.isFinite w = true ∨ w = F64.infinity false ∨ w = F64.infinity true := by
  obtain ⟨hin, hpos, hneg⟩ := h
  rcases lt_or_ge |x| (2 ^ 1024 - 2 ^ 970) with h | h
  · exact .inl (hin h).1.1
  · rcases le_abs'.1 h with h | h
    · exact .inr (.inr (hneg h))
    · exact .inr (.inl (hpos h))

/-- The reals nearer to `w` than to `v` form an interval; equally near to both is the middle only. -/
theorem nearer_between {a b x w v : ℝ} (hax : a ≤ x) (hxb : x ≤ b) (ha : |w - a| ≤ |v - a|) (hb : |w - b| ≤ |v - b|) :
    |w - x| ≤ |v - x| ∧ (v ≠ w → |v - x| = |w - x| → x = a ∨ x = b) := by
  rw [← sq_le_sq] at ha hb ⊢
  rw [← sq_eq_sq_iff_abs_eq_abs]
  rcases lt_trichotomy v w with hvw | hvw | hvw
  · have h : w + v ≤ 2 * a := by nlinarith
    refine ⟨by nlinarith, fun _ he => .inl ?_⟩
    have : (w - v) * (w + v - 2 * x) = 0 := by linear_combination -he
    rcases mul_eq_zero.1 this with h | h <;> linarith
  · exact ⟨by rw [hvw], fun hne => absurd hvw hne⟩
  · have h : 2 * b ≤ w + v := by nlinarith
    refine ⟨by nlinarith, fun _ he => .inr ?_⟩
    have : (w - v) * (w + v - 2 * x) = 0 := by linear_combination -he
    rcases mul_eq_zero.1 this with h | h <;> linarith

/-- RN is monotone: a word that is RN of both ends of an interval is RN of everything in it. -/
theorem IsRN.between {a b x : ℝ} {w : Word} (ha : IsRN a w) (hb : IsRN b w) (hax : a ≤ x) (hxb : x ≤ b) : IsRN x w := by
  obtain ⟨afin, apos, aneg⟩ := ha.range
  obtain ⟨bfin, bpos, bneg⟩ := hb.range
  obtain ⟨ain, -, -⟩ := ha
  obtain ⟨bin, -, -⟩ := id hb
  have hcases := hb.finite_or_infinity
  have hΘ := overflow_pos
  unfold IsRN
  generalize (2 ^ 1024 - 2 ^ 970 : ℝ) = Θ at *
  rcases hcases with hw | hw | hw
  · obtain ⟨⟨-, anear⟩, atie⟩ := ain (afin hw)
    obtain ⟨⟨-, bnear⟩, btie⟩ := bin (bfin hw)
    have ha' := abs_lt.1 (afin hw)
    have hb' := abs_lt.1 (bfin hw)
    refine ⟨fun _ => ⟨⟨hw, fun v hv => (nearer_between hax hxb (anear v hv) (bnear v hv)).1⟩, fun v hv hne heq => ?_⟩,
      fun h => by linarith, fun h => by linarith⟩
    have hne' : (F64.toRat v : ℝ) ≠ F64.toRat w := by exact_mod_cast hne
    rcases (nearer_between hax hxb (anear v hv) (bnear v hv)).2 hne' heq with rfl | rfl
    · exact atie v hv hne heq
    · exact btie v hv hne heq
  · have := apos hw
    exact ⟨fun h => absurd (abs_lt.1 h).2 (by linarith), fun _ => hw, fun h => by linarith⟩
  · have := bneg hw
    exact ⟨fun h => absurd (abs_lt.1 h).1 (by linarith), fun h => by linarith, fun _ => hw⟩

/-! RN of a ratio, of a rational, of a root and of an integer. -/

/-- A significand over `d` in units of `2^q`, as the two forms of the model's integer rounding take it. -/
theorem ratio_div_zpow (n d b : Nat) (q : ℤ) :
    (0 ≤ q → (n : ℝ) / ((d * b ^ q.toNat : Nat) : ℝ) = (n : ℝ) / d / (b : ℝ) ^ q)
      ∧ (¬ 0 ≤ q → ((n * b ^ (-q).toNat : Nat) : ℝ) / d = (n : ℝ) / d / (b : ℝ) ^ q) := by
  constructor
  · intro h
    lift q to ℕ using h
    rw [Int.toNat_natCast, zpow_natCast]; push_cast; rw [div_div]
  · intro h
    obtain ⟨j, rfl⟩ : ∃ j : ℕ, q = -j := ⟨(-q).toNat, by omega⟩
    rw [neg_neg, Int.toNat_natCast, zpow_neg, zpow_natCast, div_inv_eq_mul]; push_cast; ring

/-- `roundRatio` is RN of `± n / d` and keeps the sign it is given. -/
theorem roundRatio_spec (neg : Bool) (n : Nat) {d : Nat} (hd : 0 < d) :
    IsRN (if neg then -((n : ℝ) / d) else (n : ℝ) / d) (F64.roundRatio neg n d)
      ∧ F64.sign (F64.roundRatio neg n d) = neg := by
  unfold F64.roundRatio
  rcases Nat.eq_zero_or_pos n with rfl | hn
  · simpa using isRN_zero neg
  · rw [if_neg hn.ne']
    obtain ⟨hlo, hhi⟩ := ratLog2_spec hn hd
    refine isRN_ofUlps neg hlo hhi ?_
    obtain ⟨hnonneg, hneg⟩ := ratio_div_zpow n d 2 (ulpExp (ratLog2 n d))
    push_cast only [Nat.cast_ofNat] at hnonneg hneg
    split
    · next h => rw [← hnonneg h]; exact roundNearestEven_spec _ (by positivity)
    · next h => rw [← hneg h]; exact roundNearestEven_spec _ hd

/-- `roundSqrt` is RN of `√(n / d)`, with a plus sign. -/
theorem roundSqrt_spec (n : Nat) {d : Nat} (hd : 0 < d) :
    IsRN (Real.sqrt ((n : ℝ) / d)) (F64.roundSqrt n d) ∧ F64.sign (F64.roundSqrt n d) = false := by
  unfold F64.roundSqrt
  rcases Nat.eq_zero_or_pos n with rfl | hn
  · simpa using isRN_zero false
  · rw [if_neg hn.ne']
    obtain ⟨hlo, hhi⟩ := ratLog2_spec hn hd
    generalize ratLog2 n d = k at *
    have h4 : ∀ q : ℤ, (4 : ℝ) ^ q = (2 ^ q) ^ 2 := fun q => by
      rw [show (4 : ℝ) = 2 ^ (2 : ℤ) by norm_num, ← zpow_mul, mul_comm, zpow_mul]; norm_cast
    have root : ∀ q : ℤ, Real.sqrt ((n : ℝ) / d / (4 : ℝ) ^ q) = Real.sqrt ((n : ℝ) / d) / 2 ^ q := fun q => by
      rw [h4, Real.sqrt_div (by positivity), Real.sqrt_sq (by positivity)]
    refine isRN_ofUlps false (x := Real.sqrt ((n : ℝ) / d)) (e := k / 2) ?_ ?_ ?_
    · refine Real.le_sqrt_of_sq_le (le_trans ?_ hlo)
      rw [← h4, show (4 : ℝ) = 2 ^ (2 : ℤ) by norm_num, ← zpow_mul]
      exact zpow_le_zpow_right₀ (by norm_num) (by omega)
    · rw [Real.sqrt_lt' (by positivity)]
      refine hhi.trans_le ?_
      rw [← h4, show (4 : ℝ) = 2 ^ (2 : ℤ) by norm_num, ← zpow_mul]
      exact zpow_le_zpow_right₀ (by norm_num) (by omega)
    · obtain ⟨hnonneg, hneg⟩ := ratio_div_zpow n d 4 (ulpExp (k / 2))
      push_cast only [Nat.cast_ofNat] at hnonneg hneg
      rw [← root]
      split
      · next h => rw [← hnonneg h]; exact roundSqrtUlps_spec _ (by positivity)
      · next h => rw [← hneg h]; exact roundSqrtUlps_spec _ hd

/-- A signed integer over a natural number, from its sign and its size. -/
theorem signed_natAbs_div (k : ℤ) (d : Nat) :
    (if decide (k < 0) then -((k.natAbs : ℝ) / d) else (k.natAbs : ℝ) / d) = (k : ℝ) / d := by
  rw [Nat.cast_natAbs, Int.cast_abs]
  by_cases h : k < 0
  · rw [if_pos (decide_eq_true h), abs_of_neg (by exact_mod_cast h), neg_div, neg_neg]
  · rw [if_neg (by simpa using h), abs_of_nonneg (by exact_mod_cast not_lt.1 h)]

theorem endWord_spec (n : ℤ) {d : Nat} (hd : 0 < d) :
    IsRN ((n : ℝ) / d) (Enc.endWord n d) ∧ F64.sign (Enc.endWord n d) = decide (n < 0) := by
  obtain ⟨hrn, hsign⟩ := roundRatio_spec (decide (n < 0)) n.natAbs hd
  rw [signed_natAbs_div] at hrn
  exact ⟨hrn, hsign⟩

theorem rnRat_spec (q : ℚ) : IsRN q (rnRat q) ∧ (F64.sign (rnRat q) = true ↔ q < 0) := by
  obtain ⟨hrn, hsign⟩ := endWord_spec q.num q.den_pos
  have hw : rnRat q = Enc.endWord q.num q.den := by unfold rnRat Enc.endWord; simp only [Rat.num_neg]
  rw [hw, Rat.cast_def]
  exact ⟨hrn, by rw [hsign, decide_eq_true_iff, Rat.num_neg]⟩

theorem rnSqrtRat_spec {q : ℚ} (hq : 0 ≤ q) : IsRN (Real.sqrt q) (rnSqrtRat q) ∧ F64.sign (rnSqrtRat q) = false := by
  have hcast : (q : ℝ) = (q.num.natAbs : ℝ) / q.den := by
    rw [Rat.cast_def, Nat.cast_natAbs, abs_of_nonneg (Rat.num_nonneg.2 hq)]
  rw [hcast]
  exact roundSqrt_spec _ q.den_pos

theorem f64_spec (k : ℤ) : IsRN k (f64 k) := by
  have h := (endWord_spec k one_pos).1
  rwa [Nat.cast_one, div_one] at h

/-- Settles O57, from the integer roundings in the units of the value's binade. -/
theorem roundingIsNearestEven : Obligations.RoundingIsNearestEven :=
  ⟨fun neg n _ hd => roundRatio_spec neg n hd, rnRat_spec, by decide, fun _ hq => rnSqrtRat_spec hq, f64_spec⟩

end Sys2Proof.Machine
end

section
/-! PROOFS. Rounding an enclosure, and the ladder of precisions (00_scope.md R8, log 10). -/

namespace Sys2Proof.Machine

/-- The two ways an enclosure rounds: it is exactly 0, or it keeps off the sign change and both ends round alike. -/
theorem Enc.round?_cases {e : Enc} {w : Word} (h : e.round? = some w) :
    (e.lo = 0 ∧ e.hi = 0 ∧ w = 0#64)
      ∨ ((0 ≤ e.lo ∨ e.hi < 0) ∧ Enc.endWord e.lo e.den = w ∧ Enc.endWord e.hi e.den = w) := by
  unfold Enc.round? at h
  split at h
  · next h0 => exact .inl ⟨h0.1, h0.2, by simpa using h.symm⟩
  · split at h
    · cases h
    · next hsign =>
      split at h
      · next heq =>
        have hw : Enc.endWord e.lo e.den = w := by simpa using h
        exact .inr ⟨by omega, hw, heq ▸ hw⟩
      · cases h

/-- An enclosure that straddles 0 does not round. -/
theorem Enc.round?_of_straddle {e : Enc} (hlo : e.lo < 0) (hhi : 0 ≤ e.hi) : e.round? = none := by
  unfold Enc.round?
  rw [if_neg (by omega), if_pos ⟨hlo, hhi⟩]

/-- The word an enclosure rounds to is RN of every real it holds, with the real's sign. -/
theorem Enc.round?_sound {e : Enc} {w : Word} {x : ℝ} (hx : e.Holds x) (h : e.round? = some w) :
    IsRN x w ∧ (F64.sign w = true ↔ x < 0) := by
  obtain ⟨hden, hlo, hhi⟩ := hx
  have hd : (0 : ℝ) < e.den := by exact_mod_cast hden
  rcases Enc.round?_cases h with ⟨hlo0, hhi0, rfl⟩ | ⟨hside, hwlo, hwhi⟩
  · rw [hlo0, Int.cast_zero] at hlo
    rw [hhi0, Int.cast_zero] at hhi
    have hx0 : x = 0 := (mul_eq_zero.1 (le_antisymm hhi hlo)).resolve_right hd.ne'
    rw [hx0]
    exact ⟨isRN_zero false, by simp [F64.sign]⟩
  · obtain ⟨rnlo, signlo⟩ := endWord_spec e.lo hden
    obtain ⟨rnhi, signhi⟩ := endWord_spec e.hi hden
    rw [hwlo] at rnlo signlo
    rw [hwhi] at rnhi signhi
    refine ⟨rnlo.between rnhi ((div_le_iff₀ hd).2 hlo) ((le_div_iff₀ hd).2 hhi), ?_⟩
    rcases hside with hpos | hneg
    · have hx : 0 ≤ x * e.den := le_trans (by exact_mod_cast hpos) hlo
      simp [signlo, not_lt.2 hpos, nonneg_of_mul_nonneg_left hx hd]
    · have hx : x * e.den < 0 := lt_of_le_of_lt hhi (by exact_mod_cast hneg)
      simp [signhi, hneg, neg_of_mul_neg_left hx hd.le]

/-- The words of a list that rounds are those of its enclosures. -/
theorem roundAll?_getElem? : ∀ {es : List Enc} {ws : List Word} {k : Nat} {w : Word},
    roundAll? es = some ws → ws[k]? = some w → ∃ e, es[k]? = some e ∧ e.round? = some w
  | [], ws, k, w, h, hk => by
    obtain rfl : [] = ws := by simpa [roundAll?] using h
    simp at hk
  | e :: es, ws, k, w, h, hk => by
    simp only [roundAll?] at h
    split at h
    · next v vs hv hvs =>
      obtain rfl : v :: vs = ws := by simpa using h
      cases k with
      | zero => exact ⟨e, rfl, by rw [hv]; simpa using hk⟩
      | succ k => exact roundAll?_getElem? (es := es) (k := k) hvs (by simpa using hk)
    · cases h

/-- Where some precision of the list rounds everything, the ladder answers the words of one such precision. -/
theorem rnListAt_of_rounds (enc : Nat → List Enc) :
    ∀ ps : List Nat, (∃ p ∈ ps, roundAll? (enc p) ≠ none) → ∃ p ∈ ps, roundAll? (enc p) = some (rnListAt enc ps)
  | [], h => by simp at h
  | p :: ps, h => by
    simp only [rnListAt]
    cases hp : roundAll? (enc p) with
    | some ws => exact ⟨p, by simp, hp⟩
    | none =>
      have hps : ∃ p ∈ ps, roundAll? (enc p) ≠ none := by simpa [hp] using h
      obtain ⟨p', hmem, hp'⟩ := rnListAt_of_rounds enc ps hps
      exact ⟨p', List.mem_cons_of_mem _ hmem, hp'⟩

/-- Settles O60: RN is monotone, and the ladder answers the rounded enclosures of one precision. -/
theorem enclosureRoundingIsSound : Obligations.EnclosureRoundingIsSound := by
  refine ⟨fun _ _ _ hx h => Enc.round?_sound hx h, fun enc x hholds hrounds k w hw => ?_⟩
  obtain ⟨p, hp, hall⟩ := rnListAt_of_rounds enc precisions hrounds
  obtain ⟨e, he, hround⟩ := roundAll?_getElem? hall hw
  exact Enc.round?_sound (hholds p hp k e he (by simp [hround])) hround

end Sys2Proof.Machine
end

section
/-! PROOFS. The f-operations on finite values, infinities and NaNs (00_scope.md R8, IEEE 754). -/

namespace Sys2Proof.Machine

/-! The three forms of a word. -/

@[simp] theorem F64.val_infinity (s : Bool) : F64.val (F64.infinity s) = .inf s := by cases s <;> decide

theorem F64.val_eq_nan {x : Word} (h : F64.isNaN x = true) : F64.val x = .nan := by
  obtain ⟨he, hf⟩ : F64.expo x = 0x7FF ∧ F64.frac x ≠ 0 := by simpa [F64.isNaN] using h
  unfold F64.val
  rw [if_pos he, if_neg hf]

/-- A finite value is 0 exactly where its significand is. -/
theorem F64.toRat_eq_zero_iff {x : Word} {s : Bool} {m e : Nat} (h : F64.val x = .fin s m e) :
    (F64.toRat x : ℝ) = 0 ↔ m = 0 := by
  rw [F64.toRat_of_val h]
  cases s <;> simp [zpow_ne_zero]

/-- The free NaN has its exponent and its fraction's top bit set, whatever the free bits. -/
theorem isQuietNaN_qnan (σ : Site) : IsQuietNaN (F64.qnan σ) := by
  unfold F64.qnan
  generalize Config.freeNaN σ.draw σ.path = c
  have hbit : ∀ i, (c ||| 0x7FF8000000000000#64).getLsbD i = (c.getLsbD i || (0x7FF8000000000000#64).getLsbD i) :=
    fun _ => BitVec.getLsbD_or
  have hexpo : F64.expo (c ||| 0x7FF8000000000000#64) = 0x7FF := by
    have h : (c ||| 0x7FF8000000000000#64).extractLsb' 52 11 = 0x7FF#11 := by
      rw [BitVec.extractLsb'_or]
      exact BitVec.or_allOnes
    rw [F64.expo, h]; rfl
  have hquiet : (c ||| 0x7FF8000000000000#64).getLsbD 51 = true := by rw [hbit]; simp
  have hfrac : F64.frac (c ||| 0x7FF8000000000000#64) ≠ 0 := by
    intro h0
    have h : (c ||| 0x7FF8000000000000#64).extractLsb' 0 52 = 0#52 := BitVec.eq_of_toNat_eq h0
    have h51 := congrArg (·.getLsbD 51) h
    simp at h51
  exact ⟨by simp [F64.isNaN, hexpo, hfrac], hquiet⟩

/-! Negation. -/

/-- A value with the other sign. -/
def FVal.neg : FVal → FVal
  | .nan => .nan
  | .inf s => .inf !s
  | .fin s m e => .fin (!s) m e

theorem F64.val_fneg (x : Word) : F64.val (fneg x) = (F64.val x).neg := by
  have hs : F64.sign (fneg x) = !F64.sign x := by simp [F64.sign, fneg]
  have he : F64.expo (fneg x) = F64.expo x := by
    simp only [F64.expo, fneg, BitVec.extractLsb'_xor]
    exact congrArg BitVec.toNat BitVec.xor_zero
  have hf : F64.frac (fneg x) = F64.frac x := by
    simp only [F64.frac, fneg, BitVec.extractLsb'_xor]
    exact congrArg BitVec.toNat BitVec.xor_zero
  unfold F64.val
  rw [hs, he, hf]
  split
  · split <;> rfl
  · split <;> rfl

@[simp] theorem fneg_infinity (s : Bool) : fneg (F64.infinity s) = F64.infinity (!s) := by cases s <;> decide

/-! Rounding a signed dyadic value. -/

/-- `± m · 2^k` for a sign `s`. -/
noncomputable def signedDyadic (s : Bool) (m : ℝ) (k : ℤ) : ℝ := (if s then -1 else 1) * (m * 2 ^ k)

theorem signedDyadic_eq_ite (s : Bool) (m : ℝ) (k : ℤ) :
    signedDyadic s m k = if s then -(m * 2 ^ k) else m * 2 ^ k := by
  cases s <;> simp [signedDyadic]

theorem F64.toRat_eq_signedDyadic {x : Word} {s : Bool} {m e : Nat} (h : F64.val x = .fin s m e) :
    (F64.toRat x : ℝ) = signedDyadic s m ((e : ℤ) - 1075) := F64.toRat_of_val h

theorem signedDyadic_mul (s t : Bool) (m n : ℝ) (k l : ℤ) :
    signedDyadic s m k * signedDyadic t n l = signedDyadic (s ^^ t) (m * n) (k + l) := by
  simp only [signedDyadic, zpow_add₀ (two_ne_zero (α := ℝ))]
  cases s <;> cases t <;> simp <;> ring

theorem signedDyadic_div (s t : Bool) (m n : ℝ) (k l : ℤ) :
    signedDyadic s m k / signedDyadic t n l = signedDyadic (s ^^ t) (m / n) (k - l) := by
  simp only [signedDyadic, zpow_sub₀ (two_ne_zero (α := ℝ)), mul_div_mul_comm]
  cases s <;> cases t <;> simp

/-- Moving the exponent to a lower one. -/
theorem signedDyadic_shift (s : Bool) (m : ℝ) (k : ℤ) (j : Nat) :
    signedDyadic s m (k + j) = signedDyadic s (m * 2 ^ j) k := by
  simp only [signedDyadic, zpow_add₀ (two_ne_zero (α := ℝ)), zpow_natCast]
  ring

/-- A significand scaled by `2^(e - c)` as a ratio, where the exponent is not below 0. -/
theorem scaled_up (m : Nat) {e c : Nat} (h : c ≤ e) :
    ((m * 2 ^ (e - c) : Nat) : ℝ) / ((1 : Nat) : ℝ) = m * 2 ^ ((e : ℤ) - c) := by
  rw [show (e : ℤ) - c = (e - c : Nat) by omega, zpow_natCast]; push_cast; ring

/-- A significand scaled by `2^(e - c)` as a ratio, where the exponent is below 0. -/
theorem scaled_down (m : Nat) {e c : Nat} (h : ¬ c ≤ e) :
    (m : ℝ) / ((2 ^ (c - e) : Nat) : ℝ) = m * 2 ^ ((e : ℤ) - c) := by
  rw [show (e : ℤ) - c = -(c - e : Nat) by omega, zpow_neg, zpow_natCast]; push_cast; ring

/-- A signed significand scaled by `2^(e - c)` rounds to RN of the value, with its sign. -/
theorem isRN_scaled (neg : Bool) (m e c : Nat) :
    let w := if c ≤ e then F64.roundRatio neg (m * 2 ^ (e - c)) 1 else F64.roundRatio neg m (2 ^ (c - e))
    IsRN (signedDyadic neg m ((e : ℤ) - c)) w ∧ F64.sign w = neg := by
  dsimp only
  rw [signedDyadic_eq_ite]
  by_cases h : c ≤ e
  · rw [if_pos h, ← scaled_up m h]; exact roundRatio_spec neg _ one_pos
  · rw [if_neg h, ← scaled_down m h]; exact roundRatio_spec neg m (Nat.two_pow_pos _)

/-- The square root of a significand scaled by `2^(e - c)` rounds to RN of it. -/
theorem isRN_sqrt_scaled (m e c : Nat) :
    IsRN (Real.sqrt (m * 2 ^ ((e : ℤ) - c)))
      (if c ≤ e then F64.roundSqrt (m * 2 ^ (e - c)) 1 else F64.roundSqrt m (2 ^ (c - e))) := by
  by_cases h : c ≤ e
  · rw [if_pos h, ← scaled_up m h]; exact (roundSqrt_spec _ one_pos).1
  · rw [if_neg h, ← scaled_down m h]; exact (roundSqrt_spec m (Nat.two_pow_pos _)).1

theorem roundDyadic_spec (neg : Bool) (m e : Nat) :
    IsRN (signedDyadic neg m ((e : ℤ) - 1075)) (F64.roundDyadic neg m e) := (isRN_scaled neg m e 1075).1

/-! Sums. -/

/-- `± m` in units of `2^(g - 1075)`, for a value `± m · 2^(e - 1075)` and an exponent `g` up to `e`. -/
def alignedInt (s : Bool) (m e g : Nat) : ℤ :=
  if s then -((m * 2 ^ (e - g) : Nat) : ℤ) else ((m * 2 ^ (e - g) : Nat) : ℤ)

theorem signedDyadic_eq_alignedInt (s : Bool) (m : Nat) {e g : Nat} (h : g ≤ e) :
    signedDyadic s m ((e : ℤ) - 1075) = alignedInt s m e g * 2 ^ ((g : ℤ) - 1075) := by
  rw [show (e : ℤ) - 1075 = (g : ℤ) - 1075 + (e - g : Nat) by omega, signedDyadic_shift, signedDyadic_eq_ite]
  cases s <;> simp [alignedInt]

theorem addFin_eq (s t : Bool) (m e n f : Nat) :
    F64.addFin s m e t n f =
      let sum := alignedInt s m e (min e f) + alignedInt t n f (min e f)
      if sum = 0 then F64.zero (s && t) else F64.roundDyadic (decide (sum < 0)) sum.natAbs (min e f) := rfl

/-- The sum of two finite values, as an integer in units of the lower exponent: RN of it, and the zero of IEEE 754 where
it is 0. -/
theorem addFin_spec (s t : Bool) (m e n f : Nat) :
    let x := signedDyadic s m ((e : ℤ) - 1075)
    let y := signedDyadic t n ((f : ℤ) - 1075)
    IsRN (x + y) (F64.addFin s m e t n f) ∧ (x + y = 0 → F64.addFin s m e t n f = F64.zero (s && t)) := by
  dsimp only
  rw [addFin_eq, signedDyadic_eq_alignedInt s m (min_le_left e f), signedDyadic_eq_alignedInt t n (min_le_right e f),
    ← add_mul, ← Int.cast_add]
  dsimp only
  generalize alignedInt s m e (min e f) + alignedInt t n f (min e f) = sum
  generalize min e f = g
  have hu : (2 : ℝ) ^ ((g : ℤ) - 1075) ≠ 0 := zpow_ne_zero _ two_ne_zero
  split
  · next h0 => rw [h0, Int.cast_zero, zero_mul]; exact ⟨isRN_zero _, fun _ => rfl⟩
  · next h0 =>
    refine ⟨?_, fun h => absurd (by simpa [hu] using h) h0⟩
    have key := roundDyadic_spec (decide (sum < 0)) sum.natAbs g
    have hval : signedDyadic (decide (sum < 0)) sum.natAbs ((g : ℤ) - 1075) = sum * 2 ^ ((g : ℤ) - 1075) := by
      have h := signed_natAbs_div sum 1
      rw [Nat.cast_one, div_one, div_one] at h
      rw [signedDyadic_eq_ite, ← h, ite_mul, neg_mul]
    rwa [hval] at key

section Operands
variable {σ : Site} {a b : Word} {s t : Bool} {m e n f : Nat}

/-! Finite operands. -/

theorem fadd_of_fin (ha : F64.val a = .fin s m e) (hb : F64.val b = .fin t n f) :
    IsRN ((F64.toRat a : ℝ) + F64.toRat b) (fadd σ a b)
      ∧ ((F64.toRat a : ℝ) + F64.toRat b = 0 → fadd σ a b = F64.zero (s && t)) := by
  have h : fadd σ a b = F64.addFin s m e t n f := by simp only [fadd, ha, hb]
  rw [h, F64.toRat_eq_signedDyadic ha, F64.toRat_eq_signedDyadic hb]
  exact addFin_spec s t m e n f

/-- The value of a negated finite word. -/
theorem F64.toRat_fneg (hb : F64.val b = .fin t n f) : (F64.toRat (fneg b) : ℝ) = -F64.toRat b := by
  have hn : F64.val (fneg b) = .fin (!t) n f := by rw [F64.val_fneg, hb]; rfl
  rw [F64.toRat_of_val hn, F64.toRat_of_val hb]
  cases t <;> simp

theorem fsub_of_fin (ha : F64.val a = .fin s m e) (hb : F64.val b = .fin t n f) :
    IsRN ((F64.toRat a : ℝ) - F64.toRat b) (fsub σ a b)
      ∧ ((F64.toRat a : ℝ) - F64.toRat b = 0 → fsub σ a b = F64.zero (s && !t)) := by
  have hn : F64.val (fneg b) = .fin (!t) n f := by rw [F64.val_fneg, hb]; rfl
  rw [sub_eq_add_neg, ← F64.toRat_fneg hb]
  exact fadd_of_fin ha hn

theorem fmul_of_fin (ha : F64.val a = .fin s m e) (hb : F64.val b = .fin t n f) :
    IsRN ((F64.toRat a : ℝ) * F64.toRat b) (fmul σ a b) ∧ F64.sign (fmul σ a b) = (s ^^ t) := by
  have h : fmul σ a b = if 2150 ≤ e + f then F64.roundRatio (s ^^ t) (m * n * 2 ^ (e + f - 2150)) 1
      else F64.roundRatio (s ^^ t) (m * n) (2 ^ (2150 - (e + f))) := by simp only [fmul, ha, hb]
  rw [h, F64.toRat_eq_signedDyadic ha, F64.toRat_eq_signedDyadic hb, signedDyadic_mul]
  have key := isRN_scaled (s ^^ t) (m * n) (e + f) 2150
  push_cast at key
  rwa [show (e : ℤ) - 1075 + (f - 1075) = e + f - 2150 by ring]

theorem fdiv_of_fin (ha : F64.val a = .fin s m e) (hb : F64.val b = .fin t n f) (hn : n ≠ 0) :
    IsRN ((F64.toRat a : ℝ) / F64.toRat b) (fdiv σ a b) ∧ F64.sign (fdiv σ a b) = (s ^^ t) := by
  have h : fdiv σ a b = F64.roundRatio (s ^^ t) (m * 2 ^ (e - f)) (n * 2 ^ (f - e)) := by
    simp only [fdiv, ha, hb, if_neg hn]
  have key := roundRatio_spec (s ^^ t) (m * 2 ^ (e - f)) (Nat.mul_pos (Nat.pos_of_ne_zero hn) (Nat.two_pow_pos (f - e)))
  have hval : ((m * 2 ^ (e - f) : Nat) : ℝ) / ((n * 2 ^ (f - e) : Nat) : ℝ) = (m : ℝ) / n * 2 ^ ((e : ℤ) - f) := by
    rw [show (e : ℤ) - f = (e - f : Nat) - (f - e : Nat) by omega, zpow_sub₀ two_ne_zero, zpow_natCast, zpow_natCast]
    push_cast
    exact mul_div_mul_comm _ _ _ _
  rw [hval, ← signedDyadic_eq_ite] at key
  rw [h, F64.toRat_eq_signedDyadic ha, F64.toRat_eq_signedDyadic hb, signedDyadic_div,
    show (e : ℤ) - 1075 - (f - 1075) = e - f by ring]
  exact key

theorem fdiv_of_fin_zero (ha : F64.val a = .fin s m e) (hb : F64.val b = .fin t 0 f) :
    (m ≠ 0 → fdiv σ a b = F64.infinity (s ^^ t)) ∧ (m = 0 → IsQuietNaN (fdiv σ a b)) := by
  refine ⟨fun hm => by simp [fdiv, ha, hb, hm], fun hm => ?_⟩
  have h : fdiv σ a b = F64.qnan σ := by simp [fdiv, ha, hb, hm]
  rw [h]; exact isQuietNaN_qnan σ

theorem fsqrt_of_fin (ha : F64.val a = .fin s m e) :
    (m = 0 → fsqrt σ a = a) ∧ (m ≠ 0 → s = true → IsQuietNaN (fsqrt σ a))
      ∧ (m ≠ 0 → s = false → IsRN (Real.sqrt (F64.toRat a)) (fsqrt σ a)) := by
  refine ⟨fun hm => by simp [fsqrt, ha, hm], fun hm hs => ?_, fun hm hs => ?_⟩
  · have h : fsqrt σ a = F64.qnan σ := by simp [fsqrt, ha, hm, hs]
    rw [h]; exact isQuietNaN_qnan σ
  · have h : fsqrt σ a = if 1075 ≤ e then F64.roundSqrt (m * 2 ^ (e - 1075)) 1 else F64.roundSqrt m (2 ^ (1075 - e)) := by
      simp [fsqrt, ha, hm, hs]
    rw [h, F64.toRat_eq_signedDyadic ha, signedDyadic_eq_ite, hs]
    exact isRN_sqrt_scaled m e 1075

/-- The sign of a finite value other than 0 is its sign bit. -/
theorem F64.toRat_neg_iff (ha : F64.val a = .fin s m e) (hm : m ≠ 0) : (F64.toRat a : ℝ) < 0 ↔ s = true := by
  have hpos : (0 : ℝ) < m * 2 ^ ((e : ℤ) - 1075) := by positivity
  rw [F64.toRat_eq_signedDyadic ha, signedDyadic_eq_ite]
  cases s
  · simp [hpos.le]
  · simp [hpos]

/-! An infinity and a finite operand. -/

theorem fadd_inf_fin (ha : F64.val a = .inf s) (hb : F64.val b = .fin t n f) : fadd σ a b = a ∧ fadd σ b a = a := by
  simp [fadd, ha, hb]

theorem fsub_inf_fin (ha : F64.val a = .inf s) (hb : F64.val b = .fin t n f) :
    fsub σ a b = a ∧ fsub σ b a = fneg a := by
  have hna : F64.val (fneg a) = .inf (!s) := by rw [F64.val_fneg, ha]; rfl
  have hnb : F64.val (fneg b) = .fin (!t) n f := by rw [F64.val_fneg, hb]; rfl
  exact ⟨(fadd_inf_fin ha hnb).1, (fadd_inf_fin hna hb).2⟩

theorem fmul_inf_fin (ha : F64.val a = .inf s) (hb : F64.val b = .fin t n f) :
    (n ≠ 0 → fmul σ a b = F64.infinity (s ^^ t) ∧ fmul σ b a = F64.infinity (s ^^ t))
      ∧ (n = 0 → IsQuietNaN (fmul σ a b) ∧ IsQuietNaN (fmul σ b a)) := by
  refine ⟨fun hn => by simp [fmul, ha, hb, hn, Bool.xor_comm], fun hn => ?_⟩
  have hl : fmul σ a b = F64.qnan σ := by simp [fmul, ha, hb, hn]
  have hr : fmul σ b a = F64.qnan σ := by simp [fmul, ha, hb, hn]
  rw [hl, hr]
  exact ⟨isQuietNaN_qnan σ, isQuietNaN_qnan σ⟩

theorem fdiv_inf_fin (ha : F64.val a = .inf s) (hb : F64.val b = .fin t n f) :
    fdiv σ a b = F64.infinity (s ^^ t) ∧ fdiv σ b a = F64.zero (s ^^ t) := by
  simp [fdiv, ha, hb, Bool.xor_comm]

/-! Two infinities, the root of one, and NaNs. -/

theorem fadd_inf_inf (ha : F64.val a = .inf s) (hb : F64.val b = .inf t) :
    (s = t → fadd σ a b = a) ∧ (s ≠ t → IsQuietNaN (fadd σ a b)) := by
  refine ⟨fun h => by simp [fadd, ha, hb, h], fun h => ?_⟩
  have hq : fadd σ a b = F64.qnan σ := by simp [fadd, ha, hb, h]
  rw [hq]; exact isQuietNaN_qnan σ

theorem fsub_inf_inf (ha : F64.val a = .inf s) (hb : F64.val b = .inf t) :
    (s = t → IsQuietNaN (fsub σ a b)) ∧ (s ≠ t → fsub σ a b = a) := by
  have hn : F64.val (fneg b) = .inf (!t) := by rw [F64.val_fneg, hb]; rfl
  obtain ⟨hsame, hdiff⟩ := fadd_inf_inf (σ := σ) ha hn
  exact ⟨fun h => hdiff (by simp [h]), fun h => hsame (Bool.eq_not.2 h)⟩

theorem fmul_inf_inf (ha : F64.val a = .inf s) (hb : F64.val b = .inf t) : fmul σ a b = F64.infinity (s ^^ t) := by
  simp only [fmul, ha, hb]

theorem fdiv_inf_inf (ha : F64.val a = .inf s) (hb : F64.val b = .inf t) : IsQuietNaN (fdiv σ a b) := by
  have hq : fdiv σ a b = F64.qnan σ := by simp only [fdiv, ha, hb]
  rw [hq]; exact isQuietNaN_qnan σ

theorem fsqrt_inf (ha : F64.val a = .inf s) :
    (s = false → fsqrt σ a = a) ∧ (s = true → IsQuietNaN (fsqrt σ a)) := by
  refine ⟨fun h => by simp [fsqrt, ha, h], fun h => ?_⟩
  have hq : fsqrt σ a = F64.qnan σ := by simp [fsqrt, ha, h]
  rw [hq]; exact isQuietNaN_qnan σ

end Operands

theorem isQuietNaN_of_nan (σ : Site) {a b : Word} (h : F64.val a = .nan ∨ F64.val b = .nan) :
    IsQuietNaN (fadd σ a b) ∧ IsQuietNaN (fmul σ a b) ∧ IsQuietNaN (fdiv σ a b) := by
  have key : fadd σ a b = F64.qnan σ ∧ fmul σ a b = F64.qnan σ ∧ fdiv σ a b = F64.qnan σ := by
    rcases h with h | h
    · simp [fadd, fmul, fdiv, h]
    · cases ha : F64.val a <;> simp [fadd, fmul, fdiv, ha, h]
  obtain ⟨hadd, hmul, hdiv⟩ := key
  rw [hadd, hmul, hdiv]
  exact ⟨isQuietNaN_qnan σ, isQuietNaN_qnan σ, isQuietNaN_qnan σ⟩

theorem isQuietNaN_fsub_of_nan (σ : Site) {a b : Word} (h : F64.val a = .nan ∨ F64.val b = .nan) :
    IsQuietNaN (fsub σ a b) :=
  (isQuietNaN_of_nan σ (h.imp_right fun hb => by rw [F64.val_fneg, hb]; rfl)).1

/-- Settles O58, by the forms of the operands: two finite ones, a root, an infinity with a finite one, two infinities,
and NaNs. -/
theorem floatOperationsRound : Obligations.FloatOperationsRound := by
  intro σ a b x y sa sb
  refine ⟨fun hfa hfb => ?_, fun hfa => ?_, fun s ha hfb => ?_, fun s t ha hb => ?_, ?_, ?_, fun h => ?_, fun h => ?_⟩
  · obtain ⟨m, e, ha, -⟩ := F64.val_of_finite hfa
    obtain ⟨n, f, hb, -⟩ := F64.val_of_finite hfb
    have hx := F64.toRat_eq_zero_iff ha
    have hy := F64.toRat_eq_zero_iff hb
    refine ⟨(fadd_of_fin ha hb).1, (fsub_of_fin ha hb).1, (fadd_of_fin ha hb).2, (fsub_of_fin ha hb).2,
      (fmul_of_fin ha hb).1, (fmul_of_fin ha hb).2, fun h => fdiv_of_fin ha hb (mt hy.2 h), fun hy0 hx0 => ?_,
      fun hy0 hx0 => ?_⟩
    · exact (fdiv_of_fin_zero ha (hy.1 hy0 ▸ hb)).1 (mt hx.2 hx0)
    · exact (fdiv_of_fin_zero ha (hy.1 hy0 ▸ hb)).2 (hx.1 hx0)
  · obtain ⟨m, e, ha, -⟩ := F64.val_of_finite hfa
    have hx : x = 0 ↔ m = 0 := F64.toRat_eq_zero_iff ha
    obtain ⟨hzero, hnegative, hpositive⟩ := fsqrt_of_fin (σ := σ) ha
    refine ⟨fun h0 => ?_, fun h => hzero (hx.1 h), fun h => ?_⟩
    · by_cases hm : m = 0
      · rw [hzero hm, hx.2 hm, Real.sqrt_zero]
        exact isRN_zero_of_toRat hfa (hx.2 hm)
      · exact hpositive hm (by simpa using mt (F64.toRat_neg_iff ha hm).2 (not_lt.2 h0))
    · have hm : m ≠ 0 := mt hx.2 h.ne
      exact hnegative hm ((F64.toRat_neg_iff ha hm).1 h)
  · obtain ⟨n, f, hb, -⟩ := F64.val_of_finite hfb
    have hy : y = 0 ↔ n = 0 := F64.toRat_eq_zero_iff hb
    have hv : F64.val a = .inf s := by rw [ha, F64.val_infinity]
    have hneg : fneg a = F64.infinity (!s) := by rw [ha, fneg_infinity]
    obtain ⟨hmul, hmul0⟩ := fmul_inf_fin (σ := σ) hv hb
    exact ⟨(fadd_inf_fin hv hb).1, (fadd_inf_fin hv hb).2, (fsub_inf_fin hv hb).1, hneg ▸ (fsub_inf_fin hv hb).2,
      fun h => hmul (mt hy.2 h), fun h => hmul0 (hy.1 h), (fdiv_inf_fin hv hb).1, (fdiv_inf_fin hv hb).2⟩
  · have hva : F64.val a = .inf s := by rw [ha, F64.val_infinity]
    have hvb : F64.val b = .inf t := by rw [hb, F64.val_infinity]
    obtain ⟨haddSame, haddDiff⟩ := fadd_inf_inf (σ := σ) hva hvb
    obtain ⟨hsubSame, hsubDiff⟩ := fsub_inf_inf (σ := σ) hva hvb
    exact ⟨fun h => ⟨haddSame h, hsubSame h⟩, fun h => ⟨haddDiff h, hsubDiff h⟩, fmul_inf_inf hva hvb,
      fdiv_inf_inf hva hvb⟩
  · exact (fsqrt_inf (F64.val_infinity false)).1 rfl
  · exact (fsqrt_inf (F64.val_infinity true)).2 rfl
  · have h' := h.imp F64.val_eq_nan F64.val_eq_nan
    obtain ⟨hadd, hmul, hdiv⟩ := isQuietNaN_of_nan σ h'
    exact ⟨hadd, isQuietNaN_fsub_of_nan σ h', hmul, hdiv⟩
  · have hq : fsqrt σ a = F64.qnan σ := by simp only [fsqrt, F64.val_eq_nan h]
    rw [hq]; exact isQuietNaN_qnan σ

end Sys2Proof.Machine
end

section
/-! PROOFS. The enclosures of π, of cosines, sines and sincs (00_scope.md R8, log 10). -/

namespace Sys2Proof.Machine

/-! π by Machin's formula. -/

theorem cdiv_le_iff {a b c : Int} (hb : 0 < b) : cdiv a b ≤ c ↔ a ≤ c * b := by
  unfold cdiv
  rw [neg_le, Int.le_ediv_iff_mul_le hb, neg_mul, neg_le_neg_iff]

/-- The gap between the two roundings of a quotient, times the divisor. -/
theorem cdiv_sub_ediv_mul_lt (a b : Int) {d : Int} (hd : 0 < d) : (cdiv b d - a / d) * d < b - a + 2 * d := by
  have h1 := Int.lt_ediv_add_one_mul_self a hd
  have h2 := Int.ediv_mul_le (-b) hd.ne'
  have h3 := Int.lt_ediv_add_one_mul_self (-b) hd
  unfold cdiv
  nlinarith

theorem atanInv_holds (p : Nat) {m : Nat} (hm : 2 ≤ m) : (atanInv p m).Holds p (Real.arctan (m : ℝ)⁻¹) := by
  have hm' : (1 : ℝ) < m := by exact_mod_cast hm
  obtain ⟨hpow, hlo⟩ := firstPower_holds p (m := m) (by omega)
  refine atanInvFrom_holds (w := fun i => ((m : ℝ)⁻¹) ^ (2 * i + 1)) (by omega) (fun i => by positivity) (fun i => ?_) ?_
    p 0 _ _ ?_ hlo (by simpa using Iv.holds_zero p)
  · rw [show 2 * (i + 1) + 1 = 2 * i + 1 + 2 by ring, pow_add _ _ 2, inv_pow _ 2, div_eq_mul_inv]
  · have h := Real.hasSum_arctan (x := (m : ℝ)⁻¹) (by
      rw [Real.norm_of_nonneg (by positivity)]; exact inv_lt_one_of_one_lt₀ hm')
    refine h.congr_fun fun n => ?_
    push_cast
    rw [mul_div_assoc]
  · exact hpow.congr (by simp)

theorem piIv_holds (p : Nat) : (piIv p).Holds p Real.pi := by
  have h5 := (atanInv_holds p (m := 5) (by norm_num)).mulRat 16
  have h239 := (atanInv_holds p (m := 239) (by norm_num)).mulRat 4
  refine (h5.sub h239).congr ?_
  have machin := Real.four_mul_arctan_inv_5_sub_arctan_inv_239
  push_cast
  linarith

/-! The enclosure of π is narrow, so its lower end is positive and quotients by it round. -/

/-- How wide an enclosure is, in units. -/
def Iv.width (a : Iv) : Int := a.hi - a.lo

@[simp] theorem Iv.width_add (a b : Iv) : (a.add b).width = a.width + b.width := by
  simp only [Iv.width, Iv.add]; ring

@[simp] theorem Iv.width_sub (a b : Iv) : (a.sub b).width = a.width + b.width := by
  simp only [Iv.width, Iv.sub, Iv.add, Iv.neg]; ring

@[simp] theorem Iv.width_widen (a : Iv) (d : Int) : (a.widen d).width = a.width + 2 * d := by
  simp only [Iv.width, Iv.widen]; ring

/-- A factor that is a natural number makes an enclosure wider by that factor. -/
theorem Iv.width_mulRat_natCast (a : Iv) (k : Nat) : (a.mulRat k).width = k * a.width := by
  simp only [Iv.mulRat, Rat.num_natCast, Rat.den_natCast, Nat.cast_nonneg, if_true, Nat.cast_one, Int.ediv_one, cdiv,
    neg_neg, Iv.width]
  ring

theorem width_quotient_le {pw : Iv} (hw : pw.width ≤ 2) {d : Int} (hd : 0 < d) :
    Iv.width ⟨pw.lo / d, cdiv pw.hi d⟩ ≤ 3 ∧ (3 ≤ d → Iv.width ⟨pw.lo / d, cdiv pw.hi d⟩ ≤ 2) := by
  have h := cdiv_sub_ediv_mul_lt pw.lo pw.hi hd
  simp only [Iv.width] at hw ⊢
  constructor
  · by_contra hc
    nlinarith
  · intro h3
    by_contra hc
    nlinarith

/-- Each term of the series of `atan (1/m)` widens the sum by at most 3 units. -/
theorem width_atanInvFrom_le {m : Nat} (hm : 2 ≤ m) :
    ∀ (fuel j : Nat) (pw acc : Iv), pw.width ≤ 2 → pw.hi ≤ 2 ^ fuel →
      (atanInvFrom m fuel j pw acc).width ≤ acc.width + 3 * fuel + 2
  | 0, j, pw, acc, _, hhi => by
    simp only [atanInvFrom, Iv.width_widen]
    simp only [pow_zero] at hhi
    push_cast
    linarith
  | k + 1, j, pw, acc, hw, hhi => by
    have hmm : 3 ≤ m * m := by nlinarith
    have hmm' : (3 : Int) ≤ ((m * m : Nat) : Int) := by exact_mod_cast hmm
    simp only [atanInvFrom]
    split
    · simp only [Iv.width_widen]
      push_cast
      linarith
    · obtain ⟨hterm, -⟩ := width_quotient_le hw (d := ((2 * j + 1 : Nat) : Int)) (by omega)
      obtain ⟨-, hpow⟩ := width_quotient_le hw (d := ((m * m : Nat) : Int)) (by omega)
      have hnext : cdiv pw.hi ((m * m : Nat) : Int) ≤ 2 ^ k := by
        rw [cdiv_le_iff (by omega)]
        have : (0 : Int) < 2 ^ k := by positivity
        rw [pow_succ] at hhi
        nlinarith
      refine (width_atanInvFrom_le hm k (j + 1) _ _ (hpow hmm') hnext).trans ?_
      push_cast at hterm ⊢
      split
      · rw [Iv.width_add]; linarith
      · rw [Iv.width_sub]; linarith

theorem width_atanInv_le (p : Nat) {m : Nat} (hm : 3 ≤ m) : (atanInv p m).width ≤ 3 * p + 2 := by
  have hm' : (0 : Int) < m := by omega
  have hp : (0 : Int) < 2 ^ p := by positivity
  refine (width_atanInvFrom_le (by omega) p 0 _ _ ?_ ?_).trans (by simp [Iv.width])
  · exact (width_quotient_le (pw := ⟨2 ^ p, 2 ^ p⟩) (by simp [Iv.width]) hm').2 (by exact_mod_cast hm)
  · rw [cdiv_le_iff hm']; nlinarith

theorem width_piIv_le (p : Nat) : (piIv p).width ≤ 60 * p + 40 := by
  have h5 := width_atanInv_le p (m := 5) (by norm_num)
  have h239 := width_atanInv_le p (m := 239) (by norm_num)
  have h16 := Iv.width_mulRat_natCast (atanInv p 5) 16
  have h4 := Iv.width_mulRat_natCast (atanInv p 239) 4
  simp only [Nat.cast_ofNat] at h16 h4
  simp only [piIv, Iv.width_sub, h16, h4]
  linarith

/-- From 128 bits on, the enclosure of π keeps above 0. -/
theorem piIv_lo_pos {p : Nat} (hp : 128 ≤ p) : 0 < (piIv p).lo := by
  have hwidth := width_piIv_le p
  have hhi : ((3 * 2 ^ p : Int) : ℝ) ≤ (piIv p).hi := by
    refine le_trans ?_ (piIv_holds p).2
    push_cast
    exact mul_le_mul_of_nonneg_right Real.pi_gt_three.le (by positivity)
  have hhi' : 3 * 2 ^ p ≤ (piIv p).hi := by exact_mod_cast hhi
  obtain ⟨k, rfl⟩ := Nat.exists_eq_add_of_le' (show 7 ≤ p by omega)
  have hk : (k : Int) < 2 ^ k := by exact_mod_cast Nat.lt_two_pow_self
  rw [pow_add] at hhi'
  simp only [Iv.width] at hwidth
  push_cast at hwidth
  omega

/-! Cosines and sincs by their series, at the square of the argument. -/

theorem cosSeries_holds {p : Nat} (hp : 1 ≤ p) {x2 : Iv} {x : ℝ} (hx : x2.Holds p (x ^ 2)) (hlo : 0 ≤ x2.lo)
    (hx12 : x ^ 2 ≤ 12) : (altSeriesFrom p x2 0 p 0 ⟨2 ^ p, 2 ^ p⟩ ⟨0, 0⟩).Holds p (Real.cos x) := by
  refine altSeriesFrom_holds (T := fun i => (x ^ 2) ^ i / (2 * i).factorial) hx hlo (sq_nonneg x) hx12 (fun i => ?_)
    (fun i => by positivity) ?_ p 0 _ _ (.inr ⟨hp, one_lt_pow₀ (by norm_num) (by omega)⟩)
    ((Iv.holds_one p).congr (by simp)) (by positivity) ((Iv.holds_zero p).congr (by simp))
  · rw [show 2 * (i + 1) = 2 * i + 1 + 1 by ring, Nat.factorial_succ, Nat.factorial_succ, pow_succ]
    push_cast
    field_simp
    ring
  · refine (Real.hasSum_cos x).congr_fun fun n => ?_
    rw [pow_mul, mul_div_assoc]

theorem hasSum_sinc (x : ℝ) : HasSum (fun n : ℕ => (-1) ^ n * ((x ^ 2) ^ n / (2 * n + 1).factorial)) (Real.sinc x) := by
  rcases eq_or_ne x 0 with rfl | hx
  · rw [Real.sinc_zero]
    convert hasSum_ite_eq 0 (1 : ℝ) using 2 with n
    cases n <;> simp
  · rw [Real.sinc_of_ne_zero hx]
    refine ((Real.hasSum_sin x).div_const x).congr_fun fun n => ?_
    rw [pow_succ x (2 * n), pow_mul]
    field_simp

theorem sincSeries_holds {p : Nat} (hp : 1 ≤ p) {x2 : Iv} {x : ℝ} (hx : x2.Holds p (x ^ 2)) (hlo : 0 ≤ x2.lo)
    (hx12 : x ^ 2 ≤ 12) : (altSeriesFrom p x2 1 p 0 ⟨2 ^ p, 2 ^ p⟩ ⟨0, 0⟩).Holds p (Real.sinc x) := by
  refine altSeriesFrom_holds (T := fun i => (x ^ 2) ^ i / (2 * i + 1).factorial) hx hlo (sq_nonneg x) hx12 (fun i => ?_)
    (fun i => by positivity) (hasSum_sinc x) p 0 _ _ (.inr ⟨hp, one_lt_pow₀ (by norm_num) (by omega)⟩)
    ((Iv.holds_one p).congr (by simp)) (by positivity) ((Iv.holds_zero p).congr (by simp))
  rw [show 2 * (i + 1) + 1 = 2 * i + 1 + 1 + 1 by ring, Nat.factorial_succ (2 * i + 1 + 1), Nat.factorial_succ (2 * i + 1),
    pow_succ]
  push_cast
  field_simp
  ring

section Pi
variable {p : Nat} {π : Iv}

theorem piSquare_holds (hπ : π.Holds p Real.pi) {r : ℚ} (hr : 0 ≤ r) :
    (piSquare p π r).Holds p ((Real.pi * r) ^ 2) ∧ 0 ≤ (piSquare p π r).lo := by
  obtain ⟨hlo, hhi⟩ := hπ.mulRat r
  have hp : (0 : Int) < 2 ^ p := by positivity
  have hp' : (0 : ℝ) < 2 ^ p := by positivity
  have hx : (0 : ℝ) ≤ Real.pi * r * 2 ^ p := by
    have : (0 : ℝ) ≤ r := by exact_mod_cast hr
    positivity
  have e : (Real.pi * r) ^ 2 * 2 ^ p = (Real.pi * r * 2 ^ p) * (Real.pi * r * 2 ^ p) / 2 ^ p := by field_simp
  have hmax : ((max (π.mulRat r).lo 0 : Int) : ℝ) ≤ Real.pi * r * 2 ^ p := by push_cast; exact max_le hlo hx
  have hmax0 : (0 : ℝ) ≤ ((max (π.mulRat r).lo 0 : Int) : ℝ) := by exact_mod_cast le_max_right _ _
  have hhi0 := hx.trans hhi
  refine ⟨⟨?_, ?_⟩, Int.ediv_nonneg (mul_self_nonneg _) hp.le⟩
  · rw [e]
    refine (ediv_le_div _ hp).trans ?_
    rw [Int.cast_mul, Int.cast_pow, Int.cast_ofNat]
    gcongr
  · rw [e]
    refine le_trans ?_ (div_le_cdiv _ hp)
    rw [Int.cast_mul, Int.cast_pow, Int.cast_ofNat]
    gcongr

/-- Up to half a turn of π the series' argument is small enough. -/
theorem pi_mul_sq_le {r : ℚ} (h0 : 0 ≤ r) (hr : r ≤ 1 / 2) : (Real.pi * r) ^ 2 ≤ 12 := by
  have h0' : (0 : ℝ) ≤ r := by exact_mod_cast h0
  have hr' : (r : ℝ) ≤ 1 / 2 := by
    have : (r : ℝ) ≤ ((1 / 2 : ℚ) : ℝ) := by exact_mod_cast hr
    simpa using this
  have hle : Real.pi * r ≤ 2 := by nlinarith [Real.pi_le_four, Real.pi_pos]
  have hnonneg : 0 ≤ Real.pi * r := by positivity
  nlinarith

/-- The reduction of a cosine's angle: its sign, and an angle between 0 and π/2. -/
theorem cosReduce_spec (r : ℚ) :
    Real.cos (Real.pi * r) = (if (cosReduce r).1 then -1 else 1) * Real.cos (Real.pi * (cosReduce r).2)
      ∧ 0 ≤ (cosReduce r).2 ∧ (cosReduce r).2 ≤ 1 / 2 := by
  obtain ⟨t, ht⟩ : ∃ t, t = r - 2 * (r / 2).floor := ⟨_, rfl⟩
  have h0 : 0 ≤ t := by
    have := Int.floor_le (r / 2)
    rw [ht]; change 0 ≤ r - 2 * (⌊r / 2⌋ : ℚ); linarith
  have h2 : t < 2 := by
    have := Int.lt_floor_add_one (r / 2)
    rw [ht]; change r - 2 * (⌊r / 2⌋ : ℚ) < 2; linarith
  have hcos : Real.cos (Real.pi * r) = Real.cos (Real.pi * t) := by
    rw [ht, ← Real.cos_sub_int_mul_two_pi (Real.pi * r) (r / 2).floor]
    congr 1; push_cast; ring
  obtain ⟨u, hu⟩ : ∃ u, u = if 1 < t then 2 - t else t := ⟨_, rfl⟩
  have hu01 : 0 ≤ u ∧ u ≤ 1 := by
    rw [hu]; split <;> constructor <;> linarith
  have hcosu : Real.cos (Real.pi * t) = Real.cos (Real.pi * u) := by
    rw [hu]
    split
    · rw [← Real.cos_two_pi_sub]; congr 1; push_cast; ring
    · rfl
  have hred : cosReduce r = if 1 / 2 < u then (true, 1 - u) else (false, u) := by rw [hu, ht]; rfl
  rw [hred, hcos, hcosu]
  split
  · refine ⟨?_, by linarith, by linarith⟩
    rw [if_pos rfl, neg_one_mul, ← Real.cos_pi_sub]; congr 1; push_cast; ring
  · exact ⟨by simp, hu01.1, by linarith⟩

theorem cosPi_holds (hp : 1 ≤ p) (hπ : π.Holds p Real.pi) (r : ℚ) :
    (cosPi p π r).Holds p (Real.cos (Real.pi * r)) := by
  obtain ⟨hcos, h0, h1⟩ := cosReduce_spec r
  rw [hcos]
  unfold cosPi
  generalize cosReduce r = reduced at h0 h1 ⊢
  obtain ⟨neg, t⟩ := reduced
  dsimp only at h0 h1 ⊢
  split
  · next ht =>
    refine (Iv.holds_zero p).congr ?_
    rw [ht, show Real.pi * ((1 / 2 : ℚ) : ℝ) = Real.pi / 2 by push_cast; ring, Real.cos_pi_div_two, mul_zero]
  · obtain ⟨hsq, hlo⟩ := piSquare_holds hπ h0
    have hseries := cosSeries_holds hp hsq hlo (pi_mul_sq_le h0 h1)
    cases neg
    · exact hseries.congr (by simp)
    · exact hseries.neg.congr (by simp)

/-- A sine is the cosine a quarter turn before. -/
theorem sin_pi_mul_eq_cos (r : ℚ) : Real.sin (Real.pi * r) = Real.cos (Real.pi * ((r - 1 / 2 : ℚ) : ℝ)) := by
  rw [← Real.cos_sub_pi_div_two]; congr 1; push_cast; ring

theorem sinPi_holds (hp : 1 ≤ p) (hπ : π.Holds p Real.pi) (r : ℚ) :
    (sinPi p π r).Holds p (Real.sin (Real.pi * r)) := by
  rw [sin_pi_mul_eq_cos]
  exact cosPi_holds hp hπ _

theorem sincPi_holds (hp : 1 ≤ p) (hπ : π.Holds p Real.pi) (hpos : 0 < π.lo) (z : ℚ) :
    (sincPi p π z).Holds p (Real.sinc (Real.pi * z)) := by
  unfold sincPi
  split
  · next hz =>
    obtain ⟨hsq, hlo⟩ := piSquare_holds hπ (abs_nonneg z)
    refine (sincSeries_holds hp hsq hlo (pi_mul_sq_le (abs_nonneg z) hz)).congr ?_
    rcases abs_choice z with h | h <;> rw [h]
    rw [Rat.cast_neg, mul_neg, Real.sinc_neg]
  · next hz =>
    have hz0 : z ≠ 0 := by rintro rfl; simp at hz
    have hz0' : (z : ℝ) ≠ 0 := by exact_mod_cast hz0
    refine (((sinPi_holds hp hπ z).div hπ hpos).mulRat (1 / z)).congr ?_
    rw [Real.sinc_of_ne_zero (mul_ne_zero Real.pi_ne_zero hz0')]
    push_cast
    field_simp

end Pi

end Sys2Proof.Machine
end

section
/-! PROOFS. The enclosures of the filter taps: the windowed sincs of R95 and R114 and the RRC pulse of R94. -/

namespace Sys2Proof.Machine

section Taps
variable {p : Nat} {π : Iv}

/-! The Hamming-windowed sincs. -/

/-- A windowed sinc before the division by their sum (R95, R114). -/
noncomputable def windowedSinc (n : Nat) (z : Nat → ℚ) (j : Nat) : ℝ :=
  (27 / 50 - 23 / 50 * Real.cos (2 * Real.pi * j / n)) * Real.sinc (Real.pi * z j)

theorem hamming_holds (hp : 1 ≤ p) (hπ : π.Holds p Real.pi) (n k : Nat) :
    (hamming p π n k).Holds p (27 / 50 - 23 / 50 * Real.cos (2 * Real.pi * k / n)) := by
  refine ((Iv.holds_ofRat p (27 / 50)).sub ((cosPi_holds hp hπ (2 * k / n)).mulRat (23 / 50))).congr ?_
  rw [show Real.pi * ((2 * k / n : ℚ) : ℝ) = 2 * Real.pi * k / n by push_cast; ring]
  push_cast
  ring

theorem windowedSinc_holds (hp : 1 ≤ p) (hπ : π.Holds p Real.pi) (hpos : 0 < π.lo) (n : Nat) (z : Nat → ℚ) (k : Nat) :
    (Iv.mul p (hamming p π n k) (sincPi p π (z k))).Holds p (windowedSinc n z k) :=
  (hamming_holds hp hπ n k).mul (sincPi_holds hp hπ hpos (z k))

theorem foldl_add_holds {f : Nat → Iv} {x : Nat → ℝ} (h : ∀ k, (f k).Holds p (x k)) :
    ∀ n, (((List.range n).map f).foldl Iv.add ⟨0, 0⟩).Holds p (∑ j ∈ Finset.range n, x j)
  | 0 => by simpa using Iv.holds_zero p
  | n + 1 => by
    rw [List.range_succ, List.map_append, List.foldl_append, Finset.sum_range_succ]
    exact (foldl_add_holds h n).add (h n)

/-- An entry of a tabulated list. -/
theorem getElem?_map_range {α : Type} {f : Nat → α} {n k : Nat} {y : α} (h : ((List.range n).map f)[k]? = some y) :
    f k = y := by
  rw [List.getElem?_map, Option.map_eq_some_iff] at h
  obtain ⟨j, hj, hy⟩ := h
  obtain ⟨_, hjk⟩ := List.getElem?_eq_some_iff.1 hj
  rw [List.getElem_range] at hjk
  rw [hjk, hy]

/-- A quotient whose enclosure rounds has a divisor that is known positive. -/
theorem Iv.Holds.div_of_round {a b : Iv} {x y : ℝ} (ha : a.Holds p x) (hb : b.Holds p y)
    (hround : ((Iv.div p a b).enc p).round? ≠ none) : ((Iv.div p a b).enc p).Holds (x / y) := by
  by_cases hpos : 0 < b.lo
  · exact (ha.div hb hpos).enc
  · obtain ⟨hlo, hhi⟩ := Iv.div_unknown (p := p) a hpos
    exact absurd (Enc.round?_of_straddle (e := (Iv.div p a b).enc p) hlo hhi.le) hround

theorem windowedSincEnc_holds (hp : 128 ≤ p) {n k : Nat} {z : Nat → ℚ} {e : Enc}
    (he : (windowedSincEnc n z p)[k]? = some e) (hround : e.round? ≠ none) :
    e.Holds (windowedSinc n z k / ∑ j ∈ Finset.range (n + 1), windowedSinc n z j) := by
  have hq := windowedSinc_holds (by omega) (piIv_holds p) (piIv_lo_pos hp) n z
  simp only [windowedSincEnc, List.map_map] at he
  obtain rfl := getElem?_map_range he
  exact (hq k).div_of_round (foldl_add_holds hq (n + 1)) hround

/-! The exact zeros of the RRC pulse. -/

theorem cos_of_twiceCosRat {r u : ℚ} (h : twiceCosRat r = some u) : Real.cos (Real.pi * r) = u / 2 := by
  unfold twiceCosRat at h
  split at h
  · next hr =>
    obtain rfl : 2 = u := by simpa using h
    simp [hr]
  · split at h
    · next hr =>
      obtain rfl : 1 = u := by simpa using h
      rw [hr, show Real.pi * ((1 / 3 : ℚ) : ℝ) = Real.pi / 3 by push_cast; ring, Real.cos_pi_div_three]
      simp
    · split at h
      · next hr =>
        obtain rfl : 0 = u := by simpa using h
        rw [hr, show Real.pi * ((1 / 2 : ℚ) : ℝ) = Real.pi / 2 by push_cast; ring, Real.cos_pi_div_two]
        simp
      · cases h

/-- Where the model recognises an exact zero there is one (log 12). -/
theorem sinCosSumZero_sound {x c y : ℚ} (h : sinCosSumZero x c y = true) :
    Real.sin (Real.pi * x) + c * Real.cos (Real.pi * y) = 0 := by
  obtain ⟨hx, -⟩ := cosReduce_spec (x - 1 / 2)
  obtain ⟨hy, -⟩ := cosReduce_spec y
  rw [sin_pi_mul_eq_cos, hx, hy]
  unfold sinCosSumZero at h
  generalize cosReduce (x - 1 / 2) = first at *
  generalize cosReduce y = second at *
  obtain ⟨s, r⟩ := first
  obtain ⟨t, q⟩ := second
  dsimp only at h ⊢
  have signs : ∀ d w : ℝ, (if s then (-1 : ℝ) else 1) * d + c * ((if t then -1 else 1) * w)
      = (((if s then -1 else 1 : ℚ)) : ℝ) * d + (((if t then -c else c : ℚ)) : ℝ) * w := by
    intro d w
    cases s <;> cases t <;> simp
  rw [signs]
  generalize (if s then (-1 : ℚ) else 1) = a at *
  generalize (if t then -c else c) = b at *
  split at h
  · next u v hu hv =>
    have hab : a * u + b * v = 0 := by simpa using h
    have hab' : (a : ℝ) * u + b * v = 0 := by exact_mod_cast hab
    rw [cos_of_twiceCosRat hu, cos_of_twiceCosRat hv]
    linarith
  · obtain ⟨hrq, hab⟩ : r = q ∧ a + b = 0 := by simpa using h
    have hab' : (a : ℝ) + b = 0 := by exact_mod_cast hab
    rw [hrq, ← add_mul, hab', zero_mul]
  · cases h

/-! The RRC pulse. -/

/-- The RRC impulse response `h(u)` with roll-off `a` (R94). -/
noncomputable def rrcPulse (a u : ℚ) : ℝ :=
  let π := Real.pi
  if u = 0 then 1 - a + 4 * a / π
  else if |4 * a * u| = 1 then
    a / Real.sqrt 2 * ((1 + 2 / π) * Real.sin (π / (4 * a)) + (1 - 2 / π) * Real.cos (π / (4 * a)))
  else (Real.sin (π * u * (1 - a)) + 4 * a * u * Real.cos (π * u * (1 + a))) / (π * u * (1 - (4 * a * u) ^ 2))

/-- The pulse is even. -/
theorem rrcPulse_neg (a u : ℚ) : rrcPulse a (-u) = rrcPulse a u := by
  simp only [rrcPulse, neg_eq_zero, mul_neg, abs_neg, Rat.cast_neg, neg_mul, neg_sq, Real.sin_neg, Real.cos_neg]
  rw [← neg_add, neg_div_neg_eq]

theorem rrcPulse_abs (a u : ℚ) : rrcPulse a |u| = rrcPulse a u := by
  rcases abs_choice u with h | h <;> rw [h]
  exact rrcPulse_neg a u

theorem sqrt_half : Real.sqrt ((1 / 2 : ℚ) : ℝ) = 1 / Real.sqrt 2 := by
  rw [Rat.cast_div, Rat.cast_one, Rat.cast_ofNat, Real.sqrt_div zero_le_one, Real.sqrt_one]

theorem sqrtHalf_holds (p : Nat) : (Iv.sqrt p (Iv.ofRat p (1 / 2))).Holds p (1 / Real.sqrt 2) :=
  ((Iv.holds_ofRat p (1 / 2)).sqrt (by norm_num)).congr sqrt_half

theorem rrcH_holds (hp : 1 ≤ p) (hπ : π.Holds p Real.pi) (hpos : 0 < π.lo) {a u : ℚ} (ha : 0 < a) (hu : 0 ≤ u) :
    (rrcH p π a u).Holds p (rrcPulse a u) := by
  have habs : |4 * a * u| = 4 * a * u := abs_of_nonneg (by positivity)
  simp only [rrcH, rrcPulse, habs]
  split
  · refine ((Iv.holds_ofRat p (1 - a)).add ((Iv.holds_ofRat p (4 * a)).div hπ hpos)).congr ?_
    push_cast; ring
  · split
    · have h2π := (Iv.holds_ofRat p 2).div hπ hpos
      have hsin := (((Iv.holds_ofRat p 1).add h2π).mul (sinPi_holds hp hπ (1 / (4 * a))))
      have hcos := (((Iv.holds_ofRat p 1).sub h2π).mul (cosPi_holds hp hπ (1 / (4 * a))))
      refine (((hsin.add hcos).mul (sqrtHalf_holds p)).mulRat a).congr ?_
      rw [show Real.pi * ((1 / (4 * a) : ℚ) : ℝ) = Real.pi / (4 * a) by push_cast; ring]
      push_cast; ring
    · have hsinArg : Real.pi * ((u * (1 - a) : ℚ) : ℝ) = Real.pi * u * (1 - a) := by push_cast; ring
      have hcosArg : Real.pi * ((u * (1 + a) : ℚ) : ℝ) = Real.pi * u * (1 + a) := by push_cast; ring
      split
      · next hzero =>
        refine (Iv.holds_zero p).congr ?_
        have h := sinCosSumZero_sound hzero
        rw [hsinArg, hcosArg] at h
        push_cast at h
        rw [h, zero_div]
      · have hnum := (sinPi_holds hp hπ (u * (1 - a))).add ((cosPi_holds hp hπ (u * (1 + a))).mulRat (4 * a * u))
        refine ((hnum.div hπ hpos).mulRat (1 / (u * (1 - (4 * a * u) ^ 2)))).congr ?_
        rw [hsinArg, hcosArg, mul_comm (Real.cos _)]
        push_cast
        rw [div_mul_div_comm, mul_one, ← mul_assoc Real.pi (u : ℝ) (1 - (4 * a * u : ℝ) ^ 2)]

theorem rrcEncs_holds (hp : 128 ≤ p) {a R : ℚ} {sps k : Nat} {e : Enc} (ha : 0 < a)
    (he : (rrcEncs a R sps p)[k]? = some e) : e.Holds (rrcPulse a (((k : ℚ) - 3 * sps) / R)) := by
  obtain rfl := getElem?_map_range he
  rw [← rrcPulse_abs]
  exact (rrcH_holds (by omega) (piIv_holds p) (piIv_lo_pos hp) ha (abs_nonneg _)).enc

end Taps

end Sys2Proof.Machine
end

section
/-! PROOFS. The enclosures of powers of ten and of the Rician coefficient (R109, R111). -/

namespace Sys2Proof.Machine

/-! Lower ends that do not fall below 0. -/

theorem Iv.mulRat_lo_nonneg {a : Iv} {q : ℚ} (ha : 0 ≤ a.lo) (hq : 0 ≤ q) : 0 ≤ (a.mulRat q).lo := by
  have hnum : 0 ≤ q.num := Rat.num_nonneg.2 hq
  simp only [Iv.mulRat, if_pos hnum]
  exact Int.ediv_nonneg (mul_nonneg ha hnum) (by positivity)

theorem atanhInvFrom_lo_nonneg (m : Nat) :
    ∀ (fuel j : Nat) (pw acc : Iv), 0 ≤ pw.lo → 0 ≤ acc.lo → 0 ≤ (atanhInvFrom m fuel j pw acc).lo
  | 0, _, _, _, _, hacc => hacc
  | k + 1, j, pw, acc, hpw, hacc => by
    simp only [atanhInvFrom]
    split
    · exact hacc
    · exact atanhInvFrom_lo_nonneg m k (j + 1) _ _ (Int.ediv_nonneg hpw (by positivity))
        (add_nonneg hacc (Int.ediv_nonneg hpw (by positivity)))

theorem expFrom_lo_nonneg (p : Nat) {x : Iv} (hx : 0 ≤ x.lo) :
    ∀ (fuel j : Nat) (t acc : Iv), 0 ≤ t.lo → 0 ≤ acc.lo → 0 ≤ (expFrom p x fuel j t acc).lo
  | 0, _, _, _, _, hacc => hacc
  | k + 1, j, t, acc, ht, hacc => by
    simp only [expFrom]
    split
    · exact hacc
    · exact expFrom_lo_nonneg p hx k (j + 1) _ _ (Int.ediv_nonneg (mul_nonneg ht hx) (by positivity)) (add_nonneg hacc ht)

/-! The logarithm of ten. -/

theorem atanhInv_lo_nonneg (p m : Nat) : 0 ≤ (atanhInv p m).lo :=
  atanhInvFrom_lo_nonneg m p 0 _ _ (Int.ediv_nonneg (by positivity) (by positivity)) le_rfl

/-- `atanh (1 / (2n + 1))` is half the logarithm of `1 + 1/n`. -/
theorem atanhInv_holds (p : Nat) {n : Nat} (hn : 0 < n) :
    (atanhInv p (2 * n + 1)).Holds p (Real.log (1 + (n : ℝ)⁻¹) / 2) := by
  obtain ⟨hpow, hlo⟩ := firstPower_holds p (m := 2 * n + 1) (by omega)
  refine atanhInvFrom_holds (w := fun i => (1 / ((2 * n + 1 : Nat) : ℝ)) ^ (2 * i + 1)) (by omega)
    (fun i => by positivity) (fun i => ?_) ?_ p 0 _ _ (hpow.congr (by simp)) hlo (by simpa using Iv.holds_zero p)
  · rw [show 2 * (i + 1) + 1 = 2 * i + 1 + 2 by ring, pow_add _ _ 2, one_div_pow _ 2, mul_one_div]
  · have h := (Real.hasSum_log_one_add_inv (a := (n : ℝ)) (by exact_mod_cast hn)).div_const 2
    refine h.congr_fun fun k => ?_
    push_cast
    ring

theorem log_ten_eq : Real.log 10 = 3 * Real.log 2 + Real.log (5 / 4) := by
  rw [show (10 : ℝ) = 2 ^ 3 * (5 / 4) by norm_num, Real.log_mul (by norm_num) (by norm_num), Real.log_pow]
  norm_num

theorem ln10Iv_holds (p : Nat) : (ln10Iv p).Holds p (Real.log 10) := by
  have h3 := (atanhInv_holds p (n := 1) (by norm_num)).mulRat 6
  have h9 := (atanhInv_holds p (n := 4) (by norm_num)).mulRat 2
  refine (h3.add h9).congr ?_
  rw [log_ten_eq, show (1 : ℝ) + ((1 : Nat) : ℝ)⁻¹ = 2 by norm_num, show (1 : ℝ) + ((4 : Nat) : ℝ)⁻¹ = 5 / 4 by norm_num]
  push_cast
  ring

theorem ln10Iv_lo_nonneg (p : Nat) : 0 ≤ (ln10Iv p).lo :=
  add_nonneg (Iv.mulRat_lo_nonneg (atanhInv_lo_nonneg p 3) (by norm_num))
    (Iv.mulRat_lo_nonneg (atanhInv_lo_nonneg p 9) (by norm_num))

theorem log_ten_le : Real.log 10 ≤ 5 / 2 := by
  have h2 := Real.log_two_lt_d9
  have h54 := Real.log_le_sub_one_of_pos (show (0 : ℝ) < 5 / 4 by norm_num)
  rw [log_ten_eq]
  linarith

/-! Powers of ten. -/

/-- A power of ten as an exponential. -/
theorem ten_rpow_eq_exp (y : ℝ) : (10 : ℝ) ^ y = Real.exp (Real.log 10 * y) := Real.rpow_def_of_pos (by norm_num) y

theorem pow10Frac_holds {p : Nat} (hp : 128 ≤ p) {f : ℚ} (h0 : 0 ≤ f) (h1 : f < 1) :
    (pow10Frac p f).Holds p ((10 : ℝ) ^ (f : ℝ)) := by
  have h0' : (0 : ℝ) ≤ f := by exact_mod_cast h0
  have h1' : (f : ℝ) ≤ 1 := by exact_mod_cast h1.le
  have hlog : 0 ≤ Real.log 10 := Real.log_nonneg (by norm_num)
  rw [ten_rpow_eq_exp]
  exact expFrom_holds hp ((ln10Iv_holds p).mulRat f) (Iv.mulRat_lo_nonneg (ln10Iv_lo_nonneg p) h0) (mul_nonneg hlog h0')
    ((mul_le_of_le_one_right hlog h1').trans log_ten_le) p 0 _ _ (.inr (by omega))
    (fun _ => one_lt_pow₀ (by norm_num) (by omega)) ((Iv.holds_one p).congr (by simp)) (by positivity)
    ((Iv.holds_zero p).congr (by simp))

theorem pow10Frac_lo_nonneg (p : Nat) {f : ℚ} (h0 : 0 ≤ f) : 0 ≤ (pow10Frac p f).lo :=
  expFrom_lo_nonneg p (Iv.mulRat_lo_nonneg (ln10Iv_lo_nonneg p) h0) p 0 _ _ (by positivity) le_rfl

/-- A rational is its floor and a fraction below 1. -/
theorem sub_floor_bounds (y : ℚ) : 0 ≤ y - y.floor ∧ y - y.floor < 1 :=
  ⟨sub_nonneg.2 (Int.floor_le y), by linarith [Int.lt_floor_add_one y, show ((⌊y⌋ : ℤ) : ℚ) = y.floor from rfl]⟩

/-- A power of ten splits into an integral one and a fractional one. -/
theorem ten_rpow_split (y : ℚ) :
    (10 : ℝ) ^ (y : ℝ) = (10 : ℝ) ^ y.floor * (10 : ℝ) ^ ((y - y.floor : ℚ) : ℝ) := by
  rw [← Real.rpow_intCast, ← Real.rpow_add (by norm_num)]
  congr 1; push_cast; ring

/-- The enclosure of the fractional power of ten that `pow10Enc` scales; exact at 0. -/
def pow10FracExact (p : Nat) (f : ℚ) : Iv := if f = 0 then ⟨2 ^ p, 2 ^ p⟩ else pow10Frac p f

theorem pow10Enc_eq (y : ℚ) (p : Nat) :
    pow10Enc y p =
      let e := pow10FracExact p (y - y.floor)
      if 0 ≤ y.floor then ⟨e.lo * 10 ^ y.floor.toNat, e.hi * 10 ^ y.floor.toNat, 2 ^ p⟩
      else ⟨e.lo, e.hi, 2 ^ p * 10 ^ (-y.floor).toNat⟩ := rfl

theorem pow10FracExact_holds {p : Nat} (hp : 128 ≤ p) {f : ℚ} (h0 : 0 ≤ f) (h1 : f < 1) :
    (pow10FracExact p f).Holds p ((10 : ℝ) ^ (f : ℝ)) := by
  unfold pow10FracExact
  split
  · next hf => rw [hf]; exact (Iv.holds_one p).congr (by simp)
  · exact pow10Frac_holds hp h0 h1

theorem pow10Enc_holds {p : Nat} (hp : 128 ≤ p) (y : ℚ) : (pow10Enc y p).Holds ((10 : ℝ) ^ (y : ℝ)) := by
  obtain ⟨h0, h1⟩ := sub_floor_bounds y
  obtain ⟨hlo, hhi⟩ := pow10FracExact_holds hp h0 h1
  rw [ten_rpow_split, pow10Enc_eq]
  dsimp only
  generalize pow10FracExact p (y - y.floor) = e at *
  generalize (10 : ℝ) ^ ((y - y.floor : ℚ) : ℝ) = x at *
  generalize y.floor = k at *
  split
  · next hk =>
    lift k to ℕ using hk
    rw [Int.toNat_natCast, zpow_natCast, Enc.Holds]
    have hval : (10 : ℝ) ^ k * x * ((2 ^ p : Nat) : ℝ) = x * 2 ^ p * 10 ^ k := by push_cast; ring
    refine ⟨by positivity, ?_, ?_⟩
    · rw [hval]; push_cast; gcongr
    · rw [hval]; push_cast; gcongr
  · next hk =>
    obtain ⟨j, rfl⟩ : ∃ j : ℕ, k = -j := ⟨(-k).toNat, by omega⟩
    rw [neg_neg, Int.toNat_natCast, zpow_neg, zpow_natCast, Enc.Holds]
    have hval : ((10 : ℝ) ^ j)⁻¹ * x * ((2 ^ p * 10 ^ j : Nat) : ℝ) = x * 2 ^ p := by push_cast; field_simp
    refine ⟨by positivity, ?_, ?_⟩
    · rw [hval]; exact hlo
    · rw [hval]; exact hhi

/-! Beyond the exponents of binary64. -/

theorem overflow_le_ten_pow : (2 : ℝ) ^ 1024 - 2 ^ 970 ≤ 10 ^ 309 := by
  have hnat : 2 ^ 1024 ≤ 10 ^ 309 := by decide +kernel
  have hreal : ((2 ^ 1024 : Nat) : ℝ) ≤ ((10 ^ 309 : Nat) : ℝ) := Nat.cast_le.2 hnat
  rw [Nat.cast_pow, Nat.cast_pow, Nat.cast_ofNat, Nat.cast_ofNat] at hreal
  exact (sub_le_self _ (by positivity)).trans hreal

theorem isRN_infinity {x : ℝ} (h : 2 ^ 1024 - 2 ^ 970 ≤ x) : IsRN x (F64.infinity false) := by
  have hΘ := overflow_pos
  unfold IsRN
  generalize (2 ^ 1024 - 2 ^ 970 : ℝ) = Θ at *
  exact ⟨fun hx => absurd h (not_le.2 (abs_lt.1 hx).2), fun _ => rfl, fun hx => by linarith⟩

/-- What is not above a ratio `1 / d` that rounds to 0 rounds to 0 as well. -/
theorem isRN_zero_of_le {d : Nat} (hd : 0 < d) (hword : F64.roundRatio false 1 d = F64.zero false) {x : ℝ} (h0 : 0 ≤ x)
    (hx : x * d ≤ 1) : IsRN x (F64.zero false) := by
  have hd' : (0 : ℝ) < d := by exact_mod_cast hd
  have h := (roundRatio_spec false 1 hd).1
  rw [hword, if_neg (by simp), Nat.cast_one] at h
  exact (isRN_zero false).between h h0 ((le_div_iff₀ hd').2 hx)

/-- `10^-324` is below half the least positive binary64 value, `2^-1075`. -/
theorem isRN_zero_of_le_ten_pow {x : ℝ} (h0 : 0 ≤ x) (hx : x ≤ ((10 : ℝ) ^ 324)⁻¹) : IsRN x (F64.zero false) := by
  obtain ⟨d, hd, hword, hle⟩ : ∃ d : Nat, 0 < d ∧ F64.roundRatio false 1 d = F64.zero false ∧ d ≤ 10 ^ 324 :=
    ⟨2 ^ 1075, by decide +kernel⟩
  have hle' : (d : ℝ) ≤ 10 ^ 324 := (Nat.cast_le.2 hle).trans_eq (by rw [Nat.cast_pow, Nat.cast_ofNat])
  refine isRN_zero_of_le hd hword h0 ?_
  calc x * d ≤ ((10 : ℝ) ^ 324)⁻¹ * 10 ^ 324 := by gcongr
    _ = 1 := inv_mul_cancel₀ (by positivity)

theorem rnPow10_beyond {r : ℚ} (h : 309 ≤ r ∨ r ≤ -324) : IsRN ((10 : ℝ) ^ (r : ℝ)) (rnPow10 r) := by
  unfold rnPow10
  split
  · next hr =>
    have hr' : ((309 : Nat) : ℝ) ≤ r := by exact_mod_cast hr
    have hbig : (10 : ℝ) ^ 309 ≤ (10 : ℝ) ^ (r : ℝ) := by
      rw [← Real.rpow_natCast]; exact Real.rpow_le_rpow_of_exponent_le (by norm_num) hr'
    exact isRN_infinity (overflow_le_ten_pow.trans hbig)
  · next hr =>
    have hsmall := h.resolve_left hr
    have hr' : (r : ℝ) ≤ -((324 : Nat) : ℝ) := by exact_mod_cast hsmall
    have hle : (10 : ℝ) ^ (r : ℝ) ≤ ((10 : ℝ) ^ 324)⁻¹ := by
      rw [← Real.rpow_natCast, ← Real.rpow_neg (by norm_num)]
      exact Real.rpow_le_rpow_of_exponent_le (by norm_num) hr'
    rw [if_pos hsmall]
    exact isRN_zero_of_le_ten_pow (by positivity) hle

/-! The Rician coefficient. -/

/-- Below `2^-p` a power of ten is less than one unit. -/
theorem ten_rpow_le_unit {p : Nat} {y : ℝ} (h : y ≤ -(p : ℝ)) : (10 : ℝ) ^ y * 2 ^ p ≤ 1 := by
  have hle : (10 : ℝ) ^ y ≤ ((10 : ℝ) ^ p)⁻¹ := by
    rw [← Real.rpow_natCast, ← Real.rpow_neg (by norm_num)]
    exact Real.rpow_le_rpow_of_exponent_le (by norm_num) h
  have hpow : (2 : ℝ) ^ p ≤ 10 ^ p := pow_le_pow_left₀ (by norm_num) (by norm_num) p
  calc (10 : ℝ) ^ y * 2 ^ p ≤ ((10 : ℝ) ^ p)⁻¹ * 10 ^ p := by gcongr
    _ = 1 := inv_mul_cancel₀ (by positivity)

theorem pow10NonPos_holds {p : Nat} (hp : 128 ≤ p) {y : ℚ} (hy : y ≤ 0) :
    (pow10NonPos p y).Holds p ((10 : ℝ) ^ (y : ℝ)) ∧ 0 ≤ (pow10NonPos p y).lo := by
  obtain ⟨h0, h1⟩ := sub_floor_bounds y
  have hfloor : y.floor ≤ 0 := Int.floor_nonpos hy
  have hfrac := pow10Frac_holds hp h0 h1
  have hfrac0 := pow10Frac_lo_nonneg p h0
  have hsplit := ten_rpow_split y
  unfold pow10NonPos
  dsimp only
  obtain ⟨k, hk⟩ : ∃ k : ℕ, y.floor = -k := ⟨(-y.floor).toNat, by omega⟩
  have hkN : (-y.floor).toNat = k := by omega
  rw [hkN]
  split
  · next hpk =>
    have hy' : (y : ℝ) ≤ -(p : ℝ) := by
      have hlt : y < -k + 1 := by rw [hk] at h1; push_cast at h1; linarith
      have hpk' : (p : ℚ) + 1 ≤ k := by exact_mod_cast hpk
      have : y ≤ -(p : ℚ) := by linarith
      exact_mod_cast this
    refine ⟨⟨?_, ?_⟩, le_rfl⟩
    · rw [Int.cast_zero]; positivity
    · rw [Int.cast_one]; exact ten_rpow_le_unit hy'
  · have hd : (0 : Int) < 10 ^ k := by positivity
    have hval : (10 : ℝ) ^ (y : ℝ) * 2 ^ p = (10 : ℝ) ^ ((y - y.floor : ℚ) : ℝ) * 2 ^ p / ((10 ^ k : Int) : ℝ) := by
      rw [hsplit, hk, zpow_neg, zpow_natCast]; push_cast; ring
    have hd' : (0 : ℝ) ≤ ((10 ^ k : Int) : ℝ) := by exact_mod_cast hd.le
    refine ⟨⟨?_, ?_⟩, Int.ediv_nonneg hfrac0 hd.le⟩
    · rw [hval]; exact (ediv_le_div _ hd).trans (div_le_div_of_nonneg_right hfrac.1 hd')
    · rw [hval]; exact (div_le_div_of_nonneg_right hfrac.2 hd').trans (div_le_cdiv _ hd)

/-- The two amplitudes at `K = 10^y`, taken from `10^(-|y|)`, which is `1/K` or `K` (R111). -/
theorem ricianAmplitudes_holds {p : Nat} (hp : 128 ≤ p) (y : ℚ) :
    let K := (10 : ℝ) ^ (y : ℝ)
    (ricianAmplitudes p y).1.Holds p (Real.sqrt (K / (K + 1)))
      ∧ (ricianAmplitudes p y).2.Holds p (Real.sqrt (1 / (K + 1))) := by
  intro K
  have hK : 0 < K := Real.rpow_pos_of_pos (by norm_num) _
  obtain ⟨hm, hmlo⟩ := pow10NonPos_holds hp (neg_nonpos.2 (abs_nonneg y))
  have hone := Iv.holds_ofRat p 1
  have hlo : 0 < ((Iv.ofRat p 1).add (pow10NonPos p (-|y|))).lo := by
    have h1 : (Iv.ofRat p 1).lo = 2 ^ p := by simp [Iv.ofRat]
    have : (0 : Int) < 2 ^ p := by positivity
    simp only [Iv.add, h1]
    linarith
  obtain ⟨M, hM⟩ : ∃ M : ℝ, M = (10 : ℝ) ^ ((-|y| : ℚ) : ℝ) := ⟨_, rfl⟩
  have hM0 : 0 < M := by rw [hM]; exact Real.rpow_pos_of_pos (by norm_num) _
  rw [← hM] at hm
  have hsmall := (hm.div (hone.add hm) hlo).sqrt (by rw [Rat.cast_one]; positivity)
  have hlarge := (hone.div (hone.add hm) hlo).sqrt (by rw [Rat.cast_one]; positivity)
  rw [Rat.cast_one] at hsmall hlarge
  unfold ricianAmplitudes
  dsimp only
  split
  · next hy =>
    have hMK : M = K⁻¹ := by rw [hM, abs_of_nonneg hy, Rat.cast_neg, Real.rpow_neg (by norm_num)]
    rw [hMK] at hsmall hlarge
    exact ⟨hlarge.congr (by congr 1; field_simp), hsmall.congr (by congr 1; field_simp)⟩
  · next hy =>
    have hMK : M = K := by rw [hM, abs_of_neg (not_le.1 hy), neg_neg]
    rw [hMK, add_comm 1 K] at hsmall hlarge
    exact ⟨hsmall, hlarge⟩

/-- The diffuse part of the coefficient at the draw `a`. -/
theorem diffuse_holds {p : Nat} {dif : Iv} {d : ℝ} (h : dif.Holds p d) (a : ℚ) :
    ((Iv.mul p dif (Iv.sqrt p (Iv.ofRat p (1 / 2)))).mulRat a).Holds p (d * a / Real.sqrt 2) :=
  ((h.mul (sqrtHalf_holds p)).mulRat a).congr (by ring)

theorem ricianReEnc_holds {p : Nat} (hp : 128 ≤ p) (y a : ℚ) :
    let K := (10 : ℝ) ^ (y : ℝ)
    (ricianReEnc y a p).Holds (Real.sqrt (K / (K + 1)) + Real.sqrt (1 / (K + 1)) * a / Real.sqrt 2) := by
  obtain ⟨hlos, hdif⟩ := ricianAmplitudes_holds hp y
  exact (hlos.add (diffuse_holds hdif a)).enc

theorem ricianImEnc_holds {p : Nat} (hp : 128 ≤ p) (y b : ℚ) :
    let K := (10 : ℝ) ^ (y : ℝ)
    (ricianImEnc y b p).Holds (Real.sqrt (1 / (K + 1)) * b / Real.sqrt 2) := by
  intro K
  unfold ricianImEnc
  split
  · next hy =>
    have hK : K = 1 := by simp [K, hy]
    have hroot : Real.sqrt (1 / (1 + 1)) * b / Real.sqrt 2 = b / 2 := by
      have h2 : Real.sqrt 2 * Real.sqrt 2 = 2 := Real.mul_self_sqrt (by norm_num)
      rw [one_add_one_eq_two, Real.sqrt_div zero_le_one, Real.sqrt_one, one_div_mul_eq_div, div_div, h2]
    have hval : (b : ℝ) / 2 * ((2 * b.den : Nat) : ℝ) = b.num := by
      have hden : (b.den : ℝ) ≠ 0 := by exact_mod_cast b.den_nz
      rw [Rat.cast_def]; push_cast; field_simp
    rw [hK, hroot]
    exact ⟨Nat.mul_pos two_pos b.den_pos, hval.ge, hval.le⟩
  · obtain ⟨-, hdif⟩ := ricianAmplitudes_holds hp y
    exact (diffuse_holds hdif b).enc

/-- Settles O59, from what each operation over enclosures holds, Machin's formula, the power series and, for quotients by
π, the width of its enclosure. -/
theorem trigEnclosuresHold : Obligations.TrigEnclosuresHold := by
  intro p r hp
  have hp1 : 1 ≤ p := by omega
  have hπ := piIv_holds p
  exact ⟨hπ, cosPi_holds hp1 hπ r, sinPi_holds hp1 hπ r, sincPi_holds hp1 hπ (piIv_lo_pos hp) r,
    fun _ _ _ _ he hround => windowedSincEnc_holds hp he hround, fun _ _ _ _ _ ha _ he _ => rrcEncs_holds hp ha he,
    pow10Enc_holds hp r, rnPow10_beyond, fun a => ⟨ricianReEnc_holds hp r a, ricianImEnc_holds hp r a⟩⟩

end Sys2Proof.Machine
end

section
/-! PROOFS. Host accesses by register: what an access at an aligned offset does while idle, while BUSY, and either way
(10_state.md R16 and R17, 70_reset_and_hazards.md R150 to R152). -/

namespace Sys2Proof.Machine

/-! Admitted accesses. -/

section Admitted

variable {s : State} {off : Nat}

theorem read_of_idle (hidle : s.status.busy = false) (haligned : off % 8 = 0)
    (hin : s.windowOut (regAt off) true = false) : accessOffset off 8 none s = .next (s.readIdle (regAt off)) := by
  rw [accessOffset_admitted haligned (.inr hin), State.accessReg, hidle]; rfl

theorem write_of_idle (hidle : s.status.busy = false) (haligned : off % 8 = 0) (v : Word)
    (hin : s.windowOut (regAt off) false = false) :
    accessOffset off 8 (some v) s = .next { s.writeIdle (regAt off) v with resp := .ok } := by
  rw [accessOffset_admitted haligned (.inr hin), State.accessReg, hidle]; rfl

theorem write_of_busy (hbusy : s.status.busy = true) (haligned : off % 8 = 0) (v : Word) :
    accessOffset off 8 (some v) s = .next { s.writeBusy (regAt off) v with resp := .ok } := by
  rw [accessOffset_admitted haligned (.inl hbusy), State.accessReg, hbusy]; rfl

/-- R66, step 2: while idle, a window access out of range ends with a bus error. -/
theorem access_windowOut (hidle : s.status.busy = false) (haligned : off % 8 = 0) {wdata : Option Word}
    (hout : s.windowOut (regAt off) wdata.isNone = true) : accessOffset off 8 wdata s = .fault .busWindowRange := by
  simp [accessOffset, haligned, hidle, hout]

end Admitted

/-! Registers that an access treats alike, busy or idle. -/

/-- A register that shows its value while BUSY has no window range, and shows the same value while idle. -/
theorem Reg.shownBusy_idle {r : Reg} (h : r.shownBusy = true) (s : State) (isRead : Bool) :
    s.windowOut r isRead = false ∧ s.readIdle r = s.answer (some (s.regValue r)) := by
  cases r with
  | id | nbuf | bufWords | kernCap | ctrl | status | cmd | reserved => exact ⟨rfl, rfl⟩
  | _ => cases h

/-- R152: a register shown while BUSY reads its value whatever BUSY is, and the read changes nothing but the response. -/
theorem read_shownBusy {s : State} {off : Nat} (haligned : off % 8 = 0) (h : (regAt off).shownBusy = true) :
    accessOffset off 8 none s = .next { s with resp := .data (s.regValue (regAt off)) } := by
  obtain ⟨hin, hread⟩ := Reg.shownBusy_idle h s true
  cases hbusy : s.status.busy with
  | false => rw [read_of_idle hbusy haligned hin, hread]; rfl
  | true =>
    rw [accessOffset_admitted haligned (.inl hbusy), State.accessReg, hbusy]
    simp [State.readBusy, h]

/-- A target whose writes have no effect while BUSY has no window range, and ignores writes while idle too. -/
theorem Reg.ignoresBusyWrite_spec {r : Reg} (h : r.ignoresBusyWrite = true) (s : State) (v : Word) :
    s.windowOut r false = false ∧ s.writeIdle r v = s ∧ s.writeBusy r v = s := by
  cases r with
  | id | nbuf | bufWords | kernCap | order | fs | sps | rrcLen | totalDelay | sScale | baud | kernE | awgnPos | awgnSigma
  | fadePos | fadeHRe | fadeHIm | reserved => exact ⟨rfl, rfl, rfl⟩
  | _ => cases h

/-- R17: a write to a read-only register or a reserved offset changes nothing but the response, busy or idle. -/
theorem write_ignored {s : State} {off : Nat} (haligned : off % 8 = 0) (h : (regAt off).ignoresBusyWrite = true)
    (v : Word) : accessOffset off 8 (some v) s = .next { s with resp := .ok } := by
  obtain ⟨hin, hwriteIdle, hwriteBusy⟩ := Reg.ignoresBusyWrite_spec h s v
  cases hbusy : s.status.busy with
  | false => rw [write_of_idle hbusy haligned v hin, hwriteIdle]
  | true => rw [write_of_busy hbusy haligned v, hwriteBusy]

/-- R20, R21: CTRL and STATUS take a write alike while idle and while BUSY. -/
theorem write_accepted {s : State} {off : Nat} (haligned : off % 8 = 0) (h : regAt off = .ctrl ∨ regAt off = .status)
    (v : Word) : accessOffset off 8 (some v) s = .next { s.writeIdle (regAt off) v with resp := .ok } := by
  have hboth : s.windowOut (regAt off) false = false ∧ s.writeBusy (regAt off) v = s.writeIdle (regAt off) v := by
    rcases h with h | h <;> rw [h] <;> exact ⟨rfl, rfl⟩
  obtain ⟨hin, hsame⟩ := hboth
  cases hbusy : s.status.busy with
  | false => exact write_of_idle hbusy haligned v hin
  | true => rw [write_of_busy hbusy haligned v, hsame]

/-! The offsets of each class of targets. -/

/-- The read-only registers of R151. -/
def readOnlyOffsets : List Nat :=
  [0x000, 0x008, 0x010, 0x018, 0x080, 0x088, 0x090, 0x098, 0x0A0, 0x0A8, 0x0B0, 0x0B8, 0x0D0, 0x0D8, 0x0E8, 0x0F8, 0x100]

/-- The targets whose writes R151 drops with WBUSY. -/
def droppedOffsets : List Nat :=
  [0x040, 0x048, 0x050, 0x058, 0x060, 0x0C0, 0x0C8, 0x0E0, 0x0F0, 0x108, 0x110, 0x118, 0x120, 0x128, 0x180, 0x188, 0x190,
   0x198, 0x1A0, 0x1C0, 0x1C8, 0x1D0, 0x1D8, 0x1E0, 0x1E8]

theorem regAt_readOnlyOffsets : ∀ off ∈ readOnlyOffsets, off % 8 = 0 ∧ (regAt off).ignoresBusyWrite = true := by decide

theorem regAt_droppedOffsets : ∀ off ∈ droppedOffsets,
    off % 8 = 0 ∧ (regAt off).ignoresBusyWrite = false ∧ regAt off ∉ [Reg.ctrl, .status, .cmd] := by decide

/-- The ranges in which R17 gives the read-only registers. -/
theorem mem_readOnlyOffsets {off : Nat} (haligned : off % 8 = 0)
    (h : off ≤ 0x018 ∨ (0x080 ≤ off ∧ off ≤ 0x0B8) ∨ off = 0x0D0 ∨ off = 0x0D8 ∨ off = 0x0E8 ∨ off = 0x0F8 ∨ off = 0x100) :
    off ∈ readOnlyOffsets := by
  simp only [readOnlyOffsets, List.mem_cons, List.not_mem_nil, or_false]
  omega

/-- The reserved ranges of R16's map. -/
theorem regAt_reservedRanges {off : Nat} (haligned : off % 8 = 0)
    (h : off = 0x038 ∨ (0x068 ≤ off ∧ off ≤ 0x078) ∨ (0x130 ≤ off ∧ off ≤ 0x178) ∨ (0x1A8 ≤ off ∧ off ≤ 0x1B8)
      ∨ (0x1F0 ≤ off ∧ off ≤ 0xFF8)) : regAt off = .reserved :=
  regAt_reserved haligned (by omega)

/-- R150, R151: what a write while BUSY does to a target that is not read-only and is none of CTRL, STATUS and CMD. -/
theorem State.writeBusy_dropped {r : Reg} (hwritable : r.ignoresBusyWrite = false)
    (hother : r ∉ [Reg.ctrl, .status, .cmd]) (s : State) (v : Word) :
    s.writeBusy r v = { s with status := { s.status with wbusy := true } } := by
  unfold State.writeBusy
  split
  · simp at hother
  · simp at hother
  · simp at hother
  · rw [if_neg (by simp [hwritable])]

/-! Accesses whatever BUSY is, and writes while BUSY. -/

/-- Settles O34: reserved offsets and read-only registers. -/
theorem reservedAndReadOnly : Obligations.ReservedAndReadOnly := by
  intro s off v haligned
  have hread : regAt off = .reserved → accessOffset off 8 none s = .next { s with resp := .data 0#64 } := fun h => by
    rw [read_shownBusy haligned (by rw [h]; rfl), h]; rfl
  refine ⟨fun h => hread (regAt_reservedRanges haligned h), fun h => ?_, read_shownBusy rfl rfl, read_shownBusy rfl rfl,
    read_shownBusy rfl rfl, read_shownBusy rfl rfl⟩
  rcases h with hreserved | hreadOnly
  · exact write_ignored haligned (by rw [regAt_reservedRanges haligned hreserved]; rfl) v
  · exact write_ignored haligned (regAt_readOnlyOffsets off (mem_readOnlyOffsets haligned hreadOnly)).2 v

/-- CTRL shows IRQ_EN in bit 0 (R20). -/
theorem ctrlWord_eq (irqEn : Bool) : ctrlWord irqEn = if irqEn then 1#64 else 0#64 := by cases irqEn <;> decide

/-- Settles O35: the two kinds of CTRL write, and rst. -/
theorem controlAndResets : Obligations.ControlAndResets := by
  intro s v
  have hwrite : accessOffset 0x020 8 (some v) s = .next { s.writeCtrl v with resp := .ok } :=
    write_accepted rfl (.inl rfl) v
  refine ⟨?_, fun hsrst => ?_, fun hsrst => ?_, fun rest hcons => step_of_inbox_cons hcons⟩
  · rw [← ctrlWord_eq]; exact read_shownBusy rfl rfl
  · rw [hwrite, State.writeCtrl, hsrst]; rfl
  · rw [hwrite, State.writeCtrl, hsrst]; rfl

/-- The bits of a STATUS word (R21). -/
theorem Status.getLsbD_word (t : Status) (i : Nat) :
    t.word.getLsbD i
      = if i < 6 then [t.busy, t.done, t.cfgValid, t.ovr, t.wbusy, t.kValid].getD i false
        else if i < 8 then false else if i < 16 then t.err.getLsbD (i - 8)
        else if i < 24 then t.lastOpc.getLsbD (i - 16) else false := by
  unfold Status.word
  change BitVec.getLsbD (w := 40 + 8 + 8 + 2 + 1 + 1 + 1 + 1 + 1 + 1) _ i = _
  simp only [BitVec.getLsbD_append]
  by_cases hlow : i < 6
  · interval_cases i <;> simp
  · rw [if_neg hlow]
    grind

/-- The fields of a STATUS word (R21). -/
theorem Status.word_fields (t : Status) :
    t.word.getLsbD 0 = t.busy ∧ t.word.getLsbD 1 = t.done ∧ t.word.getLsbD 2 = t.cfgValid ∧ t.word.getLsbD 3 = t.ovr
      ∧ t.word.getLsbD 4 = t.wbusy ∧ t.word.getLsbD 5 = t.kValid ∧ t.word.extractLsb' 6 2 = 0#2
      ∧ t.word.extractLsb' 8 8 = t.err ∧ t.word.extractLsb' 16 8 = t.lastOpc ∧ t.word.extractLsb' 24 40 = 0#40 := by
  refine ⟨t.getLsbD_word 0, t.getLsbD_word 1, t.getLsbD_word 2, t.getLsbD_word 3, t.getLsbD_word 4, t.getLsbD_word 5,
    ?_, ?_, ?_, ?_⟩
  all_goals
    ext i hi
    rw [BitVec.getElem_extractLsb', t.getLsbD_word]
    grind

/-- Settles O36: STATUS is read by its fields and written by W1C. -/
theorem statusRegister : Obligations.StatusRegister := fun s v =>
  ⟨⟨s.status.word, read_shownBusy rfl rfl, s.status.word_fields⟩, write_accepted rfl (.inr rfl) v⟩

/-- Settles O46: each class of targets has one kind of dropped write. -/
theorem busyWrites : Obligations.BusyWrites := by
  intro s off v hbusy
  refine ⟨?_, fun h => ?_, fun h => ?_, fun haligned h => ?_⟩
  · rintro rfl
    have hissue : s.writeBusy (regAt 0x030) v = { s with status := { s.status with ovr := true } } := if_pos hbusy
    rw [write_of_busy hbusy rfl, hissue]
  · obtain ⟨haligned, hwritable, hother⟩ := regAt_droppedOffsets off h
    rw [write_of_busy hbusy haligned, State.writeBusy_dropped hwritable hother]
  · obtain ⟨haligned, hignored⟩ := regAt_readOnlyOffsets off h
    exact write_ignored haligned hignored v
  · exact write_ignored haligned (by rw [regAt_reservedRanges haligned h]; rfl) v

end Sys2Proof.Machine
end

section
/-! PROOFS. The registers and windows while idle (10_state.md R28 to R47), and what they show after reset (R16, R60). -/

namespace Sys2Proof.Machine

/-! The ranges of the windows (R66, step 2). -/

theorem windowOut_bufData (s : State) (isRead : Bool) :
    s.windowOut .bufData isRead = decide (8 ≤ s.bufSel.toNat ∨ 0x100000 ≤ s.bufPtr.toNat) :=
  (Bool.decide_or _ _).symm

theorem windowOut_constData_in {s : State} (h : s.constIdx.toNat < 4096) (isRead : Bool) :
    s.windowOut .constData isRead = false := decide_eq_false (not_le.2 h)

/-! Registers. -/

/-- Settles O38: each of the six writes is admitted and clears CFG_VALID. -/
theorem configWritesInvalidate : Obligations.ConfigWritesInvalidate := by
  intro s off v hidle hoff hconst
  simp only [List.mem_cons, List.not_mem_nil, or_false] at hoff
  rcases hoff with rfl | rfl | rfl | rfl | rfl | rfl
  pick_goal 6
  · exact ⟨_, write_of_idle hidle rfl v (windowOut_constData_in (hconst rfl) _), rfl⟩
  all_goals exact ⟨_, write_of_idle hidle rfl v rfl, rfl⟩

/-- Settles O39: no register of the lists is a window, so each access is its register's. -/
theorem registersReadBack : Obligations.RegistersReadBack := by
  intro s v hidle
  refine ⟨fun off w hmem => ?_, ?_⟩
  · simp only [List.mem_cons, Prod.mk.injEq, List.not_mem_nil, or_false] at hmem
    casesm* _ ∨ _, _ ∧ _
    all_goals
      subst_vars
      exact read_of_idle hidle rfl rfl
  · intro noCfg off t hmem
    simp only [List.mem_cons, Prod.mk.injEq, List.not_mem_nil, or_false] at hmem
    casesm* _ ∨ _, _ ∧ _
    all_goals
      subst_vars
      exact ⟨write_of_idle hidle rfl v rfl, read_of_idle hidle rfl rfl⟩

/-! Answers. -/

/-- What a read answers is a known value or some word, and no register but the response and the draw counter changes. -/
theorem State.answer_cases (s : State) (x : Option Word) :
    ∃ w, s.answer x = { s with resp := .data w, draws := (s.answer x).draws } ∧ ∀ v, x = some v → w = v := by
  cases x with
  | none => exact ⟨_, rfl, by simp⟩
  | some w => exact ⟨w, rfl, by simp⟩

/-! Buffers. -/

/-- A BUF_DATA write changes nothing but the buffers and BUF_PTR (R43). -/
theorem State.writeBufData_frame (s : State) (v : Word) :
    s.writeBufData v = { s with bufs := (s.writeBufData v).bufs, bufPtr := s.bufPtr + 1#64 } := rfl

/-- A BUF_DATA write stores its word (R43). -/
theorem State.word_writeBufData_same {s : State} (hb : s.bufSel.toNat < Config.nBuf) (v : Word) :
    (s.writeBufData v).word s.bufSel.toNat s.bufPtr.toNat = some v :=
  (s.word_setBuf_same _ hb _).trans (Memory.read_write_same _ _ _)

/-- A BUF_DATA write changes no other word (R43). -/
theorem State.word_writeBufData_other {s : State} (hb : s.bufSel.toNat < Config.nBuf) (v : Word) {c i : Nat}
    (h : c ≠ s.bufSel.toNat ∨ i ≠ s.bufPtr.toNat) : (s.writeBufData v).word c i = s.word c i := by
  by_cases hc : c = s.bufSel.toNat
  · subst hc
    exact (s.word_setBuf_same _ hb _).trans (Memory.read_write_other _ _ (h.resolve_left (not_not.2 rfl)))
  · exact s.word_setBuf_other _ hc i

/-- A BUF_DATA write changes no length and no kind (R43). -/
theorem State.shape_writeBufData {s : State} (hb : s.bufSel.toNat < Config.nBuf) (v : Word) (c : Nat) :
    ((s.writeBufData v).buf c).len = (s.buf c).len ∧ ((s.writeBufData v).buf c).kind = (s.buf c).kind := by
  by_cases hc : c = s.bufSel.toNat
  · have hbuf : (s.writeBufData v).buf s.bufSel.toNat
        = { s.buf s.bufSel.toNat with words := Memory.write (s.buf s.bufSel.toNat).words s.bufPtr.toNat v } :=
      s.buf_setBuf_same _ hb
    rw [hc, hbuf]; exact ⟨rfl, rfl⟩
  · have hbuf : (s.writeBufData v).buf c = s.buf c := s.buf_setBuf_other _ hc
    rw [hbuf]; exact ⟨rfl, rfl⟩

/-- Settles O40: a read answers as `State.answer`, a write is a BUF_DATA write. -/
theorem bufferDataWindow : Obligations.BufferDataWindow := by
  intro s v hidle b p
  refine ⟨fun hout => ?_, fun hb hp => ?_⟩
  · have hwindow (isRead : Bool) : s.windowOut .bufData isRead = true := by
      rw [windowOut_bufData]; exact decide_eq_true hout
    exact ⟨access_windowOut hidle rfl (hwindow _), access_windowOut hidle rfl (hwindow _)⟩
  · have hwindow (isRead : Bool) : s.windowOut .bufData isRead = false := by
      rw [windowOut_bufData]; exact decide_eq_false (by omega)
    obtain ⟨w, hanswer, hw⟩ := State.answer_cases { s with bufPtr := s.bufPtr + 1#64 } (s.word b p)
    exact ⟨⟨_, w, read_of_idle hidle rfl (hwindow _), hw, hanswer⟩, { s.writeBufData v with resp := .ok },
      write_of_idle hidle rfl v (hwindow _), congrArg (fun t : State => { t with resp := .ok }) (s.writeBufData_frame v),
      State.word_writeBufData_same hb v, fun c i => State.word_writeBufData_other hb v, State.shape_writeBufData hb v⟩

/-- The kind a code stores (R45). -/
theorem BufKind.ofCode_eq (v : Word) :
    BufKind.ofCode v = if v = 1 then .bits else if v = 2 then .real else if v = 3 then .cplx else .none := by
  simp only [BufKind.ofCode, ← BitVec.toNat_inj]
  split <;> simp_all

/-- BUF_KIND reads back a code up to 3, and 0 after any other (R45). -/
theorem BufKind.code_ofCode (v : Word) : (BufKind.ofCode v).code = if 3 < v.toNat then 0#64 else v := by
  unfold BufKind.ofCode
  split
  · next h => rw [if_neg (by omega)]; exact BitVec.eq_of_toNat_eq h.symm
  · next h => rw [if_neg (by omega)]; exact BitVec.eq_of_toNat_eq h.symm
  · next h => rw [if_neg (by omega)]; exact BitVec.eq_of_toNat_eq h.symm
  · next hbits hreal hcplx =>
    split
    · rfl
    · next h =>
      have hzero : v.toNat = 0 := by grind
      exact BitVec.eq_of_toNat_eq hzero.symm

/-- The selected buffer replaced, as BUF_LEN and BUF_KIND writes do: the frame, and what both registers then read (R44,
R45). -/
theorem bufRegisters_setBuf {s : State} (hidle : s.status.busy = false) (hb : s.bufSel.toNat < 8) (x : Buffer) :
    let b := s.bufSel.toNat
    let t : State := { s.setBuf b x with resp := .ok }
    t.buf b = x ∧ (∀ c, c ≠ b → t.buf c = s.buf c) ∧ t = { s with bufs := t.bufs, resp := .ok }
      ∧ accessOffset 0x198 8 none t = .next { t with resp := .data x.len }
      ∧ accessOffset 0x1A0 8 none t = .next { t with resp := .data x.kind.code } := by
  intro b t
  have hx : t.buf b = x := s.buf_setBuf_same x hb
  have hin : t.windowOut .bufLen true = false := decide_eq_false (not_le.2 hb)
  refine ⟨hx, fun c hc => s.buf_setBuf_other x hc, rfl, ?_, ?_⟩
  · rw [← hx]; exact read_of_idle hidle rfl hin
  · rw [← hx]; exact read_of_idle hidle rfl hin

/-- Settles O41: both writes replace the selected buffer. -/
theorem bufferLengthAndKind : Obligations.BufferLengthAndKind := by
  intro s v hidle hb b
  have hin : s.windowOut .bufLen false = false := decide_eq_false (not_le.2 hb)
  obtain ⟨hlen, hother, hframe, hread, -⟩ := bufRegisters_setBuf hidle hb { s.buf b with len := v }
  obtain ⟨hkind, hother', hframe', -, hread'⟩ := bufRegisters_setBuf hidle hb { s.buf b with kind := BufKind.ofCode v }
  rw [BufKind.code_ofCode] at hread'
  rw [← BufKind.ofCode_eq]
  exact ⟨⟨_, write_of_idle hidle rfl v hin, hlen, hother, hframe, hread⟩,
    _, write_of_idle hidle rfl v hin, hkind, hother', hframe', hread'⟩

/-! The constellation memory. -/

/-- The halves of a CONST entry's word (R46). -/
theorem ConstEntry.word_halves (e : ConstEntry) : e.word.extractLsb' 0 32 = e.i ∧ e.word.extractLsb' 32 32 = e.q := by
  exact ⟨BitVec.extractLsb'_append_eq_right, BitVec.extractLsb'_append_eq_left⟩

/-- Settles O42: a write is one memory write, a read answers the entry's word. -/
theorem constDataWindow : Obligations.ConstDataWindow := by
  intro s v hidle i
  refine ⟨fun hout => ?_, fun hin => ?_⟩
  · have hwindow (isRead : Bool) : s.windowOut .constData isRead = true := decide_eq_true hout
    exact ⟨access_windowOut hidle rfl (hwindow _), access_windowOut hidle rfl (hwindow _)⟩
  · have hwindow := windowOut_constData_in hin
    obtain ⟨w, hanswer, hw⟩ :=
      State.answer_cases { s with constIdx := s.constIdx + 1#64 } ((Memory.read s.consts i).map ConstEntry.word)
    refine ⟨⟨_, write_of_idle hidle rfl v (hwindow _), rfl, Memory.read_write_same _ _ _,
      fun j hj => Memory.read_write_other _ _ hj⟩, _, w, read_of_idle hidle rfl (hwindow _), hanswer, fun e he => ?_⟩
    rw [hw e.word (by rw [he]; rfl)]
    exact e.word_halves

/-! The kernels. -/

/-- Settles O43: writes change nothing, and reads answer what the windows show. -/
theorem kernelWindows : Obligations.KernelWindows := by
  intro s v hidle
  obtain ⟨wk, hkern, hwk⟩ := State.answer_cases { s with kernIdx := s.kernIdx + 1#64 } (s.kernShown s.kernIdx.toNat)
  obtain ⟨wl, hlpf, hwl⟩ := State.answer_cases { s with lpfIdx := s.lpfIdx + 1#64 } (s.lpfShown s.lpfIdx.toNat)
  refine ⟨write_of_idle hidle rfl v rfl, write_of_idle hidle rfl v rfl, fun hout => ?_, fun hout => ?_, fun hin => ?_,
    fun hin => ?_⟩
  · exact access_windowOut hidle rfl (decide_eq_true hout)
  · exact access_windowOut hidle rfl (decide_eq_true hout)
  · refine ⟨_, wk, read_of_idle hidle rfl (decide_eq_false (not_le.2 hin)), hkern, fun hcfg hlen x hx => hwk x ?_⟩
    simp [State.kernShown, hcfg, hlen, hx]
  · refine ⟨_, wl, read_of_idle hidle rfl (decide_eq_false (not_le.2 hin)), hlpf, fun hcfg x hx => hwl x ?_⟩
    simp [State.lpfShown, hcfg, hx]

/-! Reset. -/

/-- Settles O49: the registers by their reset values, the memories because they are empty. -/
theorem resetValues : Obligations.ResetValues := by
  refine ⟨fun off v hmem => ?_, fun b i => ?_, rfl, rfl, fun v => rfl, rfl, rfl⟩
  · simp only [List.mem_cons, Prod.mk.injEq, List.not_mem_nil, or_false] at hmem
    casesm* _ ∨ _, _ ∧ _
    all_goals
      subst_vars
      exact read_of_idle rfl rfl rfl
  · rw [State.word, State.buf_reset]; exact ⟨rfl, rfl, rfl⟩

end Sys2Proof.Machine
end

section
/-! PROOFS. The invariant: it holds after reset, and every command and every host access keeps it (10_state.md R52, R60,
60_exceptions.md R128, 40_config.md R99). -/

namespace Sys2Proof.Machine

/-! What the invariant rests on. A change of any other register is no change of it, by definition. -/

section Changes

variable {s : State}

theorem State.Inv.bufs_wf (h : s.Inv) {b : Nat} (hb : b < Config.nBuf) :
    Memory.wf Config.bufWords (s.buf b).words = true := h.1 b hb

theorem State.Inv.consts_wf (h : s.Inv) : Memory.wf Config.constCap s.consts = true := h.2.1

theorem State.Inv.err_legal (h : s.Inv) : legalErr s.status.err = true := h.2.2.1

/-- A change of STATUS that leaves a legal ERR and does not set CFG_VALID. -/
theorem State.Inv.withStatus (h : s.Inv) {t : Status} (herr : legalErr t.err = true)
    (hcfg : t.cfgValid = true → s.status.cfgValid = true) : ({ s with status := t } : State).Inv := by
  obtain ⟨hbufs, hconsts, -, hderived⟩ := h
  exact ⟨hbufs, hconsts, herr, fun hvalid => hderived (hcfg hvalid)⟩

/-- A buffer replaced by one in canonical form (R52). -/
theorem State.Inv.setBuf (h : s.Inv) (b : Nat) {x : Buffer} (hx : Memory.wf Config.bufWords x.words = true) :
    (s.setBuf b x).Inv := by
  obtain ⟨hbufs, hconsts, herr, hderived⟩ := h
  refine ⟨fun c hc => ?_, hconsts, herr, hderived⟩
  by_cases hcb : c = b
  · subst hcb; rwa [State.buf_setBuf_same _ _ hc]
  · rw [State.buf_setBuf_other _ _ hcb]; exact hbufs c hc

/-- Once CFG_VALID is 0 the configuration and the table are free, as long as the table is in canonical form (R28). -/
theorem State.Inv.invalidated (h : s.Inv) {t : State} (hbufs : t.bufs = s.bufs)
    (hconsts : Memory.wf Config.constCap t.consts = true) (herr : t.status.err = s.status.err)
    (hcfg : t.status.cfgValid = false) : t.Inv := by
  refine ⟨fun b hb => ?_, hconsts, herr ▸ h.err_legal, fun hvalid => ?_⟩
  · rw [State.buf, hbufs]; exact h.bufs_wf hb
  · rw [hcfg] at hvalid; cases hvalid

/-- CONFIG makes the derived registers those of the current configuration (R89). -/
theorem State.Inv.putDerived (h : s.Inv) {d : Derived} (hd : s.configure = .ok d) : (s.putDerived d).Inv := by
  obtain ⟨hbufs, hconsts, herr, -⟩ := h
  exact ⟨hbufs, hconsts, herr, fun _ => hd⟩

end Changes

/-! Reset. -/

/-- Settles O50: after reset no memory holds a word and CFG_VALID is 0. -/
theorem resetMeetsInvariant : Obligations.ResetMeetsInvariant := by
  refine ⟨fun b _ => ?_, rfl, rfl, fun hvalid => ?_⟩
  · rw [State.buf_reset]; rfl
  · cases hvalid

theorem State.hardReset_inv (s : State) : s.hardReset.Inv := resetMeetsInvariant

/-! Commands. -/

section Commands

variable {s : State}

theorem legalErr_code (e : ErrCode) : legalErr e.code = true := by cases e <;> rfl

theorem State.Inv.complete (h : s.Inv) (opc : BitVec 8) : (s.complete opc).Inv :=
  h.withStatus (t := s.status.completed opc 0#8) rfl id

theorem State.Inv.raiseError (h : s.Inv) (opc : BitVec 8) (e : ErrCode) : (s.raiseError opc e).Inv := by
  refine h.withStatus (legalErr_code e) fun hvalid => ?_
  dsimp only at hvalid
  split at hvalid
  · cases hvalid
  · exact hvalid

theorem WritesBuffer.inv {dst : Nat} {r : State} (hr : WritesBuffer dst s r) (h : s.Inv) : r.Inv := by
  obtain ⟨y, hfits, rfl⟩ := hr
  exact h.setBuf dst (y.wf_buffer hfits)

/-- The noise and fading registers are none of the invariant's. -/
theorem CommandWrites.inv {i : Instr} {r : State} (hr : CommandWrites i s r) (h : s.Inv) : r.Inv := by
  cases i with
  | nop => obtain rfl : r = s := hr; exact h
  | config => obtain ⟨d, hd, rfl⟩ := hr; exact h.putDerived hd
  | awgn =>
    obtain ⟨r0, hr0, rfl | ⟨n, sig, rfl⟩⟩ := hr
    · exact hr0.inv h
    · exact hr0.inv h
  | fadeRay => obtain ⟨r0, g, hr0, rfl⟩ := hr; exact hr0.inv h
  | fadeRic => obtain ⟨r0, g, hr0, rfl⟩ := hr; exact hr0.inv h
  | _ => exact WritesBuffer.inv hr h

theorem exec_inv {i : Instr} {t : State} (h : s.Inv) (hexec : exec i s = .next t) : t.Inv := by
  rcases exec_outcome i s with ⟨e, he⟩ | ⟨r, hr, he⟩
  · obtain rfl : s.raiseError i.opcode e = t := by simpa [he] using hexec
    exact h.raiseError _ e
  · obtain rfl : r.complete i.opcode = t := by simpa [he] using hexec
    exact (hr.inv h).complete _

theorem engineTurn_inv {t : State} (h : s.Inv) (hturn : engineTurn s = .next t) : t.Inv := by
  unfold engineTurn engineStep at hturn
  split at hturn
  · split at hturn
    · exact exec_inv h hturn
    · obtain rfl : s.raiseError (fieldOpc s.cmd) .illegal = t := by simpa using hturn
      exact h.raiseError _ _
  · obtain rfl : s = t := by simpa using hturn
    exact h

end Commands

/-! Host accesses. -/

section Accesses

variable {s : State}

theorem State.Inv.answer (h : s.Inv) (w : Option Word) : (s.answer w).Inv := by cases w <;> exact h

theorem State.Inv.readIdle (h : s.Inv) (r : Reg) : (s.readIdle r).Inv := by
  unfold State.readIdle
  split <;> (apply State.Inv.answer; exact h)

theorem State.Inv.readBusy (h : s.Inv) (r : Reg) : (s.readBusy r).Inv := by
  unfold State.readBusy
  split <;> exact h.answer _

theorem State.Inv.writeCtrl (h : s.Inv) (v : Word) : (s.writeCtrl v).Inv := by
  unfold State.writeCtrl
  split
  · exact s.hardReset_inv
  · exact h

theorem State.Inv.writeStatus (h : s.Inv) (v : Word) : ({ s with status := s.status.writeOneToClear v } : State).Inv :=
  h.withStatus (t := s.status.writeOneToClear v) h.err_legal id

theorem State.Inv.issue (h : s.Inv) (c : Word) : (s.issue c).Inv := by
  unfold State.issue
  split
  · exact h.withStatus h.err_legal id
  · exact h.withStatus (t := s.status.issued) h.err_legal id

/-- A CONST_DATA write below the capacity keeps the table in canonical form (R46). -/
theorem State.Inv.writeConst (h : s.Inv) (hin : s.constIdx.toNat < Config.constCap) (v : Word) : (s.writeConst v).Inv := by
  exact h.invalidated rfl (Memory.wf_write _ h.consts_wf hin) rfl rfl

/-- A BUF_DATA write below the capacity keeps the buffer in canonical form (R43). -/
theorem State.Inv.writeBufData (h : s.Inv) (hb : s.bufSel.toNat < Config.nBuf) (hp : s.bufPtr.toNat < Config.bufWords)
    (v : Word) : (s.writeBufData v).Inv := by
  exact h.setBuf s.bufSel.toNat (Memory.wf_write v (h.bufs_wf hb) hp)

theorem State.Inv.writeIdle (h : s.Inv) {r : Reg} (hin : s.windowOut r false = false) (v : Word) :
    (s.writeIdle r v).Inv := by
  cases r with
  | ctrl => exact h.writeCtrl v
  | status => exact h.writeStatus v
  | cmd => exact h.issue v
  | scheme | bitRate | carrierHz | alpha | lpfMult => exact h.invalidated rfl h.consts_wf rfl rfl
  | ricianKDb => exact h.withStatus (t := { s.status with kValid := true }) h.err_legal id
  | bufData =>
    obtain ⟨hb, hp⟩ : s.bufSel.toNat < Config.nBuf ∧ s.bufPtr.toNat < Config.bufWords := by
      simpa [State.windowOut] using hin
    exact h.writeBufData hb hp v
  | bufLen | bufKind => exact h.setBuf _ (h.bufs_wf (by simpa [State.windowOut] using hin))
  | constData => exact h.writeConst (by simpa [State.windowOut] using hin) v
  | _ => exact h

theorem State.Inv.writeBusy (h : s.Inv) (r : Reg) (v : Word) : (s.writeBusy r v).Inv := by
  unfold State.writeBusy
  split
  · exact h.writeCtrl v
  · exact h.writeStatus v
  · exact h.issue v
  · split
    · exact h
    · exact h.withStatus h.err_legal id

/-- Only an idle access whose window index is in range, or a busy one, is answered. -/
theorem accessOffset_inv {off width : Nat} {wdata : Option Word} {t : State} (h : s.Inv)
    (haccess : accessOffset off width wdata s = .next t) : t.Inv := by
  unfold accessOffset at haccess
  split at haccess
  · cases haccess
  split at haccess
  · cases haccess
  next hadmitted =>
  obtain rfl : s.accessReg (regAt off) wdata = t := by simpa using haccess
  cases hbusy : s.status.busy <;> cases wdata <;> simp only [State.accessReg, hbusy]
  · exact h.readIdle _
  · exact h.writeIdle (by simpa [hbusy] using hadmitted) _
  · exact h.readBusy _
  · exact h.writeBusy _ _

theorem busStep_inv {a : BusAccess} {t : State} (h : s.Inv) (hstep : busStep a s = .next t) : t.Inv := by
  unfold busStep at hstep
  split at hstep
  · obtain rfl : s = t := by simpa using hstep
    exact h
  · exact accessOffset_inv h hstep

end Accesses

/-! Steps. -/

theorem handleEvent_inv {s t : State} {e : HostEvent} (h : s.Inv) (hstep : handleEvent e s = .next t) : t.Inv := by
  cases e with
  | bus a => exact busStep_inv h hstep
  | rst =>
    obtain rfl : s.hardReset = t := by simpa [handleEvent] using hstep
    exact s.hardReset_inv
  | engine => exact engineTurn_inv h hstep

/-- Settles O51: the engine's turn and every event keep the invariant, and taking an event off the inbox is no change of
it. -/
theorem stepKeepsInvariant : Obligations.StepKeepsInvariant := by
  intro s t h hstep
  cases hinbox : s.inbox with
  | nil => exact engineTurn_inv h (step_of_inbox_nil hinbox ▸ hstep)
  | cons e rest => exact handleEvent_inv (s := { s with inbox := rest }) h (step_of_inbox_cons hinbox ▸ hstep)

end Sys2Proof.Machine
end

section
/-! PROOFS. The NCO ROM against the real cosines and sines of its phases (10_state.md R57). -/

namespace Sys2Proof.Machine

theorem one_lt_overflow : (1 : ℝ) < 2 ^ 1024 - 2 ^ 970 := by
  have h1 : (1 : ℝ) ≤ 2 ^ 970 := one_le_pow₀ (by norm_num)
  have h2 : (2 : ℝ) ^ 1024 = 2 ^ 54 * 2 ^ 970 := by rw [← pow_add]
  rw [h2]
  generalize (2 : ℝ) ^ 970 = z at h1 ⊢
  linarith

/-- The word an enclosure rounds to is nearest to every real of size at most 1 that it holds. -/
theorem isNearest_of_round {e : Enc} {w : Word} {x : ℝ} (hx : e.Holds x) (h1 : |x| ≤ 1) (h : e.round? = some w) :
    IsNearest x w := by
  obtain ⟨hrn, -⟩ := Enc.round?_sound hx h
  obtain ⟨hnear, -⟩ := hrn.1 (h1.trans_lt one_lt_overflow)
  exact hnear

/-- Each table entry is what 128 bits of precision round to. -/
theorem ncoCos_rounds : ∀ m : Nat, m < 20 → ((cosPi 128 (piIv 128) ((m : ℚ) / 10)).enc 128).round? = some (ncoCos m) := by
  decide +kernel

theorem ncoSin_rounds : ∀ m : Nat, m < 20 → ((sinPi 128 (piIv 128) ((m : ℚ) / 10)).enc 128).round? = some (ncoSin m) := by
  decide +kernel

/-- Phase `m` of the ROM as a rational multiple of π. -/
theorem ncoPhase_eq (m : Nat) : Real.pi * m / 10 = Real.pi * (((m : ℚ) / 10 : ℚ) : ℝ) := by push_cast; ring

/-- Settles O56: the enclosures hold the cosines and sines, and round to the table. -/
theorem ncoRomIsNearest : Obligations.NcoRomIsNearest := by
  have hπ := piIv_holds 128
  refine ⟨fun m hm => ?_, rfl, rfl, rfl, rfl⟩
  rw [ncoPhase_eq]
  exact ⟨isNearest_of_round (cosPi_holds (by norm_num) hπ _).enc (Real.abs_cos_le_one _) (ncoCos_rounds m hm),
    isNearest_of_round (sinPi_holds (by norm_num) hπ _).enc (Real.abs_sin_le_one _) (ncoSin_rounds m hm)⟩

end Sys2Proof.Machine
end

section
/-! PROOFS. The accesses that end with a bus error (20_memory.md R66). -/

namespace Sys2Proof.Machine

/-- R66, step 2, by register: which window accesses are out of range. -/
theorem State.windowOut_iff (s : State) (r : Reg) (isRead : Bool) :
    s.windowOut r isRead = true ↔
      (r ∈ [Reg.bufData, .bufLen, .bufKind] ∧ Config.nBuf ≤ s.bufSel.toNat)
        ∨ (r = .bufData ∧ Config.bufWords ≤ s.bufPtr.toNat) ∨ (r = .constData ∧ Config.constCap ≤ s.constIdx.toNat)
        ∨ (r = .kernData ∧ isRead = true ∧ Config.kernCap ≤ s.kernIdx.toNat)
        ∨ (r = .lpfData ∧ isRead = true ∧ Config.lpfTaps ≤ s.lpfIdx.toNat) := by
  cases r <;> simp [State.windowOut]

/-- The offset of each register that has a window range (R16). -/
theorem regAt_windows (off : Nat) :
    (regAt off = .bufData ↔ off = 0x190) ∧ (regAt off = .bufLen ↔ off = 0x198) ∧ (regAt off = .bufKind ↔ off = 0x1A0)
      ∧ (regAt off = .constData ↔ off = 0x1C8) ∧ (regAt off = .kernData ↔ off = 0x1D8)
      ∧ (regAt off = .lpfData ↔ off = 0x1E8) := by
  unfold regAt
  split <;> simp_all

/-- Past the first step of R66 only the window's range decides. -/
theorem accessOffset_aligned {off : Nat} (haligned : off % 8 = 0) (wdata : Option Word) (s : State) :
    accessOffset off 8 wdata s =
      if s.status.busy = false ∧ s.windowOut (regAt off) wdata.isNone = true then .fault .busWindowRange
      else .next (s.accessReg (regAt off) wdata) :=
  if_neg (by simp [haligned])

/-- R66, step 2, for an aligned access of full width: a bus error exactly when idle with the window out of range. -/
theorem accessOffset_windowRange_iff {off : Nat} (haligned : off % 8 = 0) (wdata : Option Word) (s : State) :
    accessOffset off 8 wdata s = .fault .busWindowRange
      ↔ s.status.busy = false ∧ s.windowOut (regAt off) wdata.isNone = true := by
  simp [accessOffset_aligned haligned]

/-- Settles O44: the first step of R66 by definition, the second by the windows' registers and their offsets. -/
theorem busErrorList : Obligations.BusErrorList := by
  intro s off width wdata
  refine ⟨fun hmisaligned => if_pos hmisaligned, ?_⟩
  rintro rfl haligned
  have hrange := accessOffset_windowRange_iff haligned wdata s
  refine ⟨?_, fun hadmitted => ⟨_, (accessOffset_aligned haligned wdata s).trans (if_neg (hrange.not.1 hadmitted))⟩⟩
  obtain ⟨hdata, hlen, hkind, hconst, hkern, hlpf⟩ := regAt_windows off
  rw [hrange, State.windowOut_iff]
  simp only [List.mem_cons, List.not_mem_nil, or_false, hdata, hlen, hkind, hconst, hkern, hlpf,
    Option.isNone_iff_eq_none, Config.nBuf, Config.bufWords, Config.constCap, Config.kernCap, Config.lpfTaps]

end Sys2Proof.Machine
end

section
/-! PROOFS. Decoding by the fields of the word, and the completion of a reserved encoding (30_encoding.md R80 to R86). -/

namespace Sys2Proof

/-! The fields that a command's word must have (R80, R83). -/

theorem fieldOpc_eq_iff (c : Word) (k : BitVec 8) : fieldOpc c = k ↔ c.toNat % 2 ^ 8 = k.toNat := by
  rw [← toNat_fieldOpc, BitVec.toNat_eq]

/-- The word has the command's row of the opcode table in its fields. -/
structure FieldsMatch (c : Word) (i : Instr) : Prop where
  rsv : fieldRsv c = 0#40
  opc : fieldOpc c = i.opcode
  flags : fieldFlags c = i.flags
  operands : i.operands.getD (0, 0) = (fieldDst c, fieldSrc c)

/-- A command without operands has its row once SRC and DST are 0 and OPC and FLAGS agree. -/
theorem FieldsMatch.of_control {c : Word} {i : Instr} (hrsv : fieldRsv c = 0#40)
    (hopc : (fieldOpc c).toNat = i.opcode.toNat) (hflags : fieldFlags c = i.flags) (hsrc : fieldSrc c = 0)
    (hdst : fieldDst c = 0) (hnone : i.operands = none) : FieldsMatch c i :=
  ⟨hrsv, BitVec.eq_of_toNat_eq hopc, hflags, by simp [hnone, hsrc, hdst]⟩

/-- A data command built on the word's own DST and SRC fields has its row once OPC and FLAGS agree. -/
theorem FieldsMatch.of_data {c : Word} {i : Instr} (hrsv : fieldRsv c = 0#40)
    (hopc : (fieldOpc c).toNat = i.opcode.toNat) (hflags : fieldFlags c = i.flags)
    (hsome : i.operands = some (fieldDst c, fieldSrc c)) : FieldsMatch c i :=
  ⟨hrsv, BitVec.eq_of_toNat_eq hopc, hflags, by simp [hsome]⟩

/-- What the decoder answers has its row in the word's fields. -/
theorem fieldsMatch_of_decode {c : Word} {i : Instr} (h : decode c = .ok i) : FieldsMatch c i := by
  unfold decode at h
  split at h
  · cases h
  next hrsv =>
    have hrsv : fieldRsv c = 0#40 := not_not.1 hrsv
    split at h
    -- NOP and CONFIG
    case h_1 hopc | h_2 hopc =>
      obtain ⟨hf, hsrc, hdst, rfl⟩ := (decodeControl_eq_ok c _ i).1 h
      exact .of_control hrsv hopc hf hsrc hdst rfl
    -- FADE, MATCH and SAMPLE, whose FLAGS select the variant
    case h_8 hopc | h_13 hopc | h_14 hopc =>
      rcases (decodeVariant_eq_ok c _ _ i).1 h with ⟨hf, rfl⟩ | ⟨hf, rfl⟩ <;> exact .of_data hrsv hopc hf rfl
    -- no opcode of R83
    case h_16 => cases h
    -- the ten commands without option bits
    all_goals
      next hopc =>
        obtain ⟨hf, rfl⟩ := (decodePlain_eq_ok c _ i).1 h
        exact .of_data hrsv hopc hf rfl

theorem decode_of_fieldsMatch {c : Word} {i : Instr} (h : FieldsMatch c i) : decode c = .ok i := by
  obtain ⟨hrsv, hopc, hflags, hops⟩ := h
  cases i with
  | nop | config =>
    obtain ⟨hdst, hsrc⟩ := Prod.mk.inj hops
    simp [decode, hrsv, hopc, Instr.opcode, decodeControl_eq_ok, hflags, Instr.flags, ← hdst, ← hsrc]
  | fadeRay | fadeRic | matchFull | matchTrim | sample | sampleAuto =>
    obtain ⟨rfl, rfl⟩ := Prod.mk.inj hops
    simp [decode, hrsv, hopc, Instr.opcode, decodeVariant_eq_ok, hflags, Instr.flags]
  | _ =>
    obtain ⟨rfl, rfl⟩ := Prod.mk.inj hops
    simp [decode, hrsv, hopc, Instr.opcode, decodePlain_eq_ok, hflags, Instr.flags]

theorem decode_eq_ok_iff {c : Word} {i : Instr} : decode c = .ok i ↔ FieldsMatch c i :=
  ⟨fieldsMatch_of_decode, decode_of_fieldsMatch⟩

/-- The fields as numbers, written as R80 writes them. -/
theorem fieldsMatch_iff_toNat {c : Word} {i : Instr} :
    FieldsMatch c i ↔ c.toNat / 2 ^ 24 = 0 ∧ c.toNat % 2 ^ 8 = i.opcode.toNat
      ∧ c.toNat / 2 ^ 16 % 2 ^ 8 = i.flags.toNat
      ∧ i.operands.getD (0, 0) = (c.toNat / 2 ^ 12 % 2 ^ 4, c.toNat / 2 ^ 8 % 2 ^ 4) := by
  rw [← fieldSrc_eq, ← fieldDst_eq, ← fieldOpc_eq_iff, ← fieldFlags_eq_iff]
  have hrsv := fieldRsv_eq_iff c 0#40
  exact ⟨fun ⟨r, o, f, d⟩ => ⟨hrsv.1 r, o, f, d⟩, fun ⟨r, o, f, d⟩ => ⟨hrsv.2 r, o, f, d⟩⟩

/-! The round trip (R84). -/

theorem fieldsMatch_encode {i : Instr} (hwf : i.wellFormed = true) : FieldsMatch (encode i) i := by
  have hstatement : Laws.EncodingFields.Statement i := by
    cases i with
    | nop => exact Laws.EncodingFields.nop
    | config => exact Laws.EncodingFields.config
    | _ => exact Laws.EncodingFields.of_data rfl
  obtain ⟨hrsv, hopc, hflags, hops⟩ := hstatement hwf
  exact ⟨hrsv, hopc, hflags, hops.symm⟩

/-- Settles O1: the encoded word has the command's row in its fields, and such a word decodes to the command. -/
theorem decodeEncodeRoundTrip : Obligations.DecodeEncodeRoundTrip :=
  fun _ hwf => decode_of_fieldsMatch (fieldsMatch_encode hwf)

/-- Settles O2, by the row of each mnemonic. -/
theorem decodeFollowsRuleR84 : Obligations.DecodeFollowsRuleR84 := by
  intro c i
  rw [decode_eq_ok_iff, fieldsMatch_iff_toNat]
  refine and_congr_right fun _ => ?_
  cases i with
  | nop | config =>
    simp only [Instr.opcode, Instr.flags, Instr.operands, Option.getD_none, Prod.mk.injEq]
    refine and_congr_right fun _ => ?_
    exact ⟨fun ⟨f, d, s⟩ => ⟨s.symm, d.symm, f⟩, fun ⟨s, d, f⟩ => ⟨f, d.symm, s.symm⟩⟩
  | _ => exact and_congr_right fun _ => and_congr_right fun _ => Prod.ext_iff

theorem decode_of_encode_eq {c : Word} {i : Instr} (hwf : i.wellFormed = true) (hc : encode i = c) :
    decode c = .ok i := hc ▸ decodeEncodeRoundTrip i hwf

/-- Settles O3: each word of the table is the encoding of the command beside it. -/
theorem assemblyExamplesDecode : Obligations.AssemblyExamplesDecode := by
  unfold Obligations.AssemblyExamplesDecode
  and_intros <;> exact decode_of_encode_eq rfl rfl

/-! Reserved encodings (R85). -/

theorem Instr.opcode_mem (i : Instr) :
    i.opcode.toNat ∈ [0x00, 0x01, 0x10, 0x11, 0x12, 0x13, 0x20, 0x21, 0x22, 0x23, 0x24, 0x30, 0x31, 0x32, 0x33] := by
  cases i <;> simp [Instr.opcode]

/-- A FLAGS field that is not 0 is the variant bit of FADE, MATCH or SAMPLE (R82). -/
theorem Instr.flags_eq_one {i : Instr} (h : i.flags.toNat ≠ 0) :
    i.flags.toNat = 1 ∧ (i.opcode.toNat = 0x21 ∨ i.opcode.toNat = 0x31 ∨ i.opcode.toNat = 0x32) := by
  cases i with
  | fadeRic | matchTrim | sampleAuto => simp [Instr.flags, Instr.opcode]
  | _ => exact absurd rfl h

/-- NOP and CONFIG have no flag and no operand (R83). -/
theorem Instr.control_of_opcode_lt {i : Instr} (h : i.opcode.toNat < 2) :
    i.flags.toNat = 0 ∧ i.operands.getD (0, 0) = (0, 0) := by
  cases i with
  | nop | config => exact ⟨rfl, rfl⟩
  | _ => simp [Instr.opcode] at h

/-- R85's four points, on the number of the word. -/
def ReservedEncoding (c : Nat) : Prop :=
  c % 2 ^ 8 ∉ [0x00, 0x01, 0x10, 0x11, 0x12, 0x13, 0x20, 0x21, 0x22, 0x23, 0x24, 0x30, 0x31, 0x32, 0x33]
    ∨ c / 2 ^ 24 ≠ 0
    ∨ (c / 2 ^ 16 % 2 ^ 8 ≠ 0
        ∧ ¬ (c / 2 ^ 16 % 2 ^ 8 = 1 ∧ (c % 2 ^ 8 = 0x21 ∨ c % 2 ^ 8 = 0x31 ∨ c % 2 ^ 8 = 0x32)))
    ∨ (c % 2 ^ 8 < 2 ∧ c / 2 ^ 8 % 2 ^ 16 ≠ 0)

theorem FieldsMatch.not_reserved {c : Word} {i : Instr} (h : FieldsMatch c i) : ¬ ReservedEncoding c.toNat := by
  obtain ⟨hrsv, hopc, hflags, hops⟩ := fieldsMatch_iff_toNat.1 h
  unfold ReservedEncoding
  rw [hopc, hflags]
  rintro (hnot | hnot | ⟨hne, hnot⟩ | ⟨hlt, hnot⟩)
  · exact hnot i.opcode_mem
  · exact hnot hrsv
  · exact hnot (Instr.flags_eq_one hne)
  · obtain ⟨hzero, hnone⟩ := Instr.control_of_opcode_lt hlt
    obtain ⟨hdst, hsrc⟩ := Prod.mk.inj (hnone.symm.trans hops)
    omega

theorem decode_reserved {c : Word} (h : ReservedEncoding c.toNat) : ∃ e, decode c = .error e := by
  cases hdec : decode c with
  | error e => exact ⟨e, rfl⟩
  | ok i => exact absurd h (fieldsMatch_of_decode hdec).not_reserved

namespace Machine

theorem engineTurn_of_illegal {s : State} {e : DecodeError} (hbusy : s.status.busy = true)
    (he : decode s.cmd = .error e) : engineTurn s = .next (s.raiseError (fieldOpc s.cmd) .illegal) := by
  unfold engineTurn engineStep; rw [hbusy, he]; rfl

/-- Settles O5: a reserved word decodes to no command, so the engine's turn raises E_ILLEGAL. -/
theorem reservedEncodingIsIllegal : Obligations.ReservedEncodingIsIllegal := by
  intro s hbusy hnil hreserved
  obtain ⟨e, he⟩ := decode_reserved hreserved
  have hconfig : fieldOpc s.cmd = 0x01#8 ↔ s.cmd.toNat % 2 ^ 8 = 1 := fieldOpc_eq_iff s.cmd 0x01#8
  rw [step_of_inbox_nil hnil, engineTurn_of_illegal hbusy he]
  simp only [State.raiseError, hconfig]
  rfl

end Machine
end Sys2Proof
end

section
/-! PROOFS. The numbers CONFIG computes with: round half to even, the scaling constant S and the lists of roundings that
make its kernels (40_config.md R91, R94, R96). -/

namespace Sys2Proof.Machine

/-! Round half to even, and S. -/

/-- A non-negative rational is the ratio of natural numbers the model takes it for. -/
theorem cast_natAbs_num_div_den {r : ℚ} (hr : 0 ≤ r) : (r.num.natAbs : ℝ) / r.den = r := by
  rw [Rat.cast_def, Nat.cast_natAbs, abs_of_nonneg (Rat.num_nonneg.2 hr)]

theorem roundHalfEven_roundsTo {r : ℚ} (hr : 0 ≤ r) : RoundsTo r (roundHalfEven r) := by
  rw [← cast_natAbs_num_div_den hr]
  exact roundNearestEven_spec _ r.den_pos

/-- Settles O53: `roundHalfEven` is the model's integer rounding of numerator by denominator. -/
theorem roundHalfEvenRule : Obligations.RoundHalfEvenRule := by
  intro r hr
  obtain ⟨hnear, htie⟩ := roundHalfEven_roundsTo hr
  refine ⟨(Rat.cast_le (K := ℝ)).1 (by push_cast; exact hnear), fun h => htie ?_, by decide +kernel, by decide +kernel,
    by decide +kernel⟩
  have hreal := congrArg (Rat.cast : ℚ → ℝ) h
  push_cast at hreal
  exact hreal

theorem scaleS_of_le {o : Nat} (h : o ≤ 2) : scaleS o = 0x3FF0000000000000#64 := if_pos h

theorem scaleS_of_gt {o : Nat} (h : 2 < o) : scaleS o = rnSqrtRat (2 * (2 ^ o - 1) / 3) := if_neg (by omega)

theorem two_pow_twelve_lt_overflow : (2 : ℝ) ^ 12 < 2 ^ 1024 - 2 ^ 970 := by
  have hle : (2 : ℝ) ^ 12 ≤ 2 ^ 970 := pow_le_pow_right₀ (by norm_num) (by norm_num)
  have hsplit : (2 : ℝ) ^ 1024 = 2 ^ 54 * 2 ^ 970 := by rw [← pow_add]
  rw [hsplit]
  generalize (2 : ℝ) ^ 970 = z at hle ⊢
  linarith

/-- The radicand of R96 lies far below the overflow threshold for every order of R2. -/
theorem scaleS_isNearest {o : Nat} (hlo : 2 < o) (hhi : o ≤ 12) :
    IsNearest (Real.sqrt (2 * (2 ^ o - 1) / 3)) (scaleS o) := by
  have hone : (1 : ℚ) ≤ 2 ^ o := one_le_pow₀ (by norm_num)
  obtain ⟨hrn, -⟩ := rnSqrtRat_spec (q := 2 * (2 ^ o - 1) / 3) (by linarith)
  rw [← scaleS_of_gt hlo] at hrn
  push_cast at hrn
  refine (hrn.1 ?_).1
  have hpow : (2 : ℝ) ^ o ≤ 2 ^ 12 := pow_le_pow_right₀ (by norm_num) hhi
  have hsqrt : Real.sqrt (2 * (2 ^ o - 1) / 3) < 2 ^ 12 := by
    rw [Real.sqrt_lt' (by positivity)]; linarith
  rw [abs_of_nonneg (Real.sqrt_nonneg _)]
  exact hsqrt.trans two_pow_twelve_lt_overflow

/-- Settles O54: the roots are RN of exact rationals, and the table's bits are computed. -/
theorem scaleConstants : Obligations.ScaleConstants := by
  refine ⟨fun _ => scaleS_of_le, fun o ho => ?_, by decide +kernel, by decide +kernel, by decide +kernel,
    by decide +kernel, by decide +kernel⟩
  have hrange : 2 < o ∧ o ≤ 12 := by simp only [List.mem_cons, List.not_mem_nil, or_false] at ho; omega
  exact scaleS_isNearest hrange.1 hrange.2

/-! Lists of roundings: whatever precision decides, the answer is one word per enclosure. -/

theorem Enc.pick_of_round {e : Enc} {w : Word} (h : e.round? = some w) : e.pick = w := by simp [Enc.pick, h]

theorem roundAll?_eq_map_pick : ∀ {es : List Enc} {ws : List Word}, roundAll? es = some ws → ws = es.map Enc.pick
  | [], ws, h => by simpa [roundAll?, eq_comm] using h
  | e :: es, ws, h => by
    simp only [roundAll?] at h
    split at h
    · next w vs hw hvs =>
      obtain rfl : w :: vs = ws := by simpa using h
      rw [roundAll?_eq_map_pick hvs, List.map_cons, Enc.pick_of_round hw]
    · cases h

theorem rnListAt_eq_map_pick (enc : Nat → List Enc) : ∀ ps : List Nat, ∃ p, rnListAt enc ps = (enc p).map Enc.pick
  | [] => ⟨lastPrecision, rfl⟩
  | p :: ps => by
    simp only [rnListAt]
    split
    · next ws hws => exact ⟨p, roundAll?_eq_map_pick hws⟩
    · exact rnListAt_eq_map_pick enc ps

theorem length_rnList {enc : Nat → List Enc} {n : Nat} (h : ∀ p, (enc p).length = n) : (rnList enc).length = n := by
  obtain ⟨p, hp⟩ := rnListAt_eq_map_pick enc precisions
  rw [rnList, hp, List.length_map, h]

/-- Places whose enclosures agree at every precision hold the same word, a freely picked one too (log 10). -/
theorem getElem?_rnList_congr {enc : Nat → List Enc} {i j : Nat} (h : ∀ p, (enc p)[i]? = (enc p)[j]?) :
    (rnList enc)[i]? = (rnList enc)[j]? := by
  obtain ⟨p, hp⟩ := rnListAt_eq_map_pick enc precisions
  rw [rnList, hp, List.getElem?_map, List.getElem?_map, h]

@[simp] theorem length_rrcKernel (a R : ℚ) (sps : Nat) : (rrcKernel a R sps).length = 6 * sps :=
  length_rnList fun p => by simp [rrcEncs]

@[simp] theorem length_lpfKernel (nu : ℚ) : (lpfKernel nu).length = 101 :=
  length_rnList fun p => by simp [windowedSincEnc]

/-- The pulse is taken at `|u|`, so places equally far from the centre have one enclosure (R94). -/
theorem rrcEncs_symm (a R : ℚ) {sps j : Nat} (hj : j < 3 * sps) (p : Nat) :
    (rrcEncs a R sps p)[3 * sps + j]? = (rrcEncs a R sps p)[3 * sps - j]? := by
  have habs : |(((3 * sps + j : Nat) : ℚ) - 3 * sps) / R| = |(((3 * sps - j : Nat) : ℚ) - 3 * sps) / R| := by
    rw [Nat.cast_sub hj.le, abs_div, abs_div]
    push_cast
    rw [add_sub_cancel_left, sub_sub_cancel_left, abs_neg]
  simp only [rrcEncs, List.getElem?_map, List.getElem?_range (show 3 * sps + j < 6 * sps by omega),
    List.getElem?_range (show 3 * sps - j < 6 * sps by omega), Option.map_some, habs]

/-- Settles O55. -/
theorem kernelIsSymmetric : Obligations.KernelIsSymmetric := fun a R sps _ _ hj =>
  ⟨length_rrcKernel a R sps, getElem?_rnList_congr (rrcEncs_symm a R hj)⟩

end Sys2Proof.Machine
end

section
/-! PROOFS. NOP and CONFIG: the checks in their order, what a successful CONFIG derives, and what stays true of it while
CFG_VALID is 1 (40_config.md R88 to R92, R99). -/

namespace Sys2Proof.Machine

/-- Settles O13. -/
theorem nopWritesOnlyStatus : Obligations.NopWritesOnlyStatus := fun _ => rfl

/-! CONFIG's checks (R90), in the terms of the statements. -/

section Checks

variable {s : State}

theorem State.ratioR_eq (s : State) : ratioR s.carrierHz.toNat s.linkOrder s.bitRate.toNat = s.ratio := by
  unfold ratioR State.ratio; push_cast; rfl

theorem State.cutoffNu_eq (s : State) :
    cutoffNu (F64.toRat s.lpfMult) s.carrierHz.toNat s.linkOrder s.bitRate.toNat = s.cutoff := by
  unfold cutoffNu State.cutoff; push_cast; rfl

/-- What CONFIG derives from the configuration registers of `s`, its checks apart. -/
def State.derivation (s : State) : Derived :=
  derive s.carrierHz.toNat s.linkOrder s.bitRate.toNat (F64.toRat s.alpha) (F64.toRat s.lpfMult)

theorem alphaOk_iff (a : Word) : alphaOk a = true ↔ F64.isFinite a = true ∧ 0 < F64.toRat a ∧ F64.toRat a ≤ 1 := by
  simp [alphaOk, and_assoc]

theorem lpfMultOk_iff (m : Word) : lpfMultOk m = true ↔ F64.isFinite m = true ∧ 0 < F64.toRat m := by
  simp [lpfMultOk]

theorem map_some_filterMap {α β : Type} {f : α → Option β} : ∀ {l : List α}, (∀ v ∈ l, ∃ p, f v = some p) →
    (l.filterMap f).map some = l.map f
  | [], _ => rfl
  | v :: vs, h => by
    obtain ⟨p, hp⟩ := h v List.mem_cons_self
    rw [List.filterMap_cons_some hp, List.map_cons, List.map_cons, hp,
      map_some_filterMap fun w hw => h w (List.mem_cons_of_mem v hw)]

/-- A complete list of contents has no duplicate if no two places hold the same. -/
theorem nodup_filterMap_range_iff {α : Type} {f : Nat → Option α} {M : Nat} (hsome : ∀ v, v < M → ∃ p, f v = some p) :
    ((List.range M).filterMap f).Nodup ↔ ∀ v w, v < M → w < M → v ≠ w → f v ≠ f w := by
  rw [← List.nodup_map_iff (Option.some_injective α), map_some_filterMap fun v hv => hsome v (List.mem_range.1 hv),
    List.nodup_map_iff_inj_on List.nodup_range]
  simp only [List.mem_range]
  exact ⟨fun h v w hv hw hne heq => hne (h v hv w hw heq), fun h v hv w hw heq => not_not.1 fun hne => h v w hv hw hne heq⟩

theorem tableOk_iff (consts : Memory ConstEntry) (M : Nat) :
    tableOk consts M = true ↔ (∀ v, v < M → ∃ p, Memory.read consts v = some p)
      ∧ ∀ v w, v < M → w < M → v ≠ w → Memory.read consts v ≠ Memory.read consts w := by
  simp only [tableOk, Bool.and_eq_true, List.all_eq_true, List.mem_range, decide_eq_true_iff, Option.isSome_iff_exists]
  exact and_congr_right nodup_filterMap_range_iff

theorem State.tableOk_iff (s : State) :
    ¬ (4 ≤ s.linkOrder ∧ tableOk s.consts (2 ^ s.linkOrder) = false) ↔ s.TableOk := by
  unfold State.TableOk
  rw [← Machine.tableOk_iff, not_and, Bool.not_eq_false]

/-- CONFIG's checks with the model's seven tests of R90 in their order. -/
theorem State.configure_eq (s : State) : s.configure =
    if 6 < s.scheme.toNat then .error .cfgScheme
    else if s.bitRate.toNat = 0 ∨ s.carrierHz.toNat = 0 ∨ 2 ^ 53 < 20 * s.carrierHz.toNat then .error .cfgParam
    else if alphaOk s.alpha = false then .error .cfgParam
    else if lpfMultOk s.lpfMult = false then .error .cfgParam
    else if roundHalfEven s.ratio = 0 then .error .cfgParam
    else if Config.kernCap < 6 * roundHalfEven s.ratio then .error .cfgParam
    else if 1 / 2 ≤ s.cutoff then .error .cfgParam
    else if 4 ≤ s.linkOrder ∧ tableOk s.consts (2 ^ s.linkOrder) = false then .error .cfgTable
    else .ok s.derivation := by
  rw [← s.ratioR_eq, ← s.cutoffNu_eq]; rfl

theorem configure_of_scheme (h : 6 < s.scheme.toNat) : s.configure = .error .cfgScheme := by
  rw [s.configure_eq, if_pos h]

theorem configure_of_linkOk (hscheme : s.scheme.toNat ≤ 6) (h : s.LinkOk) : s.configure =
    if 4 ≤ s.linkOrder ∧ tableOk s.consts (2 ^ s.linkOrder) = false then .error .cfgTable else .ok s.derivation := by
  obtain ⟨hbr, hfc, hfs, hafin, hapos, hale, hmfin, hmpos, hsps, hcap, hnu⟩ := h
  have halpha := (alphaOk_iff s.alpha).2 ⟨hafin, hapos, hale⟩
  have hmult := (lpfMultOk_iff s.lpfMult).2 ⟨hmfin, hmpos⟩
  rw [s.configure_eq, if_neg (by omega), if_neg (by omega), if_neg (by simp [halpha]), if_neg (by simp [hmult]),
    if_neg hsps.ne', if_neg hcap.not_gt, if_neg hnu.not_ge]

theorem configure_of_not_linkOk (hscheme : s.scheme.toNat ≤ 6) (h : ¬ s.LinkOk) : s.configure = .error .cfgParam := by
  rw [s.configure_eq, if_neg (by omega)]
  split_ifs with hlink halpha hmult hsps hcap hnu
  any_goals rfl
  all_goals
    refine absurd ?_ h
    obtain ⟨hafin, hapos, hale⟩ := (alphaOk_iff s.alpha).1 (by simpa using halpha)
    obtain ⟨hmfin, hmpos⟩ := (lpfMultOk_iff s.lpfMult).1 (by simpa using hmult)
    exact ⟨by omega, by omega, by omega, hafin, hapos, hale, hmfin, hmpos, by omega, by omega, not_le.1 hnu⟩

theorem configure_of_not_tableOk (hscheme : s.scheme.toNat ≤ 6) (hlink : s.LinkOk) (h : ¬ s.TableOk) :
    s.configure = .error .cfgTable := by
  rw [configure_of_linkOk hscheme hlink, if_pos (by rwa [← s.tableOk_iff, not_not] at h)]

theorem configure_of_ok (hscheme : s.scheme.toNat ≤ 6) (hlink : s.LinkOk) (h : s.TableOk) :
    s.configure = .ok s.derivation := by
  rw [configure_of_linkOk hscheme hlink, if_neg (s.tableOk_iff.2 h)]

/-- A CONFIG that derives anything has passed every check. -/
theorem checks_of_configure {d : Derived} (h : s.configure = .ok d) :
    s.scheme.toNat ≤ 6 ∧ s.LinkOk ∧ s.TableOk ∧ d = s.derivation := by
  have hscheme : s.scheme.toNat ≤ 6 := by
    by_contra hnot; simp [configure_of_scheme (not_le.1 hnot)] at h
  have hlink : s.LinkOk := by
    by_contra hnot; simp [configure_of_not_linkOk hscheme hnot] at h
  have htable : s.TableOk := by
    by_contra hnot; simp [configure_of_not_tableOk hscheme hlink hnot] at h
  rw [configure_of_ok hscheme hlink htable] at h
  exact ⟨hscheme, hlink, htable, by simpa using h.symm⟩

end Checks

/-! The command CONFIG. -/

section Config

variable {s : State}

theorem execConfig_error {e : ErrCode} (h : s.configure = .error e) :
    exec .config s = .next (s.raiseError 0x01#8 e) := by
  simp only [exec, execConfig, h, finish_error]

theorem execConfig_ok {d : Derived} (h : s.configure = .ok d) :
    exec .config s = .next ((s.putDerived d).complete 0x01#8) := by
  simp only [exec, execConfig, h, finish_ok]

theorem derived_complete_putDerived (s : State) (d : Derived) (opc : BitVec 8) :
    ((s.putDerived d).complete opc).derived = d := rfl

/-- A successful CONFIG changes nothing beside STATUS, the draw counter, the derived registers and the kernels (R89). -/
theorem complete_putDerived_frame {d : Derived} {t : State} (h : t = (s.putDerived d).complete 0x01#8) :
    t = { s with
          status := { s.status with busy := false, done := true, err := 0#8, lastOpc := 0x01#8, cfgValid := true }
          draws := s.draws + 1
          order := t.order, fs := t.fs, sps := t.sps, rrcLen := t.rrcLen, totalDelay := t.totalDelay
          sScale := t.sScale, baud := t.baud, kernE := t.kernE, kern := t.kern, lpf := t.lpf } := by
  subst h; rfl

/-- Settles O14, one clause per outcome of the checks. -/
theorem configChecksInOrder : Obligations.ConfigChecksInOrder := by
  intro s
  by_cases hscheme : s.scheme.toNat ≤ 6
  · by_cases hlink : s.LinkOk
    · by_cases htable : s.TableOk
      · refine ⟨_, execConfig_ok (configure_of_ok hscheme hlink htable), ?_⟩
        exact ⟨by omega, fun _ h => absurd hlink h, fun _ _ h => absurd htable h, fun _ _ _ => rfl⟩
      · refine ⟨_, execConfig_error (configure_of_not_tableOk hscheme hlink htable), ?_⟩
        exact ⟨by omega, fun _ h => absurd hlink h, fun _ _ _ => rfl, fun _ _ h => absurd h htable⟩
    · refine ⟨_, execConfig_error (configure_of_not_linkOk hscheme hlink), ?_⟩
      exact ⟨by omega, fun _ _ => rfl, fun _ h => absurd h hlink, fun _ h => absurd h hlink⟩
  · refine ⟨_, execConfig_error (configure_of_scheme (not_le.1 hscheme)), ?_⟩
    exact ⟨fun _ => rfl, fun h => absurd h hscheme, fun h => absurd h hscheme, fun h => absurd h hscheme⟩

theorem linkOrder_mem (h : s.scheme.toNat ≤ 6) : s.linkOrder ∈ [1, 2, 4, 6, 8, 10, 12] := by
  unfold State.linkOrder
  rw [List.getD_eq_getElem _ _ (Nat.lt_succ_of_le h)]
  exact List.getElem_mem _

/-- The derived registers as numbers: within the limits of R90 none of them wraps around (R92). -/
theorem toNat_derivation (hscheme : s.scheme.toNat ≤ 6) (hlink : s.LinkOk) :
    s.derivation.order.toNat = s.linkOrder ∧ s.derivation.fs.toNat = 20 * s.carrierHz.toNat
      ∧ s.derivation.sps.toNat = roundHalfEven s.ratio ∧ s.derivation.rrcLen.toNat = 6 * roundHalfEven s.ratio
      ∧ s.derivation.totalDelay.toNat = 6 * roundHalfEven s.ratio + 50 := by
  obtain ⟨-, -, hfs, -, -, -, -, -, -, hcap, -⟩ := hlink
  have horder : s.linkOrder ≤ 12 := by
    have hmem := linkOrder_mem hscheme
    simp only [List.mem_cons, List.not_mem_nil, or_false] at hmem
    omega
  have hcap' : 6 * roundHalfEven s.ratio ≤ 65536 := hcap
  simp only [State.derivation, derive, s.ratioR_eq, BitVec.toNat_ofNat, Config.lpfHalf]
  refine ⟨?_, ?_, ?_, ?_, ?_⟩ <;> exact Nat.mod_eq_of_lt (by omega)

theorem derivation_kern (s : State) :
    s.derivation.kern = rrcKernel (F64.toRat s.alpha) s.ratio (roundHalfEven s.ratio) := by
  simp only [State.derivation, derive, s.ratioR_eq]

theorem derivation_lpf (s : State) : s.derivation.lpf = lpfKernel s.cutoff := by
  simp only [State.derivation, derive, s.cutoffNu_eq]

/-- A state `t` that holds what CONFIG derives from `s`: its registers and the lengths of its kernels (R92). -/
theorem registers_of_derived {t : State} (hscheme : s.scheme.toNat ≤ 6) (hlink : s.LinkOk)
    (ht : t.derived = s.derivation) :
    t.order.toNat = s.linkOrder ∧ t.fs.toNat = 20 * s.carrierHz.toNat ∧ t.sps.toNat = roundHalfEven s.ratio
      ∧ t.rrcLen.toNat = 6 * t.sps.toNat ∧ t.totalDelay.toNat = 6 * t.sps.toNat + 50
      ∧ t.kern.length = t.rrcLen.toNat ∧ t.lpf.length = 101 := by
  obtain ⟨horder, hfs, hsps, hlen, hdelay⟩ := toNat_derivation hscheme hlink
  have hkern : s.derivation.kern.length = 6 * roundHalfEven s.ratio := by rw [derivation_kern, length_rrcKernel]
  have hlpf : s.derivation.lpf.length = 101 := by rw [derivation_lpf, length_lpfKernel]
  simp only [← ht, State.derived] at horder hfs hsps hlen hdelay hkern hlpf
  rw [hsps, hlen]
  exact ⟨horder, hfs, rfl, rfl, hdelay, hkern, hlpf⟩

/-- R97's sum over the list of taps. -/
theorem kernelEnergy_eq (kern : List Word) :
    kernelEnergy kern = dotFrom ⟨0, []⟩ 0 kern.length (fun k => kern.getD k 0#64) (fun k => kern.getD k 0#64) := by
  simp only [kernelEnergy, Array.getD_eq_getD_getElem?, List.getElem?_toArray, List.getD_eq_getElem?_getD]

/-- Settles O15. -/
theorem configDerives : Obligations.ConfigDerives := by
  intro s hscheme hlink htable
  obtain ⟨t, ht⟩ : ∃ t, t = (s.putDerived s.derivation).complete 0x01#8 := ⟨_, rfl⟩
  have hd : t.derived = s.derivation := by rw [ht, derived_complete_putDerived]
  obtain ⟨horder, hfs, hsps, hlen, hdelay, hkern, hlpf⟩ := registers_of_derived hscheme hlink hd
  have hscale : t.sScale = scaleS s.linkOrder := congrArg Derived.sScale hd
  have hbaud : t.baud = rnRat (s.bitRate.toNat / s.linkOrder) := congrArg Derived.baud hd
  have htaps : t.kern = s.derivation.kern := congrArg Derived.kern hd
  have hlpfTaps : t.lpf = s.derivation.lpf := congrArg Derived.lpf hd
  have henergy : t.kernE = kernelEnergy t.kern := htaps ▸ congrArg Derived.kernE hd
  refine ⟨t, ht ▸ execConfig_ok (configure_of_ok hscheme hlink htable), complete_putDerived_frame ht, horder, hfs, hsps,
    hlen, hdelay, hscale, hbaud, ?_, hkern, hlpfTaps.trans (derivation_lpf s), hlpf, ?_⟩
  · rw [htaps, derivation_kern, hsps]
  · rw [henergy, kernelEnergy_eq, hkern]

/-- Settles O52: the invariant says that CONFIG would derive the registers as they are, so its checks pass. -/
theorem configuredRegisters : Obligations.ConfiguredRegisters := by
  intro s hinv hvalid
  obtain ⟨-, -, -, hconfigured⟩ := hinv
  obtain ⟨hscheme, hlink, htable, hd⟩ := checks_of_configure (hconfigured hvalid)
  obtain ⟨horder, hfs, hsps, hlen, hdelay, hkern, hlpf⟩ := registers_of_derived hscheme hlink hd
  obtain ⟨-, hfc, -, -, -, -, -, -, hpos, hcap, -⟩ := hlink
  have hcap' : 6 * roundHalfEven s.ratio ≤ 65536 := hcap
  exact ⟨horder ▸ linkOrder_mem hscheme, hfs, by omega, by omega, hsps, hlen, by omega, hdelay, hkern, hlpf, htable⟩

end Config

end Sys2Proof.Machine
end

section
/-! PROOFS. The frame of every command: what it leaves unchanged, whether it completes with its writes or with an error
(40_config.md R88, R89; "Writes" of R102 to R122; 60_exceptions.md R130). -/

namespace Sys2Proof.Machine

/-- What `t` keeps of `s` after command `i`: every buffer but the destination, the derived registers, noise and fading
registers of commands that do not write them, and all that no command writes. -/
structure KeepsFrame (i : Instr) (s t : State) : Prop where
  buffers : ∀ b, (∀ d x, i.operands = some (d, x) → b ≠ d) → t.buf b = s.buf b
  derived : i ≠ .config → t.derived = s.derived ∧ t.status.cfgValid = s.status.cfgValid
  noise : (∀ d x, i ≠ .awgn d x) → t.awgnPos = s.awgnPos ∧ t.awgnSigma = s.awgnSigma
  fading : (∀ d x, i ≠ .fadeRay d x ∧ i ≠ .fadeRic d x) →
    t.fadePos = s.fadePos ∧ t.fadeHRe = s.fadeHRe ∧ t.fadeHIm = s.fadeHIm
  rest : t = { s with
    status := t.status, bufs := t.bufs, draws := t.draws
    order := t.order, fs := t.fs, sps := t.sps, rrcLen := t.rrcLen, totalDelay := t.totalDelay
    sScale := t.sScale, baud := t.baud, kernE := t.kernE, kern := t.kern, lpf := t.lpf
    awgnPos := t.awgnPos, awgnSigma := t.awgnSigma
    fadePos := t.fadePos, fadeHRe := t.fadeHRe, fadeHIm := t.fadeHIm }

section Frame

variable {i : Instr} {s r : State}

theorem keepsFrame_refl (i : Instr) (s : State) : KeepsFrame i s s :=
  ⟨fun _ _ => rfl, fun _ => ⟨rfl, rfl⟩, fun _ => ⟨rfl, rfl⟩, fun _ => ⟨rfl, rfl, rfl⟩, rfl⟩

/-! The writes of a command, kind by kind. -/

theorem keepsFrame_putDerived (s : State) (d : Derived) : KeepsFrame .config s (s.putDerived d) :=
  ⟨fun _ _ => rfl, fun h => absurd rfl h, fun _ => ⟨rfl, rfl⟩, fun _ => ⟨rfl, rfl, rfl⟩, rfl⟩

theorem WritesBuffer.keepsFrame {dst src : Nat} (h : WritesBuffer dst s r) (hops : i.operands = some (dst, src)) :
    KeepsFrame i s r := by
  obtain ⟨y, -, rfl⟩ := h
  exact ⟨fun b hb => State.buf_setBuf_other s _ (hb dst src hops), fun _ => ⟨rfl, rfl⟩, fun _ => ⟨rfl, rfl⟩,
    fun _ => ⟨rfl, rfl, rfl⟩, rfl⟩

theorem KeepsFrame.putNoise {dst src : Nat} (h : KeepsFrame (.awgn dst src) s r) (n : Nat) (sig : Word) :
    KeepsFrame (.awgn dst src) s (r.putNoise n sig) :=
  ⟨h.buffers, h.derived, fun hne => absurd rfl (hne dst src), h.fading, by rw [h.rest]; rfl⟩

/-- The fading registers belong to the two fading commands, so the others' clause asks nothing of these. -/
theorem KeepsFrame.putFade (h : KeepsFrame i s r) (hfade : ∃ d x, i = .fadeRay d x ∨ i = .fadeRic d x) (g : Cplx) :
    KeepsFrame i s (r.putFade g) := by
  obtain ⟨d, x, hi⟩ := hfade
  refine ⟨h.buffers, h.derived, h.noise, fun hne => ?_, by rw [h.rest]; rfl⟩
  exact absurd hi (not_or.2 (hne d x))

theorem CommandWrites.keepsFrame (h : CommandWrites i s r) : KeepsFrame i s r := by
  cases i with
  | nop => obtain rfl : r = s := h; exact keepsFrame_refl _ _
  | config => obtain ⟨d, -, rfl⟩ := h; exact keepsFrame_putDerived s d
  | awgn =>
    obtain ⟨r0, hr0, rfl | ⟨n, sig, rfl⟩⟩ := h
    · exact hr0.keepsFrame rfl
    · exact (hr0.keepsFrame rfl).putNoise n sig
  | fadeRay d x => obtain ⟨r0, g, hr0, rfl⟩ := h; exact (hr0.keepsFrame rfl).putFade ⟨d, x, .inl rfl⟩ g
  | fadeRic d x => obtain ⟨r0, g, hr0, rfl⟩ := h; exact (hr0.keepsFrame rfl).putFade ⟨d, x, .inr rfl⟩ g
  | _ => exact WritesBuffer.keepsFrame h rfl

/-! Completion. -/

theorem KeepsFrame.complete (h : KeepsFrame i s r) (opc : BitVec 8) : KeepsFrame i s (r.complete opc) :=
  ⟨h.buffers, h.derived, h.noise, h.fading, by rw [h.rest]; rfl⟩

theorem opcode_eq_config_iff (i : Instr) : i.opcode = 0x01#8 ↔ i = .config := by cases i <;> simp [Instr.opcode]

/-- An error of another command than CONFIG leaves CFG_VALID as it was (R127). -/
theorem keepsFrame_raiseError (i : Instr) (s : State) (e : ErrCode) : KeepsFrame i s (s.raiseError i.opcode e) := by
  refine ⟨fun _ _ => rfl, fun hne => ⟨rfl, ?_⟩, fun _ => ⟨rfl, rfl⟩, fun _ => ⟨rfl, rfl, rfl⟩, rfl⟩
  exact if_neg (mt (opcode_eq_config_iff i).1 hne)

theorem exec_keepsFrame {t : State} (h : exec i s = .next t) : KeepsFrame i s t := by
  rcases exec_outcome i s with ⟨e, he⟩ | ⟨r, hr, he⟩
  · obtain rfl : s.raiseError i.opcode e = t := by simpa [he] using h
    exact keepsFrame_raiseError i s e
  · obtain rfl : r.complete i.opcode = t := by simpa [he] using h
    exact hr.keepsFrame.complete _

end Frame

/-- Settles O7, from what each command writes (`exec_outcome`). -/
theorem commandFrame : Obligations.CommandFrame := by
  intro i s t h
  obtain ⟨hbufs, hderived, hnoise, hfading, hrest⟩ := exec_keepsFrame h
  exact ⟨hbufs, hderived, hnoise, hfading, hrest⟩

end Sys2Proof.Machine
end

section
/-! PROOFS. The checks of a data command after the common ones: alignment and range, then the capacity of a buffer
(60_exceptions.md R129, points 7 to 9). -/

namespace Sys2Proof.Machine

/-- A data command that passes the common checks completes with the error its own checks answer. -/
theorem dataCommand_raises {opc : BitVec 8} {dst src : Nat} {s : State} {body : Buffer → Except ErrCode State}
    {e : ErrCode} (hd : dst < Config.nBuf) (hs : src < Config.nBuf) (hc : s.status.cfgValid = true)
    (h : body (s.buf src) = .error e) : ∃ t, dataCommand opc dst src s body = .next t ∧ t.status.err = e.code := by
  rw [dataCommand_ready opc body hd hs hc, h]
  exact ⟨_, rfl, rfl⟩

section Checks

variable {dst : Nat} {s : State} {x : Buffer}

/-! E_ALIGN and E_RANGE. -/

theorem runMap_align (hk : x.kind = .bits) (h : x.len.toNat % s.order.toNat ≠ 0) :
    runMap dst s x = .error .align := by
  simp only [runMap]
  rw [if_neg (not_not.2 hk), if_pos h]

theorem runSample_range (hk : x.kind = .cplx) (hcnt : 0 < s.sampleCount.toNat)
    (h : sampleStart s < 0
      ∨ (x.len.toNat : Int) ≤ sampleStart s + ((s.sampleCount.toNat : Int) - 1) * (s.sps.toNat : Int)) :
    runSample dst s x = .error .range := by
  simp only [runSample]
  rw [if_neg (not_not.2 hk), if_pos ⟨hcnt, h⟩]

theorem runSampleAuto_range (hk : x.kind = .cplx) (h : sampleStart s < 0) :
    runSampleAuto dst s x = .error .range := by
  simp only [runSampleAuto]
  rw [if_neg (not_not.2 hk), if_pos h]

/-- Settles O11. -/
theorem alignAndRangeChecks : Obligations.AlignAndRangeChecks := by
  intro d x s hd hx hc
  refine ⟨fun hk h => dataCommand_raises hd hx hc (runMap_align hk h), fun hk => ⟨fun hcnt h => ?_, fun h => ?_⟩⟩
  · exact dataCommand_raises hd hx hc (runSample_range hk hcnt h)
  · exact dataCommand_raises hd hx hc (runSampleAuto_range hk h)

/-! E_CAP of the modulator, demodulator and demapper commands. -/

/-- A convolution too long for a buffer: never of an empty source. -/
theorem bufWords_lt_fullLength {w L N : Nat} (h : N ≠ 0 ∧ Config.bufWords < w * (N + L - 1)) :
    Config.bufWords < w * fullLength L N := by
  rw [fullLength, if_neg h.1]; exact h.2

theorem runMap_cap (hk : x.kind = .bits) (halign : x.len.toNat % s.order.toNat = 0)
    (h : Config.bufWords < x.len.toNat ∨ Config.bufWords < 2 * (x.len.toNat / s.order.toNat)) :
    runMap dst s x = .error .cap := by
  simp only [runMap]
  rw [if_neg (not_not.2 hk), if_neg (not_not.2 halign), if_pos h]

theorem runComb_cap (hk : x.kind = .cplx)
    (h : Config.bufWords < 2 * x.len.toNat
      ∨ Config.bufWords < 2 * (x.len.toNat * s.sps.toNat + s.rrcLen.toNat - 1)) :
    runComb dst s x = .error .cap := by
  simp only [runComb]
  rw [if_neg (not_not.2 hk), if_pos h]

theorem runRrc_cap (hk : x.kind = .cplx)
    (h : Config.bufWords < 2 * x.len.toNat ∨ Config.bufWords < 2 * fullLength s.rrcLen.toNat x.len.toNat) :
    runRrc dst s x = .error .cap := by
  simp only [runRrc]
  rw [if_neg (not_not.2 hk), if_pos h]

theorem runMatch_cap (keep : Nat → Nat) (hk : x.kind = .cplx)
    (h : Config.bufWords < 2 * x.len.toNat ∨ Config.bufWords < 2 * fullLength s.rrcLen.toNat x.len.toNat) :
    runMatch dst s keep x = .error .cap := by
  simp only [runMatch]
  rw [if_neg (not_not.2 hk), if_pos h]

theorem runUpconv_cap (hk : x.kind = .cplx) (h : Config.bufWords < 2 * x.len.toNat) :
    runUpconv dst s x = .error .cap := by
  simp only [runUpconv]
  rw [if_neg (not_not.2 hk), if_pos h]

theorem runSample_cap (hk : x.kind = .cplx)
    (hrange : s.sampleCount.toNat = 0 ∨ (0 ≤ sampleStart s
      ∧ sampleStart s + ((s.sampleCount.toNat : Int) - 1) * (s.sps.toNat : Int) < x.len.toNat))
    (h : Config.bufWords < 2 * x.len.toNat ∨ Config.bufWords < 2 * s.sampleCount.toNat) :
    runSample dst s x = .error .cap := by
  simp only [runSample]
  rw [if_neg (not_not.2 hk), if_neg (by omega), if_pos h]

theorem runSampleAuto_cap (hk : x.kind = .cplx) (hrange : 0 ≤ sampleStart s)
    (h : Config.bufWords < 2 * x.len.toNat) : runSampleAuto dst s x = .error .cap := by
  simp only [runSampleAuto]
  rw [if_neg (not_not.2 hk), if_neg (not_lt.2 hrange), if_pos h]

theorem runDemap_cap (hk : x.kind = .cplx)
    (h : Config.bufWords < 2 * x.len.toNat ∨ Config.bufWords < x.len.toNat * s.order.toNat) :
    runDemap dst s x = .error .cap := by
  simp only [runDemap]
  rw [if_neg (not_not.2 hk), if_pos h]

/-! E_CAP of the commands that take either kind of signal. -/

theorem BufKind.isSignal_and_wpe {k : BufKind} {w : Nat} (h : (k = .real ∧ w = 1) ∨ (k = .cplx ∧ w = 2)) :
    ¬ k.isSignal = false ∧ k.wpe = w := by
  rcases h with ⟨rfl, rfl⟩ | ⟨rfl, rfl⟩ <;> exact ⟨by decide, rfl⟩

theorem runAwgn_cap (hk : ¬ x.kind.isSignal = false) (hsnr : F64.isFinite s.snrDb = true)
    (h : Config.bufWords < x.kind.wpe * x.len.toNat) : runAwgn dst s x = .error .cap := by
  simp only [runAwgn]
  rw [if_neg hk, if_neg (by simp [hsnr]), if_pos h]

theorem runFadeRay_cap (hk : ¬ x.kind.isSignal = false) (h : Config.bufWords < x.kind.wpe * x.len.toNat) :
    runFadeRay dst s x = .error .cap := by
  simp only [runFadeRay]
  rw [if_neg hk, if_pos h]

theorem runFadeRic_cap (hk : ¬ x.kind.isSignal = false) (hvalid : s.status.kValid = true)
    (hfin : F64.isFinite s.ricianKDb = true) (h : Config.bufWords < 2 * x.len.toNat) :
    runFadeRic dst s x = .error .cap := by
  simp only [runFadeRic]
  rw [if_neg hk, if_neg (by simp [hvalid]), if_neg (by simp [hfin]), if_pos h]

theorem runPhasors_cap {param : Word} (r : Nat → ℚ) (hk : ¬ x.kind.isSignal = false)
    (hfin : F64.isFinite param = true) (h : Config.bufWords < 2 * x.len.toNat) :
    runPhasors dst s param r x = .error .cap := by
  simp only [runPhasors]
  rw [if_neg hk, if_neg (by simp [hfin]), if_pos h]

theorem fdelayOk_of_domain {d : Word} (hfin : F64.isFinite d = true) (hpos : 0 < F64.toRat d)
    (hlt : F64.toRat d < 1) : fdelayOk d = true := by
  simp [fdelayOk, hfin, hpos, hlt]

theorem runFdelay_cap (hk : ¬ x.kind.isSignal = false) (hd : fdelayOk s.fdelayFrac = true)
    (h : Config.bufWords < x.kind.wpe * x.len.toNat
      ∨ Config.bufWords < x.kind.wpe * fullLength Config.fdTaps x.len.toNat) :
    runFdelay dst s x = .error .cap := by
  simp only [runFdelay]
  rw [if_neg hk, if_neg (by simp [hd]), if_pos h]

theorem runDownconv_cap (hk : ¬ x.kind.isSignal = false) (h : Config.bufWords < 2 * x.len.toNat) :
    runDownconv dst s x = .error .cap := by
  simp only [runDownconv]
  rw [if_neg hk, if_pos h]

end Checks

/-- Settles O12: each command's own checks reach the capacity, and the common checks have passed. -/
theorem capacityChecks : Obligations.CapacityChecks := by
  intro d x s hd hx hc N long st cnt full
  have raises {opc : BitVec 8} {body : Buffer → Except ErrCode State} (h : body (s.buf x) = .error .cap) :
      ∃ t, dataCommand opc d x s body = .next t ∧ t.status.err = 9#8 := dataCommand_raises hd hx hc h
  have tooLong (h : long) : Config.bufWords < 2 * N ∨ Config.bufWords < 2 * fullLength s.rrcLen.toNat N :=
    h.imp_right bufWords_lt_fullLength
  refine ⟨fun hk halign h => raises (runMap_cap hk halign h), fun hk => ⟨?comb, ?rrc, ?matchFull, ?matchTrim, ?upconv,
    ?sample, ?sampleAuto, ?demap⟩, fun w hw => ?signal⟩
  case comb => exact fun h => raises (runComb_cap hk h)
  case rrc => exact fun h => raises (runRrc_cap hk (tooLong h))
  case matchFull => exact fun h => raises (runMatch_cap _ hk (tooLong h))
  case matchTrim => exact fun h => raises (runMatch_cap _ hk (tooLong h))
  case upconv => exact fun h => raises (runUpconv_cap hk h)
  case sample => exact fun hrange h => raises (runSample_cap hk hrange h)
  case sampleAuto => exact fun hrange h => raises (runSampleAuto_cap hk hrange h)
  case demap => exact fun h => raises (runDemap_cap hk h)
  case signal =>
    obtain ⟨hk, rfl⟩ := BufKind.isSignal_and_wpe hw
    refine ⟨?awgn, ?fadeRay, ?fadeRic, ?fofs, ?fdrift, ?fdelay, ?downconv⟩
    case awgn => exact fun hsnr h => raises (runAwgn_cap hk hsnr h)
    case fadeRay => exact fun h => raises (runFadeRay_cap hk h)
    case fadeRic => exact fun hvalid hfin h => raises (runFadeRic_cap hk hvalid hfin h)
    case fofs => exact fun hfin h => raises (runPhasors_cap _ hk hfin h)
    case fdrift => exact fun hfin h => raises (runPhasors_cap _ hk hfin h)
    case fdelay =>
      exact fun hfin hpos hlt h =>
        raises (runFdelay_cap hk (fdelayOk_of_domain hfin hpos hlt) (h.imp_right bufWords_lt_fullLength))
    case downconv => exact fun h => raises (runDownconv_cap hk h)

end Sys2Proof.Machine
end

section
/-! PROOFS. What the modulator commands write (41_modulator.md R101 to R106). -/

namespace Sys2Proof.Machine

/-! A data command that completes, and the samples of its result. -/

theorem lt_of_le_bufWords {n : Nat} (h : n ≤ Config.bufWords) : n < 2 ^ 64 := by
  have : Config.bufWords < 2 ^ 64 := by decide
  omega

theorem dataCommand_completes (opc : BitVec 8) {dst src : Nat} {s r : State} {k : BufKind}
    {body : Buffer → Except ErrCode State} (hready : s.Ready dst src k) (h : body (s.buf src) = .ok r) :
    dataCommand opc dst src s body = .next (r.complete opc) := by
  obtain ⟨hd, hs, hc, -⟩ := hready
  rw [dataCommand_ready opc body hd hs hc, h, finish_ok]

/-- A data command whose result is the CPLX samples `f`, of which `g` is another description. -/
theorem dataCommand_holdsCplx {opc : BitVec 8} {dst src n : Nat} {s : State} {k : BufKind}
    {body : Buffer → Except ErrCode State} {f g : Nat → Cplx} (hready : s.Ready dst src k)
    (h : body (s.buf src) = .ok (s.putResult dst (.cplx (tabulate n f)))) (hn : 2 * n ≤ Config.bufWords)
    (hfg : ∀ i, i < n → f i = g i) :
    ∃ t, dataCommand opc dst src s body = .next t ∧ CompletesInto opc dst s t ∧ t.HoldsCplx dst n g :=
  ⟨_, dataCommand_completes opc hready h, completesInto_putResult s dst _ opc,
    (holdsCplx_putResult s f hready.1 (lt_of_le_bufWords (by omega)) opc).congr hfg⟩

/-- A data command whose result is the REAL samples `f`, of which `g` is another description. -/
theorem dataCommand_holdsReal {opc : BitVec 8} {dst src n : Nat} {s : State} {k : BufKind}
    {body : Buffer → Except ErrCode State} {f g : Nat → Word} (hready : s.Ready dst src k)
    (h : body (s.buf src) = .ok (s.putResult dst (.real (tabulate n f)))) (hn : n ≤ Config.bufWords)
    (hfg : ∀ i, i < n → f i = g i) :
    ∃ t, dataCommand opc dst src s body = .next t ∧ CompletesInto opc dst s t ∧ t.HoldsReal dst n g :=
  ⟨_, dataCommand_completes opc hready h, completesInto_putResult s dst _ opc,
    (holdsReal_putResult s f hready.1 (lt_of_le_bufWords hn) opc).congr hfg⟩

/-! MAP (R101, R102). -/

theorem groupIndex_append (g : List Bool) (b : Bool) : groupIndex (g ++ [b]) = 2 * groupIndex g + b.toNat := by
  simp [groupIndex]

theorem tabulate_succ {α : Type} (n : Nat) (f : Nat → α) : tabulate (n + 1) f = tabulate n f ++ [f n] := by
  simp [tabulate, List.range_succ]

/-- R101: the bits of a group, most significant first, are the binary digits of its index. -/
theorem groupIndex_tabulate (n : Nat) (b : Nat → Bool) :
    groupIndex (tabulate n b) = ∑ j ∈ Finset.range n, (b j).toNat * 2 ^ (n - 1 - j) := by
  induction n with
  | zero => rfl
  | succ n ih =>
    have double : ∀ j ∈ Finset.range n,
        2 * ((b j).toNat * 2 ^ (n - 1 - j)) = (b j).toNat * 2 ^ (n + 1 - 1 - j) := by
      intro j hj
      have hj : j < n := Finset.mem_range.1 hj
      have e : n + 1 - 1 - j = n - 1 - j + 1 := by omega
      rw [e, pow_succ]; ring
    rw [tabulate_succ, groupIndex_append, ih, Finset.mul_sum, Finset.sum_congr rfl double, Finset.sum_range_succ]
    simp

/-- A symbol depends on the bits of its group only. -/
theorem mapSymbol_congr (σ : Site) (s : State) {order : Nat} {b c : Nat → Bool} (hpos : 0 < order)
    (h : ∀ j, j < order → b j = c j) : mapSymbol σ s order b = mapSymbol σ s order c := by
  have group : tabulate order b = tabulate order c := List.map_congr_left fun j hj => h j (List.mem_range.1 hj)
  unfold mapSymbol
  rw [h 0 hpos, group]
  split
  · rfl
  · split
    · next htwo => rw [h 1 (by omega)]
    · rfl

/-- Bit `j` of group `g` lies inside a source of whole groups. -/
theorem group_bit_lt {n order g j : Nat} (hg : g < n / order) (hj : j < order) : g * order + j < n :=
  calc g * order + j < (g + 1) * order := by rw [Nat.succ_mul]; omega
    _ ≤ n / order * order := Nat.mul_le_mul_right order hg
    _ ≤ n := Nat.div_mul_le_self n order

theorem runMap_fits {dst : Nat} {s : State} {x : Buffer} (hk : x.kind = .bits)
    (halign : x.len.toNat % s.order.toNat = 0) (hsrc : x.len.toNat ≤ Config.bufWords)
    (hres : 2 * (x.len.toNat / s.order.toNat) ≤ Config.bufWords) :
    runMap dst s x = .ok (s.putResult dst (.cplx (tabulate (x.len.toNat / s.order.toNat) fun g =>
      mapSymbol (s.site.sub g) s s.order.toNat fun j => (x.bitElems s.draws).getD (g * s.order.toNat + j) false))) := by
  simp only [runMap]
  rw [if_neg (not_not.2 hk), if_neg (not_not.2 halign), if_neg (by omega)]

/-- Settles O16. -/
theorem mapWritesSymbols : Obligations.MapWritesSymbols := by
  intro dst src s hready hpos halign hsrc hres
  have ⟨_, _, _, hk, hwf⟩ := hready
  refine dataCommand_holdsCplx hready (runMap_fits hk halign hsrc hres) hres fun g hg => ?_
  have bits : ∀ j, j < s.order.toNat →
      ((s.buf src).bitElems s.draws).getD (g * s.order.toNat + j) false = s.bitElem src (g * s.order.toNat + j) :=
    fun j hj => State.bitElems_eq hwf (group_bit_lt hg hj) false
  rw [mapSymbol_congr _ s hpos bits, mapSymbol, groupIndex_tabulate]
  rfl

/-! COMB (R104). -/

theorem combAt_congr {sps N : Nat} {x y : Nat → Cplx} (h : ∀ i, i < N → x i = y i) (n : Nat) :
    combAt sps N x n = combAt sps N y n := by
  unfold combAt
  split
  · next hn => exact h _ hn.2
  · rfl

/-- Symbol `i` stands at index `i · SPS`. -/
theorem combAt_symbol {sps N i : Nat} (x : Nat → Cplx) (hsps : 0 < sps) (hi : i < N) :
    combAt sps N x (i * sps) = x i := by
  have hdiv : i * sps / sps = i := Nat.mul_div_cancel i hsps
  rw [combAt, if_pos ⟨Nat.mul_mod_left i sps, hdiv.symm ▸ hi⟩, hdiv]

/-- An index that is no symbol's holds `(+0, +0)`. -/
theorem combAt_elsewhere {sps N n : Nat} (x : Nat → Cplx) (h : ∀ i, i < N → n ≠ i * sps) :
    combAt sps N x n = Cplx.zero := by
  refine if_neg fun hn => ?_
  obtain ⟨hmod, hlt⟩ := hn
  exact h _ hlt (Nat.div_mul_cancel (Nat.dvd_of_mod_eq_zero hmod)).symm

theorem runComb_fits {dst : Nat} {s : State} {x : Buffer} (hk : x.kind = .cplx)
    (hsrc : 2 * x.len.toNat ≤ Config.bufWords)
    (hres : 2 * (x.len.toNat * s.sps.toNat + s.rrcLen.toNat - 1) ≤ Config.bufWords) :
    runComb dst s x = .ok (s.putResult dst (.cplx (tabulate (x.len.toNat * s.sps.toNat + s.rrcLen.toNat - 1)
      (combAt s.sps.toNat x.len.toNat fun i => (x.cplxElems s.draws).getD i Cplx.zero)))) := by
  simp only [runComb]
  rw [if_neg (not_not.2 hk), if_neg (by omega)]

/-- Settles O17. -/
theorem combPlacesSymbols : Obligations.CombPlacesSymbols := by
  intro dst src s hready hsps _ hsrc hres
  have ⟨_, _, _, hk, hwf⟩ := hready
  have symbols : ∀ i, i < s.count src → ((s.buf src).cplxElems s.draws).getD i Cplx.zero = s.cplxElem src i :=
    fun i hi => State.cplxElems_eq hwf hi Cplx.zero
  obtain ⟨t, hexec, hframe, hholds⟩ := dataCommand_holdsCplx (opc := 0x11#8) hready (runComb_fits hk hsrc hres) hres
    fun n _ => combAt_congr symbols n
  exact ⟨t, _, hexec, hframe, hholds, fun i hi => combAt_symbol _ hsps hi, fun n hn => combAt_elsewhere _ hn⟩

/-! RRC (R105). -/

/-- The sum reads taps and samples inside their ranges only. -/
theorem convolveAt_congr {σ : Site} {L N n : Nat} {tap tap' x x' : Nat → Word} (hL : 0 < L) (hN : 0 < N)
    (htap : ∀ k, k < L → tap k = tap' k) (hx : ∀ i, i < N → x i = x' i) :
    convolveAt σ L N tap x n = convolveAt σ L N tap' x' n :=
  dotFrom_congr fun k hlo hhi => ⟨htap k (by omega), hx (n - k) (by omega)⟩

theorem convolveCplxAt_congr {σ : Site} {L N n : Nat} {tap tap' : Nat → Word} {x x' : Nat → Cplx} (hL : 0 < L)
    (hN : 0 < N) (htap : ∀ k, k < L → tap k = tap' k) (hx : ∀ i, i < N → x i = x' i) :
    convolveCplxAt σ L N tap x n = convolveCplxAt σ L N tap' x' n := by
  rw [convolveCplxAt, convolveAt_congr hL hN htap fun i hi => congrArg Cplx.re (hx i hi),
    convolveAt_congr hL hN htap fun i hi => congrArg Cplx.im (hx i hi), convolveCplxAt]

theorem pos_of_lt_fullLength {L N n : Nat} (h : n < fullLength L N) : 0 < N := by
  refine Nat.pos_of_ne_zero fun hzero => ?_
  rw [fullLength, if_pos hzero] at h
  exact Nat.not_lt_zero n h

theorem mul_fullLength_le {w L N : Nat} (h : N = 0 ∨ w * (N + L - 1) ≤ Config.bufWords) :
    w * fullLength L N ≤ Config.bufWords := by
  rw [fullLength]
  split
  · exact Nat.zero_le _
  · next hne => exact h.resolve_left hne

theorem runRrc_fits {dst : Nat} {s : State} {x : Buffer} (hk : x.kind = .cplx)
    (hsrc : 2 * x.len.toNat ≤ Config.bufWords)
    (hres : 2 * fullLength s.rrcLen.toNat x.len.toNat ≤ Config.bufWords) :
    runRrc dst s x = .ok (s.putResult dst (.cplx (tabulate (fullLength s.rrcLen.toNat x.len.toNat)
      (convolveCplxAt s.site s.rrcLen.toNat x.len.toNat (fun k => (tabulate s.rrcLen.toNat s.tap).toArray.getD k 0#64)
        fun i => (x.cplxElems s.draws).getD i Cplx.zero)))) := by
  simp only [runRrc]
  rw [if_neg (not_not.2 hk), if_neg (by omega)]

/-- Settles O18. -/
theorem rrcConvolves : Obligations.RrcConvolves := by
  intro dst src s hready hL hsrc hlen
  have ⟨_, _, _, hk, hwf⟩ := hready
  have hres : 2 * fullLength s.rrcLen.toNat (s.count src) ≤ Config.bufWords := mul_fullLength_le hlen
  refine dataCommand_holdsCplx hready (runRrc_fits hk hsrc hres) hres fun n hn => ?_
  have taps : ∀ k, k < s.rrcLen.toNat → (tabulate s.rrcLen.toNat s.tap).toArray.getD k 0#64 = s.tap k :=
    fun k hlt => by rw [getD_tabulate, if_pos hlt]
  exact convolveCplxAt_congr hL (pos_of_lt_fullLength hn) taps fun i hi => State.cplxElems_eq hwf hi Cplx.zero

/-! UPCONV (R106). -/

theorem runUpconv_fits {dst : Nat} {s : State} {x : Buffer} (hk : x.kind = .cplx)
    (hsrc : 2 * x.len.toNat ≤ Config.bufWords) :
    runUpconv dst s x = .ok (s.putResult dst (.real (tabulate x.len.toNat fun n =>
      upconvAt (s.site.sub n) ((x.cplxElems s.draws).getD n Cplx.zero) n))) := by
  simp only [runUpconv]
  rw [if_neg (not_not.2 hk), if_neg (not_lt.2 hsrc)]

theorem ncoCos_mod (n : Nat) : ncoCos (n % 20) = ncoCos n := by rw [ncoCos, Nat.mod_mod, ncoCos]

theorem ncoSin_mod (n : Nat) : ncoSin (n % 20) = ncoSin n := by rw [ncoSin, Nat.mod_mod, ncoSin]

/-- Settles O19. -/
theorem upconvMixes : Obligations.UpconvMixes := by
  intro dst src s hready hsrc
  have ⟨_, _, _, hk, hwf⟩ := hready
  refine dataCommand_holdsReal hready (runUpconv_fits hk hsrc) (by omega) fun n hn => ?_
  rw [State.cplxElems_eq hwf hn, upconvAt, ncoCos_mod, ncoSin_mod]

end Sys2Proof.Machine
end

section
/-! PROOFS. The parameter checks of the channel commands (60_exceptions.md R129, points 5 and 6; the domains of
42_channel.md R109 to R114). -/

namespace Sys2Proof.Machine

section Checks

variable {dst : Nat} {s : State} {x : Buffer}

theorem BufKind.isSignal_of_real_or_cplx {k : BufKind} (h : k = .real ∨ k = .cplx) : ¬ k.isSignal = false := by
  rcases h with rfl | rfl <;> decide

theorem runAwgn_param (hk : ¬ x.kind.isSignal = false) (h : F64.isFinite s.snrDb = false) :
    runAwgn dst s x = .error .param := by
  simp only [runAwgn]
  rw [if_neg hk, if_pos h]

theorem runFadeRic_noK (hk : ¬ x.kind.isSignal = false) (h : s.status.kValid = false) :
    runFadeRic dst s x = .error .noK := by
  simp only [runFadeRic]
  rw [if_neg hk, if_pos h]

theorem runFadeRic_param (hk : ¬ x.kind.isSignal = false) (hvalid : s.status.kValid = true)
    (h : F64.isFinite s.ricianKDb = false) : runFadeRic dst s x = .error .param := by
  simp only [runFadeRic]
  rw [if_neg hk, if_neg (by simp [hvalid]), if_pos h]

theorem runPhasors_param {param : Word} (r : Nat → ℚ) (hk : ¬ x.kind.isSignal = false)
    (h : F64.isFinite param = false) : runPhasors dst s param r x = .error .param := by
  simp only [runPhasors]
  rw [if_neg hk, if_pos h]

theorem fdelayOk_iff {d : Word} :
    fdelayOk d = true ↔ F64.isFinite d = true ∧ 0 < F64.toRat d ∧ F64.toRat d < 1 := by
  simp [fdelayOk, and_assoc]

theorem runFdelay_param (hk : ¬ x.kind.isSignal = false)
    (h : ¬ (F64.isFinite s.fdelayFrac = true ∧ 0 < F64.toRat s.fdelayFrac ∧ F64.toRat s.fdelayFrac < 1)) :
    runFdelay dst s x = .error .param := by
  simp only [runFdelay]
  rw [if_neg hk, if_pos (Bool.eq_false_of_not_eq_true (mt fdelayOk_iff.1 h))]

end Checks

/-- Settles O10: the common checks have passed, so each command completes with its own first error. -/
theorem parameterChecks : Obligations.ParameterChecks := by
  intro d x s hd hx hc hkind
  have hk := BufKind.isSignal_of_real_or_cplx hkind
  refine ⟨?awgn, ?noK, ?ric, ?fofs, ?fdrift, ?fdelay⟩
  case awgn => exact fun h => dataCommand_raises hd hx hc (runAwgn_param hk h)
  case noK => exact fun h => dataCommand_raises hd hx hc (runFadeRic_noK hk h)
  case ric => exact fun hvalid h => dataCommand_raises hd hx hc (runFadeRic_param hk hvalid h)
  case fofs => exact fun h => dataCommand_raises hd hx hc (runPhasors_param _ hk h)
  case fdrift => exact fun h => dataCommand_raises hd hx hc (runPhasors_param _ hk h)
  case fdelay => exact fun h => dataCommand_raises hd hx hc (runFdelay_param hk h)

end Sys2Proof.Machine
end

section
/-! PROOFS. What the channel commands write (42_channel.md R109 to R114). -/

namespace Sys2Proof.Machine

theorem tabulate_congr {α : Type} {n : Nat} {f g : Nat → α} (h : ∀ i, i < n → f i = g i) :
    tabulate n f = tabulate n g := List.map_congr_left fun i hi => h i (List.mem_range.1 hi)

/-! A command that writes registers beside its result, `r` being the state with these registers written. -/

section Writes

variable {opc : BitVec 8} {dst src n : Nat} {s r : State} {k : BufKind} {body : Buffer → Except ErrCode State}

theorem dataCommand_writesReal {f g : Nat → Word} (hready : s.Ready dst src k)
    (h : body (s.buf src) = .ok (r.putResult dst (.real (tabulate n f)))) (hn : n ≤ Config.bufWords)
    (hfg : ∀ i, i < n → f i = g i) :
    ∃ t, dataCommand opc dst src s body = .next t ∧ CompletesInto opc dst r t ∧ t.HoldsReal dst n g :=
  ⟨_, dataCommand_completes opc hready h, completesInto_putResult r dst _ opc,
    (holdsReal_putResult r f hready.1 (lt_of_le_bufWords hn) opc).congr hfg⟩

theorem dataCommand_writesCplx {f g : Nat → Cplx} (hready : s.Ready dst src k)
    (h : body (s.buf src) = .ok (r.putResult dst (.cplx (tabulate n f)))) (hn : 2 * n ≤ Config.bufWords)
    (hfg : ∀ i, i < n → f i = g i) :
    ∃ t, dataCommand opc dst src s body = .next t ∧ CompletesInto opc dst r t ∧ t.HoldsCplx dst n g :=
  ⟨_, dataCommand_completes opc hready h, completesInto_putResult r dst _ opc,
    (holdsCplx_putResult r f hready.1 (lt_of_le_bufWords (by omega)) opc).congr hfg⟩

end Writes

/-! The words of a REAL and of a CPLX signal. -/

theorem words_real_le {x : Buffer} {n : Nat} (hk : x.kind = .real) (h : n ≤ Config.bufWords) :
    x.kind.wpe * n ≤ Config.bufWords := by
  simpa [hk, BufKind.wpe] using h

theorem words_cplx_le {x : Buffer} {n : Nat} (hk : x.kind = .cplx) (h : 2 * n ≤ Config.bufWords) :
    x.kind.wpe * n ≤ Config.bufWords := by
  simpa [hk, BufKind.wpe] using h

theorem ne_real_of_cplx {k : BufKind} (hk : k = .cplx) : ¬ k = .real := by simp [hk]

/-! AWGN (R109). -/

section Awgn

variable {dst : Nat} {s : State} {x : Buffer}

/-- The number of a draw counts modulo 2^64. -/
theorem noisy_add (σ : Site) (sig seed pos w : Word) (n : Nat) :
    noisy σ sig seed (pos + BitVec.ofNat 64 n) w
      = fadd (σ.sub 1) w (fmul (σ.sub 0) sig (Config.gauss seed ((pos.toNat + n) % 2 ^ 64))) := by
  rw [noisy, BitVec.toNat_add, BitVec.toNat_ofNat, Nat.add_mod_mod]

/-- AWGN_SIGMA of a REAL signal. -/
def awgnSigmaReal (s : State) (N : Nat) (e : Nat → Word) : Word :=
  fsqrt (s.site.sub 3) (noisePower s.site (energyReal s.site N e) N (F64.toRat s.snrDb))

/-- AWGN_SIGMA of a CPLX signal: of half the noise power. -/
def awgnSigmaCplx (s : State) (N : Nat) (e : Nat → Cplx) : Word :=
  fsqrt (s.site.sub 3) (fdiv (s.site.sub 5) (noisePower s.site (energyCplx s.site N e) N (F64.toRat s.snrDb)) fTwo)

/-- Sample `n` of a REAL signal with its noise. -/
def awgnSampleReal (s : State) (sig : Word) (e : Nat → Word) (n : Nat) : Word :=
  noisy ((s.site.sub 4).sub n) sig s.awgnSeed (s.awgnPos + BitVec.ofNat 64 n) (e n)

/-- Sample `n` of a CPLX signal with the noise of its two draws. -/
def awgnSampleCplx (s : State) (sig : Word) (e : Nat → Cplx) (n : Nat) : Cplx :=
  ⟨noisy (((s.site.sub 4).sub n).sub 0) sig s.awgnSeed (s.awgnPos + BitVec.ofNat 64 (2 * n)) (e n).re,
   noisy (((s.site.sub 4).sub n).sub 1) sig s.awgnSeed (s.awgnPos + BitVec.ofNat 64 (2 * n + 1)) (e n).im⟩

theorem awgnReal_eq (s : State) (N : Nat) (e : Nat → Word) :
    awgnReal dst s N e = (s.putNoise N (awgnSigmaReal s N e)).putResult dst
      (.real (tabulate N (awgnSampleReal s (awgnSigmaReal s N e) e))) := rfl

theorem awgnCplx_eq (s : State) (N : Nat) (e : Nat → Cplx) :
    awgnCplx dst s N e = (s.putNoise (2 * N) (awgnSigmaCplx s N e)).putResult dst
      (.cplx (tabulate N (awgnSampleCplx s (awgnSigmaCplx s N e) e))) := rfl

/-- AWGN reads the samples of the signal only. -/
theorem awgnReal_congr {N : Nat} {e e' : Nat → Word} (h : ∀ i, i < N → e i = e' i) :
    awgnReal dst s N e = awgnReal dst s N e' := by
  have energy : energyReal s.site N e = energyReal s.site N e' :=
    dotFrom_congr fun k _ hk => ⟨h k (by omega), h k (by omega)⟩
  have samples (sig : Word) : tabulate N (awgnSampleReal s sig e) = tabulate N (awgnSampleReal s sig e') :=
    tabulate_congr fun n hn => by rw [awgnSampleReal, h n hn, awgnSampleReal]
  rw [awgnReal_eq, samples, awgnSigmaReal, energy, ← awgnSigmaReal, awgnReal_eq]

theorem awgnCplx_congr {N : Nat} {e e' : Nat → Cplx} (h : ∀ i, i < N → e i = e' i) :
    awgnCplx dst s N e = awgnCplx dst s N e' := by
  have energy : energyCplx s.site N e = energyCplx s.site N e' := fsum_congr fun k _ hk => by rw [h k (by omega)]
  have samples (sig : Word) : tabulate N (awgnSampleCplx s sig e) = tabulate N (awgnSampleCplx s sig e') :=
    tabulate_congr fun n hn => by rw [awgnSampleCplx, h n hn, awgnSampleCplx]
  rw [awgnCplx_eq, samples, awgnSigmaCplx, energy, ← awgnSigmaCplx, awgnCplx_eq]

/-- An empty source writes an empty result and no register. -/
theorem runAwgn_real_fits {e : Nat → Word} (hk : x.kind = .real) (hsnr : F64.isFinite s.snrDb = true)
    (hcap : x.len.toNat ≤ Config.bufWords)
    (he : ∀ i, i < x.len.toNat → (x.realElems s.draws).getD i 0#64 = e i) :
    runAwgn dst s x = .ok
      ((if x.len.toNat = 0 then s else s.putNoise x.len.toNat (awgnSigmaReal s x.len.toNat e)).putResult dst
        (.real (tabulate x.len.toNat (awgnSampleReal s (awgnSigmaReal s x.len.toNat e) e)))) := by
  simp only [runAwgn]
  rw [if_neg (BufKind.isSignal_of_real_or_cplx (.inl hk)), if_neg (by simp [hsnr]),
    if_neg (not_lt.2 (words_real_le hk hcap)), if_pos hk]
  by_cases hempty : x.len.toNat = 0
  · rw [if_pos hempty, if_pos hempty, hempty]; rfl
  · rw [if_neg hempty, if_neg hempty, awgnReal_congr he, awgnReal_eq]

/-- An empty source writes an empty result and no register. -/
theorem runAwgn_cplx_fits {e : Nat → Cplx} (hk : x.kind = .cplx) (hsnr : F64.isFinite s.snrDb = true)
    (hcap : 2 * x.len.toNat ≤ Config.bufWords)
    (he : ∀ i, i < x.len.toNat → (x.cplxElems s.draws).getD i Cplx.zero = e i) :
    runAwgn dst s x = .ok
      ((if x.len.toNat = 0 then s else s.putNoise (2 * x.len.toNat) (awgnSigmaCplx s x.len.toNat e)).putResult dst
        (.cplx (tabulate x.len.toNat (awgnSampleCplx s (awgnSigmaCplx s x.len.toNat e) e)))) := by
  simp only [runAwgn]
  rw [if_neg (BufKind.isSignal_of_real_or_cplx (.inr hk)), if_neg (by simp [hsnr]),
    if_neg (not_lt.2 (words_cplx_le hk hcap)), if_neg (ne_real_of_cplx hk)]
  by_cases hempty : x.len.toNat = 0
  · rw [if_pos hempty, if_pos hempty, hempty]; rfl
  · rw [if_neg hempty, if_neg hempty, awgnCplx_congr he, awgnCplx_eq]

end Awgn

/-- Settles O20. -/
theorem awgnOnReal : Obligations.AwgnOnReal := by
  intro dst src s hready hsnr hcap N σ P sig
  have ⟨_, _, _, hk, hwf⟩ := hready
  have writes := runAwgn_real_fits (dst := dst) hk hsnr hcap fun i hi => State.realElems_eq hwf hi 0#64
  exact dataCommand_writesReal hready writes hcap fun n _ => noisy_add _ _ _ _ _ n

/-- Settles O21. -/
theorem awgnOnComplex : Obligations.AwgnOnComplex := by
  intro dst src s hready hsnr hcap N e σ sq P Pn sig
  have ⟨_, _, _, hk, hwf⟩ := hready
  have writes := runAwgn_cplx_fits (dst := dst) hk hsnr hcap fun i hi => State.cplxElems_eq hwf hi Cplx.zero
  exact dataCommand_writesCplx hready writes hcap fun n _ => by
    rw [awgnSampleCplx, noisy_add, noisy_add, ← Nat.add_assoc]; rfl

/-! FADE.RAY (R110). -/

section FadeRay

variable {dst : Nat} {s : State} {x : Buffer}

/-- The number of the second draw counts modulo 2^64. -/
theorem fadeDraws_eq (s : State) :
    s.fadeDraws = (F64.toRat (Config.gauss s.fadeSeed s.fadePos.toNat),
      F64.toRat (Config.gauss s.fadeSeed ((s.fadePos.toNat + 1) % 2 ^ 64))) := by
  rw [State.fadeDraws, BitVec.toNat_add]
  rfl

theorem runFadeRay_real_fits {h : Word} (hk : x.kind = .real) (hcap : x.len.toNat ≤ Config.bufWords)
    (hgain : rayleighH s.fadeDraws.1 s.fadeDraws.2 = h) :
    runFadeRay dst s x = .ok ((s.putFade ⟨h, 0#64⟩).putResult dst
      (.real (tabulate x.len.toNat fun n => fmul (s.site.sub n) ((x.realElems s.draws).getD n 0#64) h))) := by
  simp only [runFadeRay]
  rw [if_neg (BufKind.isSignal_of_real_or_cplx (.inl hk)), if_neg (not_lt.2 (words_real_le hk hcap)), if_pos hk, hgain]
  rfl

theorem runFadeRay_cplx_fits {h : Word} (hk : x.kind = .cplx) (hcap : 2 * x.len.toNat ≤ Config.bufWords)
    (hgain : rayleighH s.fadeDraws.1 s.fadeDraws.2 = h) :
    runFadeRay dst s x = .ok ((s.putFade ⟨h, 0#64⟩).putResult dst (.cplx (tabulate x.len.toNat fun n =>
      ⟨fmul ((s.site.sub n).sub 0) ((x.cplxElems s.draws).getD n Cplx.zero).re h,
       fmul ((s.site.sub n).sub 1) ((x.cplxElems s.draws).getD n Cplx.zero).im h⟩))) := by
  simp only [runFadeRay]
  rw [if_neg (BufKind.isSignal_of_real_or_cplx (.inr hk)), if_neg (not_lt.2 (words_cplx_le hk hcap)),
    if_neg (ne_real_of_cplx hk), hgain]
  rfl

end FadeRay

/-- Settles O22. -/
theorem fadeRayleighScales : Obligations.FadeRayleighScales := by
  intro dst src s a b h r
  have hgain : rayleighH s.fadeDraws.1 s.fadeDraws.2 = h := by rw [fadeDraws_eq]; rfl
  refine ⟨fun hready hcap => ?real, fun hready hcap => ?cplx⟩
  case real =>
    have ⟨_, _, _, hk, hwf⟩ := hready
    have writes := runFadeRay_real_fits (dst := dst) hk hcap hgain
    exact dataCommand_writesReal hready writes hcap fun n hn => by rw [State.realElems_eq hwf hn]
  case cplx =>
    have ⟨_, _, _, hk, hwf⟩ := hready
    have writes := runFadeRay_cplx_fits (dst := dst) hk hcap hgain
    exact dataCommand_writesCplx hready writes hcap fun n hn => by rw [State.cplxElems_eq hwf hn]

/-! Rotations: FADE.RIC, FOFS and FDRIFT (R111 to R113). -/

section Rotations

variable {dst src : Nat} {s : State} {x : Buffer}

theorem rotate_real (hready : s.Ready dst src .real) (h : Nat → Cplx) :
    rotate s (s.buf src) h = tabulate (s.count src) fun n => rotateReal (s.site.sub n) (s.readWord src n) (h n) := by
  obtain ⟨-, -, -, hk, hwf⟩ := hready
  rw [rotate, if_pos hk]
  exact tabulate_congr fun n hn => by rw [State.realElems_eq hwf hn]

theorem rotate_cplx (hready : s.Ready dst src .cplx) (h : Nat → Cplx) :
    rotate s (s.buf src) h = tabulate (s.count src) fun n => cmul (s.site.sub n) (s.cplxElem src n) (h n) := by
  obtain ⟨-, -, -, hk, hwf⟩ := hready
  rw [rotate, if_neg (ne_real_of_cplx hk)]
  exact tabulate_congr fun n hn => by rw [State.cplxElems_eq hwf hn]

theorem runFadeRic_fits {h : Cplx} (hk : x.kind = .real ∨ x.kind = .cplx) (hvalid : s.status.kValid = true)
    (hfin : F64.isFinite s.ricianKDb = true) (hcap : 2 * x.len.toNat ≤ Config.bufWords)
    (hgain : ricianH (F64.toRat s.ricianKDb / 10) s.fadeDraws.1 s.fadeDraws.2 = h) :
    runFadeRic dst s x = .ok ((s.putFade h).putResult dst (.cplx (rotate s x fun _ => h))) := by
  simp only [runFadeRic]
  rw [if_neg (BufKind.isSignal_of_real_or_cplx hk), if_neg (by simp [hvalid]), if_neg (by simp [hfin]),
    if_neg (not_lt.2 hcap), hgain]
  rfl

theorem runPhasors_fits {param : Word} (r : Nat → ℚ) (hk : x.kind = .real ∨ x.kind = .cplx)
    (hfin : F64.isFinite param = true) (hcap : 2 * x.len.toNat ≤ Config.bufWords) :
    runPhasors dst s param r x = .ok (s.putResult dst
      (.cplx (rotate s x fun n => (phasors x.len.toNat r).getD n Cplx.zero))) := by
  simp only [runPhasors]
  rw [if_neg (BufKind.isSignal_of_real_or_cplx hk), if_neg (by simp [hfin]), if_neg (not_lt.2 hcap)]
  simp

section Phasors

variable {opc : BitVec 8} {param : Word} (r : Nat → ℚ)

theorem runPhasors_real (hready : s.Ready dst src .real) (hfin : F64.isFinite param = true)
    (hcap : 2 * s.count src ≤ Config.bufWords) :
    ∃ t, dataCommand opc dst src s (runPhasors dst s param r) = .next t ∧ CompletesInto opc dst s t
      ∧ t.HoldsCplx dst (s.count src) fun n =>
          rotateReal (s.site.sub n) (s.readWord src n) ((phasors (s.count src) r).getD n Cplx.zero) := by
  have ⟨_, _, _, hk, _⟩ := hready
  have writes := runPhasors_fits (dst := dst) (s := s) r (.inl hk) hfin hcap
  rw [rotate_real hready] at writes
  exact dataCommand_holdsCplx hready writes hcap fun _ _ => rfl

theorem runPhasors_cplx (hready : s.Ready dst src .cplx) (hfin : F64.isFinite param = true)
    (hcap : 2 * s.count src ≤ Config.bufWords) :
    ∃ t, dataCommand opc dst src s (runPhasors dst s param r) = .next t ∧ CompletesInto opc dst s t
      ∧ t.HoldsCplx dst (s.count src) fun n =>
          cmul (s.site.sub n) (s.cplxElem src n) ((phasors (s.count src) r).getD n Cplx.zero) := by
  have ⟨_, _, _, hk, _⟩ := hready
  have writes := runPhasors_fits (dst := dst) (s := s) r (.inr hk) hfin hcap
  rw [rotate_cplx hready] at writes
  exact dataCommand_holdsCplx hready writes hcap fun _ _ => rfl

end Phasors

end Rotations

/-- Settles O23. -/
theorem fadeRicianRotates : Obligations.FadeRicianRotates := by
  intro dst src s hvalid hfin hcap a b h r
  have hgain : ricianH (F64.toRat s.ricianKDb / 10) s.fadeDraws.1 s.fadeDraws.2 = h := by rw [fadeDraws_eq]
  refine ⟨fun hready => ?real, fun hready => ?cplx⟩
  case real =>
    have ⟨_, _, _, hk, _⟩ := hready
    have writes := runFadeRic_fits (dst := dst) (.inl hk) hvalid hfin hcap hgain
    rw [rotate_real hready] at writes
    exact dataCommand_writesCplx hready writes hcap fun _ _ => rfl
  case cplx =>
    have ⟨_, _, _, hk, _⟩ := hready
    have writes := runFadeRic_fits (dst := dst) (.inr hk) hvalid hfin hcap hgain
    rw [rotate_cplx hready] at writes
    exact dataCommand_writesCplx hready writes hcap fun _ _ => rfl

/-- Settles O24: FOFS and FDRIFT are one rotation by phasors, of different angles. -/
theorem offsetAndDriftRotate : Obligations.OffsetAndDriftRotate := by
  intro dst src s hcap N e f byReal byCplx
  refine ⟨fun hfin => ⟨fun hready => ?_, fun hready => ?_⟩, fun hfin => ⟨fun hready => ?_, fun hready => ?_⟩⟩
  · exact runPhasors_real (fofsAngle s) hready hfin hcap
  · exact runPhasors_cplx (fofsAngle s) hready hfin hcap
  · exact runPhasors_real (fdriftAngle s) hready hfin hcap
  · exact runPhasors_cplx (fdriftAngle s) hready hfin hcap

/-! FDELAY (R114). -/

section Fdelay

variable {dst : Nat} {s : State} {x : Buffer}

theorem runFdelay_real_fits (hk : x.kind = .real) (hd : fdelayOk s.fdelayFrac = true)
    (hsrc : x.len.toNat ≤ Config.bufWords) (hres : fullLength Config.fdTaps x.len.toNat ≤ Config.bufWords) :
    runFdelay dst s x = .ok (s.putResult dst (.real (tabulate (fullLength Config.fdTaps x.len.toNat) fun n =>
      convolveAt (s.site.sub n) Config.fdTaps x.len.toNat
        (fun k => (fdelayTaps (F64.toRat s.fdelayFrac)).getD k 0#64) (fun i => (x.realElems s.draws).getD i 0#64)
        n))) := by
  simp only [runFdelay]
  rw [if_neg (BufKind.isSignal_of_real_or_cplx (.inl hk)), if_neg (by simp [hd]),
    if_neg (not_or.2 ⟨not_lt.2 (words_real_le hk hsrc), not_lt.2 (words_real_le hk hres)⟩), if_pos hk]
  simp

theorem runFdelay_cplx_fits (hk : x.kind = .cplx) (hd : fdelayOk s.fdelayFrac = true)
    (hsrc : 2 * x.len.toNat ≤ Config.bufWords) (hres : 2 * fullLength Config.fdTaps x.len.toNat ≤ Config.bufWords) :
    runFdelay dst s x = .ok (s.putResult dst (.cplx (tabulate (fullLength Config.fdTaps x.len.toNat)
      (convolveCplxAt s.site Config.fdTaps x.len.toNat
        (fun k => (fdelayTaps (F64.toRat s.fdelayFrac)).getD k 0#64)
        fun i => (x.cplxElems s.draws).getD i Cplx.zero)))) := by
  simp only [runFdelay]
  rw [if_neg (BufKind.isSignal_of_real_or_cplx (.inr hk)), if_neg (by simp [hd]),
    if_neg (not_or.2 ⟨not_lt.2 (words_cplx_le hk hsrc), not_lt.2 (words_cplx_le hk hres)⟩),
    if_neg (ne_real_of_cplx hk)]
  simp

end Fdelay

/-- Settles O25. -/
theorem fdelayConvolves : Obligations.FdelayConvolves := by
  intro dst src s hfin hpos hlt N tap sum
  have hd : fdelayOk s.fdelayFrac = true := fdelayOk_of_domain hfin hpos hlt
  have htaps : 0 < Config.fdTaps := by decide
  refine ⟨fun hready hsrc hlen => ?real, fun hready hsrc hlen => ?cplx⟩
  case real =>
    have ⟨_, _, _, hk, hwf⟩ := hready
    have hres : fullLength Config.fdTaps N ≤ Config.bufWords := by
      simpa using mul_fullLength_le (w := 1) (hlen.imp_right (Nat.one_mul _).trans_le)
    refine dataCommand_holdsReal hready (runFdelay_real_fits hk hd hsrc hres) hres fun n hn => ?_
    have hN : 0 < N := pos_of_lt_fullLength (L := Config.fdTaps) hn
    exact convolveAt_congr htaps hN (fun _ _ => rfl) fun i hi => State.realElems_eq hwf hi 0#64
  case cplx =>
    have ⟨_, _, _, hk, hwf⟩ := hready
    have hres : 2 * fullLength Config.fdTaps N ≤ Config.bufWords := mul_fullLength_le hlen
    refine dataCommand_holdsCplx hready (runFdelay_cplx_fits hk hd hsrc hres) hres fun n hn => ?_
    have hN : 0 < N := pos_of_lt_fullLength (L := Config.fdTaps) hn
    exact convolveCplxAt_congr htaps hN (fun _ _ => rfl) fun i hi => State.cplxElems_eq hwf hi Cplx.zero

end Sys2Proof.Machine
end

section
/-! PROOFS. What the demodulator commands write (43_demodulator.md R116 to R118). -/

namespace Sys2Proof.Machine

/-! DOWNCONV (R116): the mixed signal, then the filter. -/

section Downconv

variable {dst src : Nat} {s : State} {k : BufKind}

theorem mixed_real (hready : s.Ready dst src .real) :
    mixed s (s.buf src) = tabulate (s.count src) fun n => mixReal ((s.site.sub 0).sub n) (s.readWord src n) n := by
  obtain ⟨-, -, -, hk, hwf⟩ := hready
  rw [mixed, if_pos hk]
  exact tabulate_congr fun n hn => by rw [State.realElems_eq hwf hn]

theorem mixed_cplx (hready : s.Ready dst src .cplx) :
    mixed s (s.buf src) = tabulate (s.count src) fun n => mixCplx ((s.site.sub 0).sub n) (s.cplxElem src n) n := by
  obtain ⟨-, -, -, hk, hwf⟩ := hready
  rw [mixed, if_neg (ne_real_of_cplx hk)]
  exact tabulate_congr fun n hn => by rw [State.cplxElems_eq hwf hn]

/-- The filter reads the taps below `LPF_TAPS` and no sample after its own. -/
theorem lowpassAt_congr {σ : Site} {n : Nat} {tap tap' : Nat → Word} {z z' : Nat → Cplx}
    (htap : ∀ i, i < Config.lpfTaps → tap i = tap' i) (hz : ∀ i, i ≤ n → z i = z' i) :
    lowpassAt σ tap z n = lowpassAt σ tap' z' n := by
  have htaps : Config.lpfTaps = 101 := rfl
  have reads : ∀ (τ : Site) (part : Cplx → Word),
      dotFrom τ 0 (min n (Config.lpfTaps - 1) + 1) tap (fun i => part (z (n - i))) =
        dotFrom τ 0 (min n (Config.lpfTaps - 1) + 1) tap' fun i => part (z' (n - i)) := fun τ part =>
    dotFrom_congr fun i _ hi => ⟨htap i (by omega), congrArg part (hz (n - i) (Nat.sub_le n i))⟩
  simp only [lowpassAt, reads _ Cplx.re, reads _ Cplx.im]

theorem runDownconv_fits {x : Buffer} (hk : x.kind = .real ∨ x.kind = .cplx)
    (hcap : 2 * x.len.toNat ≤ Config.bufWords) :
    runDownconv dst s x = .ok (s.putResult dst (.cplx (tabulate x.len.toNat (lowpassAt (s.site.sub 1)
      (fun i => (tabulate Config.lpfTaps s.lpfTap).toArray.getD i 0#64)
      fun i => (mixed s x).toArray.getD i Cplx.zero)))) := by
  simp only [runDownconv]
  rw [if_neg (BufKind.isSignal_of_real_or_cplx hk), if_neg (not_lt.2 hcap)]

/-- DOWNCONV of a source whose mixed signal is `z`. -/
theorem downconv_filters {z : Nat → Cplx} (hready : s.Ready dst src k) (hsignal : k = .real ∨ k = .cplx)
    (hcap : 2 * s.count src ≤ Config.bufWords) (hmixed : mixed s (s.buf src) = tabulate (s.count src) z) :
    ∃ t, exec (.downconv dst src) s = .next t ∧ CompletesInto 0x30#8 dst s t
      ∧ t.HoldsCplx dst (s.count src) (lowpassAt (s.site.sub 1) s.lpfTap z) := by
  have ⟨_, _, _, hk, _⟩ := hready
  refine dataCommand_holdsCplx hready (runDownconv_fits (by rwa [hk]) hcap) hcap fun n hn => ?_
  refine lowpassAt_congr (fun i hi => ?tap) fun i hi => ?sample
  case tap => rw [getD_tabulate, if_pos hi]
  case sample => rw [hmixed, getD_tabulate, if_pos (Nat.lt_of_le_of_lt hi hn)]

end Downconv

/-- Settles O26: both kinds are filtered alike, and the NCO ROM has period 20. -/
theorem downconvMixesAndFilters : Obligations.DownconvMixesAndFilters := by
  intro dst src s hcap N σ zr zc filtered
  have hzr : (fun n => mixReal (σ.sub n) (s.readWord src n) n) = zr := by
    funext n
    rw [mixReal, ← ncoCos_mod, ← ncoSin_mod]
  have hzc : (fun n => mixCplx (σ.sub n) (s.cplxElem src n) n) = zc := by
    funext n
    rw [mixCplx, ← ncoCos_mod, ← ncoSin_mod]
  refine ⟨fun hready => ?real, fun hready => ?cplx⟩
  case real => exact downconv_filters hready (.inl rfl) hcap (hzr ▸ mixed_real hready)
  case cplx => exact downconv_filters hready (.inr rfl) hcap (hzc ▸ mixed_cplx hready)

/-! MATCH and MATCH.T (R117, R118). -/

section Match

variable {dst src : Nat} {s : State} {keep : Nat → Nat}

theorem runMatch_fits {x : Buffer} (hk : x.kind = .cplx) (hsrc : 2 * x.len.toNat ≤ Config.bufWords)
    (hres : 2 * fullLength s.rrcLen.toNat x.len.toNat ≤ Config.bufWords) :
    runMatch dst s keep x = .ok (s.putResult dst (.cplx (tabulate (keep (fullLength s.rrcLen.toNat x.len.toNat))
      (matchAt s x.len.toNat (fun k => (tabulate s.rrcLen.toNat s.tap).toArray.getD k 0#64)
        fun i => (x.cplxElems s.draws).getD i Cplx.zero)))) := by
  simp only [runMatch]
  rw [if_neg (not_not.2 hk), if_neg (by omega)]

theorem matchAt_congr {N n : Nat} {tap tap' : Nat → Word} {x x' : Nat → Cplx} (hL : 0 < s.rrcLen.toNat) (hN : 0 < N)
    (htap : ∀ k, k < s.rrcLen.toNat → tap k = tap' k) (hx : ∀ i, i < N → x i = x' i) :
    matchAt s N tap x n = matchAt s N tap' x' n := by
  rw [matchAt, convolveCplxAt_congr hL hN htap hx, matchAt]

/-- Both commands write the samples of one scaled convolution, of which they keep a first part. -/
theorem match_keeps (hready : s.Ready dst src .cplx) (hL : 0 < s.rrcLen.toNat)
    (hsrc : 2 * s.count src ≤ Config.bufWords)
    (hlen : s.count src = 0 ∨ 2 * (s.count src + s.rrcLen.toNat - 1) ≤ Config.bufWords)
    (hkeep : ∀ Nout, keep Nout ≤ Nout) :
    ∃ t, dataCommand 0x31#8 dst src s (runMatch dst s keep) = .next t ∧ CompletesInto 0x31#8 dst s t
      ∧ t.HoldsCplx dst (keep (fullLength s.rrcLen.toNat (s.count src)))
          (matchAt s (s.count src) s.tap (s.cplxElem src)) := by
  have ⟨_, _, _, hk, hwf⟩ := hready
  have hres : 2 * fullLength s.rrcLen.toNat (s.count src) ≤ Config.bufWords := mul_fullLength_le hlen
  have kept := hkeep (fullLength s.rrcLen.toNat (s.count src))
  refine dataCommand_holdsCplx hready (runMatch_fits hk hsrc hres) ((Nat.mul_le_mul_left 2 kept).trans hres)
    fun n hn => ?_
  have hN : 0 < s.count src := pos_of_lt_fullLength (Nat.lt_of_lt_of_le hn kept)
  refine matchAt_congr hL hN (fun k hlt => ?tap) fun i hi => State.cplxElems_eq hwf hi Cplx.zero
  case tap => rw [getD_tabulate, if_pos hlt]

end Match

/-- Settles O27: MATCH keeps all samples of the scaled convolution, MATCH.T all but the last `6·SPS`. -/
theorem matchFiltersAndTrims : Obligations.MatchFiltersAndTrims := by
  intro dst src s hready hL hsrc hlen N Nout scaled sum y
  refine ⟨?full, ?trim⟩
  case full => exact match_keeps hready hL hsrc hlen Nat.le_refl
  case trim => exact match_keeps hready hL hsrc hlen fun Nout => Nat.sub_le Nout _

end Sys2Proof.Machine
end

section
/-! PROOFS. What the sampler and the decision demapper write (44_demapper.md R120 to R123). -/

namespace Sys2Proof.Machine

/-! SAMPLE and SAMPLE.A (R120, R121). -/

section Sample

variable {dst src : Nat} {s : State} {x : Buffer}

theorem runSample_fits (hk : x.kind = .cplx) (hsrc : 2 * x.len.toNat ≤ Config.bufWords)
    (hres : 2 * s.sampleCount.toNat ≤ Config.bufWords)
    (hrange : s.sampleCount.toNat = 0 ∨ (0 ≤ sampleStart s
      ∧ sampleStart s + ((s.sampleCount.toNat : Int) - 1) * (s.sps.toNat : Int) < x.len.toNat)) :
    runSample dst s x = .ok (s.putResult dst (.cplx (samplesAt s x s.sampleCount.toNat))) := by
  simp only [runSample]
  rw [if_neg (not_not.2 hk), if_neg (by omega), if_neg (by omega)]

theorem runSampleAuto_fits (hk : x.kind = .cplx) (hsrc : 2 * x.len.toNat ≤ Config.bufWords)
    (hrange : 0 ≤ sampleStart s) :
    runSampleAuto dst s x
      = .ok (s.putResult dst (.cplx (samplesAt s x (autoCount (sampleStart s) x.len.toNat s.sps.toNat)))) := by
  simp only [runSampleAuto]
  rw [if_neg (not_not.2 hk), if_neg (not_lt.2 hrange), if_neg (not_lt.2 hsrc)]

/-- Both commands: samples taken at instants inside the source are the source's elements. -/
theorem sample_copies {opc : BitVec 8} {cnt : Nat} {body : Buffer → Except ErrCode State}
    (hready : s.Ready dst src .cplx)
    (hbody : body (s.buf src) = .ok (s.putResult dst (.cplx (samplesAt s (s.buf src) cnt))))
    (hcnt : 2 * cnt ≤ Config.bufWords)
    (hinside : ∀ k, k < cnt → (sampleStart s).toNat + k * s.sps.toNat < s.count src) :
    ∃ t, dataCommand opc dst src s body = .next t ∧ CompletesInto opc dst s t
      ∧ t.HoldsCplx dst cnt fun k => s.cplxElem src ((sampleStart s).toNat + k * s.sps.toNat) :=
  have ⟨_, _, _, _, hwf⟩ := hready
  dataCommand_holdsCplx hready hbody hcnt fun k hk => State.cplxElems_eq hwf (hinside k hk) Cplx.zero

/-- Where the last of `cnt` instants is inside the source, all of them are. -/
theorem instant_lt {st : Int} {cnt sps N k : Nat} (hst : 0 ≤ st) (hlast : st + ((cnt : Int) - 1) * sps < N)
    (hk : k < cnt) : st.toNat + k * sps < N := by
  have hstep : (k : Int) * sps ≤ ((cnt : Int) - 1) * sps :=
    mul_le_mul_of_nonneg_right (by omega) (Int.natCast_nonneg sps)
  zify
  rw [Int.toNat_of_nonneg hst]
  linarith

/-- R121: the count is that of the instants inside the source. -/
theorem lt_autoCount_iff {st : Int} {N sps : Nat} (hst : 0 ≤ st) (hsps : 0 < sps) (k : Nat) :
    k < autoCount st N sps ↔ st + k * sps < N := by
  lift st to Nat using hst
  norm_cast
  rw [autoCount, Int.toNat_natCast]
  split
  · next h =>
    rw [Nat.lt_succ_iff, Nat.le_div_iff_mul_le hsps]
    omega
  · next h => exact iff_of_false (Nat.not_lt_zero k) (by omega)

end Sample

/-- Settles O28. -/
theorem sampleCopiesInstants : Obligations.SampleCopiesInstants := by
  intro dst src s hready hsrc hres st hrange
  have ⟨_, _, _, hk, _⟩ := hready
  refine sample_copies hready (runSample_fits hk hsrc hres hrange) hres fun k hlt => ?_
  obtain ⟨hst, hlast⟩ := hrange.resolve_left (by omega)
  exact instant_lt hst hlast hlt

/-- Settles O29. -/
theorem sampleAutoCopiesAll : Obligations.SampleAutoCopiesAll := by
  intro dst src s hready hsps hsrc st hst
  have ⟨_, _, _, hk, _⟩ := hready
  have hcount := lt_autoCount_iff (N := s.count src) hst hsps
  have hle : autoCount st (s.count src) s.sps.toNat ≤ s.count src := autoCount_le _ _ (not_lt.2 hst)
  have hinside : ∀ k, k < autoCount st (s.count src) s.sps.toNat → st.toNat + k * s.sps.toNat < s.count src :=
    fun k hlt => by have := (hcount k).1 hlt; omega
  have hcap : 2 * autoCount st (s.count src) s.sps.toNat ≤ Config.bufWords := (Nat.mul_le_mul_left 2 hle).trans hsrc
  obtain ⟨t, hexec, hframe, hholds⟩ :=
    sample_copies (opc := 0x32#8) hready (runSampleAuto_fits hk hsrc hst) hcap hinside
  exact ⟨t, _, hexec, hframe, hcount, hholds⟩

/-! DEMAP (R122): the decided bits, one group after the other. -/

section Demap

variable {dst src : Nat} {s : State}

theorem runDemap_fits {x : Buffer} (hk : x.kind = .cplx) (hsrc : 2 * x.len.toNat ≤ Config.bufWords)
    (hres : x.len.toNat * s.order.toNat ≤ Config.bufWords) :
    runDemap dst s x = .ok (s.putResult dst (.bits ((tabulate x.len.toNat fun i =>
      demapBits s.draws s.order.toNat i s.points ((x.cplxElems s.draws).getD i Cplx.zero)).flatten))) := by
  simp only [runDemap]
  rw [if_neg (not_not.2 hk), if_neg (by omega)]

/-- DEMAP writes the bits `f` if `f n` is bit `n % order` of the decision on sample `n / order`. -/
theorem demap_writes {f : Nat → Bool} (hready : s.Ready dst src .cplx) (hsrc : 2 * s.count src ≤ Config.bufWords)
    (hres : s.count src * s.order.toNat ≤ Config.bufWords)
    (hf : ∀ n, n < s.count src * s.order.toNat →
      (demapBits s.draws s.order.toNat (n / s.order.toNat) s.points
        (s.cplxElem src (n / s.order.toNat)))[n % s.order.toNat]? = some (f n)) :
    ∃ t, exec (.demap dst src) s = .next t ∧ CompletesInto 0x33#8 dst s t
      ∧ t.HoldsBits dst (s.count src * s.order.toNat) f := by
  have ⟨hdst, _, _, hk, hwf⟩ := hready
  have hlen := fun i => length_demapBits s.draws s.order.toNat i s.points
    (((s.buf src).cplxElems s.draws).getD i Cplx.zero)
  refine ⟨_, dataCommand_completes _ hready (runDemap_fits hk hsrc hres), completesInto_putResult s dst _ _,
    holdsBits_putResult s _ f hdst (lt_of_le_bufWords hres) (length_flatten_tabulate _ _ _ hlen) (fun n hn => ?_) _⟩
  have hsample : n / s.order.toNat < s.count src := Nat.div_lt_of_lt_mul (by rwa [Nat.mul_comm])
  rw [getElem?_flatten_tabulate _ _ _ hlen n hn, State.cplxElems_eq hwf hsample]
  exact hf n hn

end Demap

theorem demapBits_one (draw i : Nat) (points : List ConstEntry) (x : Cplx) :
    demapBits draw 1 i points x = [fgtZero x.re] := rfl

theorem demapBits_two (draw i : Nat) (points : List ConstEntry) (x : Cplx) :
    demapBits draw 2 i points x = [fgtZero x.re, fgtZero x.im] := rfl

theorem demapBits_of_two_lt {order : Nat} (h : 2 < order) (draw i : Nat) (points : List ConstEntry) (x : Cplx) :
    demapBits draw order i points x = indexBits order (decideIndex draw i points x) := by
  rw [demapBits, if_neg (by omega), if_neg (by omega)]

/-- Settles O30. -/
theorem demapTakesSigns : Obligations.DemapTakesSigns := by
  intro dst src s hready hsrc
  refine ⟨fun horder => ?bpsk, fun horder => ?qpsk⟩
  case bpsk =>
    have h := demap_writes (f := fun n => fgtZero (s.cplxElem src n).re) hready hsrc (by rw [horder]; omega)
      fun n _ => by rw [horder, demapBits_one, Nat.div_one, Nat.mod_one]; rfl
    rwa [horder, Nat.mul_one] at h
  case qpsk =>
    have h := demap_writes (f := fun n =>
        if n % 2 = 0 then fgtZero (s.cplxElem src (n / 2)).re else fgtZero (s.cplxElem src (n / 2)).im)
      hready hsrc (by rw [horder]; omega) fun n _ => by
        rw [horder, demapBits_two]
        rcases Nat.mod_two_eq_zero_or_one n with h | h <;> rw [h] <;> rfl
    rwa [horder, Nat.mul_comm] at h

/-! The nearest point (R122, log 6). -/

section Nearest

variable {M : Nat} {d : Nat → ℚ}

theorem mem_tabulate {α : Type} {n : Nat} {f : Nat → α} {a : α} : a ∈ tabulate n f ↔ ∃ i, i < n ∧ f i = a := by
  simp [tabulate]

theorem mem_leastIndices_tabulate {v : Nat} :
    v ∈ leastIndices (tabulate M d) ↔ v < M ∧ ∀ w, w < M → d v ≤ d w := by
  have value {w : Nat} (hw : w < M) : (tabulate M d).getD w 0 = d w := by
    rw [List.getD_eq_getElem?_getD, getElem?_tabulate, if_pos hw]; rfl
  unfold leastIndices
  cases hmin : (tabulate M d).min? with
  | none =>
    have hM : M = 0 := by simpa using congrArg List.length (List.min?_eq_none_iff.1 hmin)
    simp [hM]
  | some m =>
    obtain ⟨hm, hle⟩ := List.min?_eq_some_iff.1 hmin
    obtain ⟨u, hu, rfl⟩ := mem_tabulate.1 hm
    simp only [List.mem_filter, List.mem_range, length_tabulate, decide_eq_true_eq]
    refine and_congr_right fun hv => ?_
    rw [value hv]
    refine ⟨fun heq w hw => heq ▸ hle _ (mem_tabulate.2 ⟨w, hw, rfl⟩), fun hleast => ?_⟩
    exact le_antisymm (hleast u hu) (hle _ (mem_tabulate.2 ⟨v, hv, rfl⟩))

theorem leastIndices_tabulate_ne_nil (hM : 0 < M) : leastIndices (tabulate M d) ≠ [] := by
  obtain ⟨v, hv, hleast⟩ := (Finset.range M).exists_min_image d ⟨0, Finset.mem_range.2 hM⟩
  exact List.ne_nil_of_mem
    (mem_leastIndices_tabulate.2 ⟨Finset.mem_range.1 hv, fun w hw => hleast w (Finset.mem_range.2 hw)⟩)

/-- A draw is one of the candidates, whatever TIE. -/
theorem drawFrom_mem (draw element : Nat) {c : List Nat} (h : c ≠ []) : drawFrom draw element c ∈ c := by
  have hlt : Config.tie draw element % c.length < c.length := Nat.mod_lt _ (List.length_pos_iff.2 h)
  rw [drawFrom, List.getD_eq_getElem _ _ hlt]
  exact List.getElem_mem hlt

/-- For a finite sample the decided index is among those of the nearest points. -/
theorem decideIndex_mem_least (draw i : Nat) {points : List ConstEntry} {x : Cplx} (hre : F64.isFinite x.re = true)
    (him : F64.isFinite x.im = true) (h : leastIndices (points.map (dist2 x)) ≠ []) :
    decideIndex draw i points x ∈ leastIndices (points.map (dist2 x)) := by
  rw [decideIndex, if_pos (by rw [hre, him]; rfl)]
  split
  · next v hv => rw [hv]; exact List.mem_singleton_self v
  · exact drawFrom_mem draw i h

/-- A sample that is not finite decides for some index. -/
theorem decideIndex_mem_range (draw i : Nat) {points : List ConstEntry} {x : Cplx}
    (hfin : ¬ (F64.isFinite x.re && F64.isFinite x.im) = true) (h : 0 < points.length) :
    decideIndex draw i points x ∈ List.range points.length := by
  rw [decideIndex, if_neg hfin]
  exact drawFrom_mem draw i (List.ne_nil_of_mem (List.mem_range.2 h))

variable (s : State) (x : Cplx)

theorem State.map_dist2_points :
    s.points.map (dist2 x) = tabulate (2 ^ s.order.toNat) fun v => distSq x (s.point v) := List.map_map

theorem State.length_points : s.points.length = 2 ^ s.order.toNat := length_tabulate _ _

/-- The index that a finite sample gives: below M, and no point is nearer than its own (R122). -/
theorem decideIndex_nearest (draw i : Nat) (hre : F64.isFinite x.re = true) (him : F64.isFinite x.im = true) :
    decideIndex draw i s.points x < 2 ^ s.order.toNat ∧ ∀ w, w < 2 ^ s.order.toNat →
      distSq x (s.point (decideIndex draw i s.points x)) ≤ distSq x (s.point w) := by
  have hmem := decideIndex_mem_least draw i (points := s.points) hre him
  rw [s.map_dist2_points] at hmem
  exact mem_leastIndices_tabulate.1 (hmem (leastIndices_tabulate_ne_nil (Nat.two_pow_pos _)))

theorem decideIndex_lt (draw i : Nat) : decideIndex draw i s.points x < 2 ^ s.order.toNat := by
  by_cases hfin : (F64.isFinite x.re && F64.isFinite x.im) = true
  · obtain ⟨hre, him⟩ := Bool.and_eq_true_iff.1 hfin
    exact (decideIndex_nearest s x draw i hre him).1
  · have hmem := decideIndex_mem_range draw i hfin (s.length_points ▸ Nat.two_pow_pos _)
    rwa [List.mem_range, s.length_points] at hmem

end Nearest

/-- Settles O31, the index of sample `i` being the model's decision. -/
theorem demapFindsNearestPoint : Obligations.DemapFindsNearestPoint := by
  intro dst src s hready horder hsrc hres
  obtain ⟨t, hexec, hframe, hholds⟩ := demap_writes hready hsrc hres fun n _ => by
    rw [demapBits_of_two_lt horder, indexBits, getElem?_tabulate, if_pos (Nat.mod_lt n (by omega))]
  refine ⟨t, fun i => decideIndex s.draws i s.points (s.cplxElem src i), hexec, hframe, hholds, fun i _ => ?_⟩
  exact ⟨decideIndex_lt s _ _ i, fun hre him => (decideIndex_nearest s _ _ i hre him).2⟩

/-! The inverse law (R123): a sample equal to a point is at distance 0 from it, and from no other. -/

section Inverse

theorem two_pow_lt_overflow {k : Nat} (hk : k ≤ 970) : (2 : ℝ) ^ k < 2 ^ 1024 - 2 ^ 970 := by
  have hle : (2 : ℝ) ^ k ≤ 2 ^ 970 := pow_le_pow_right₀ (by norm_num) hk
  have hpos : (0 : ℝ) < 2 ^ 970 := by positivity
  have hsplit : (2 : ℝ) ^ 1024 = 2 ^ 54 * 2 ^ 970 := by rw [← pow_add]
  rw [hsplit]
  generalize (2 : ℝ) ^ 970 = z at hle hpos ⊢
  linarith

/-- An integer of up to 53 bits is a binary64 value: its significand shifted up to the hidden bit. -/
theorem exists_word_of_int {k : ℤ} (hk : k.natAbs < 2 ^ 53) :
    ∃ w : Word, F64.isFinite w = true ∧ (F64.toRat w : ℝ) = k := by
  rcases eq_or_ne k 0 with rfl | hne
  · have hzero : F64.toRat (F64.zero false) = 0 := by decide +kernel
    exact ⟨F64.zero false, by decide, by rw [hzero]; simp⟩
  have hpos : k.natAbs ≠ 0 := Int.natAbs_ne_zero.2 hne
  have hlog : Nat.log2 k.natAbs < 53 := (Nat.log2_lt hpos).2 hk
  obtain ⟨j, hj⟩ : ∃ j, Nat.log2 k.natAbs + j = 52 := ⟨52 - Nat.log2 k.natAbs, by omega⟩
  have hlow : 2 ^ 52 ≤ k.natAbs * 2 ^ j := by
    rw [← hj, pow_add]; exact Nat.mul_le_mul_right _ (Nat.log2_self_le hpos)
  have hhigh : k.natAbs * 2 ^ j < 2 ^ 53 := by
    calc k.natAbs * 2 ^ j < 2 ^ (Nat.log2 k.natAbs + 1) * 2 ^ j :=
          Nat.mul_lt_mul_of_pos_right Nat.lt_log2_self (Nat.two_pow_pos j)
      _ = 2 ^ 53 := by rw [← pow_add]; congr 1; omega
  obtain ⟨hfin, -, -, hval⟩ := F64.ofUlps_finite (decide (k < 0)) (m := k.natAbs * 2 ^ j) (q := -j) (by omega) hhigh.le
    (fun _ => hlow) (by omega)
  refine ⟨_, hfin, ?_⟩
  have hsigned := signed_natAbs_div k 1
  rw [hval]
  push_cast at hsigned ⊢
  rw [mul_assoc, zpow_neg, zpow_natCast, mul_inv_cancel₀ (by positivity)]
  simpa [neg_one_mul, ite_mul] using hsigned

/-- `f64` of an integer of up to 53 bits is exact. -/
theorem toRat_f64 {k : ℤ} (hk : k.natAbs < 2 ^ 53) : F64.isFinite (f64 k) = true ∧ F64.toRat (f64 k) = k := by
  obtain ⟨w, hw, hval⟩ := exists_word_of_int hk
  have hsmall : |(k : ℝ)| < 2 ^ 53 := by
    rw [← Int.cast_abs, Int.abs_eq_natAbs]; exact_mod_cast hk
  obtain ⟨⟨hfin, hnear⟩, -⟩ := (f64_spec k).1 (hsmall.trans (two_pow_lt_overflow (by norm_num)))
  have hdist := hnear w hw
  rw [hval, sub_self, abs_zero, abs_nonpos_iff, sub_eq_zero] at hdist
  exact ⟨hfin, by exact_mod_cast hdist⟩

/-- The sample that is exactly the point (R123). -/
def ConstEntry.sample (p : ConstEntry) : Cplx := ⟨f64 p.i.toInt, f64 p.q.toInt⟩

theorem natAbs_toInt_lt (b : BitVec 32) : b.toInt.natAbs < 2 ^ 53 := by
  have hlo := b.le_toInt
  have hhi := b.toInt_lt
  omega

theorem ConstEntry.sample_finite (p : ConstEntry) :
    F64.isFinite p.sample.re = true ∧ F64.isFinite p.sample.im = true :=
  ⟨(toRat_f64 (natAbs_toInt_lt p.i)).1, (toRat_f64 (natAbs_toInt_lt p.q)).1⟩

theorem distSq_sample (p r : ConstEntry) :
    distSq p.sample r = ((p.i.toInt : ℚ) - r.i.toInt) ^ 2 + ((p.q.toInt : ℚ) - r.q.toInt) ^ 2 := by
  rw [distSq, ConstEntry.sample, (toRat_f64 (natAbs_toInt_lt p.i)).2, (toRat_f64 (natAbs_toInt_lt p.q)).2]

theorem distSq_sample_self (p : ConstEntry) : distSq p.sample p = 0 := by rw [distSq_sample]; ring

/-- Only the point itself is at no distance. -/
theorem eq_of_distSq_sample_le {p r : ConstEntry} (h : distSq p.sample r ≤ 0) : r = p := by
  rw [distSq_sample] at h
  have hi : (p.i.toInt : ℚ) - r.i.toInt = 0 := by nlinarith
  have hq : (p.q.toInt : ℚ) - r.q.toInt = 0 := by nlinarith
  have hi' : r.i = p.i := BitVec.toInt_inj.1 (by exact_mod_cast (sub_eq_zero.1 hi).symm)
  have hq' : r.q = p.q := BitVec.toInt_inj.1 (by exact_mod_cast (sub_eq_zero.1 hq).symm)
  change ConstEntry.mk r.i r.q = ConstEntry.mk p.i p.q
  rw [hi', hq']

variable {s : State}

/-- What CFG_VALID says of the order and the table (R99). -/
theorem State.Inv.order_and_table (hinv : s.Inv) (hvalid : s.status.cfgValid = true) :
    s.order.toNat = s.linkOrder ∧ s.TableOk := by
  obtain ⟨-, -, -, hconfigured⟩ := hinv
  obtain ⟨hscheme, hlink, htable, hd⟩ := checks_of_configure (hconfigured hvalid)
  obtain ⟨horder, -⟩ := registers_of_derived hscheme hlink hd
  exact ⟨horder, htable⟩

/-- A configured machine of order 4 and above has a valid entry at every index below M. -/
theorem State.Inv.read_consts (hinv : s.Inv) (hvalid : s.status.cfgValid = true) (horder : 4 ≤ s.order.toNat) {v : Nat}
    (hv : v < 2 ^ s.order.toNat) : Memory.read s.consts v = some (s.point v) := by
  obtain ⟨hlink, htable⟩ := hinv.order_and_table hvalid
  rw [hlink] at horder hv
  obtain ⟨p, hp⟩ := (htable horder).1 v hv
  rw [State.point, hp, Option.getD_some]

/-- A configured machine of order 4 and above has no point twice (R98). -/
theorem State.Inv.index_unique (hinv : s.Inv) (hvalid : s.status.cfgValid = true) (horder : 4 ≤ s.order.toNat)
    {v w : Nat} (hv : v < 2 ^ s.order.toNat) (hw : w < 2 ^ s.order.toNat) (h : s.point v = s.point w) : v = w := by
  have hread : Memory.read s.consts v = Memory.read s.consts w := by
    rw [hinv.read_consts hvalid horder hv, hinv.read_consts hvalid horder hw, h]
  obtain ⟨hlink, htable⟩ := hinv.order_and_table hvalid
  rw [hlink] at horder hv hw
  by_contra hne
  exact (htable horder).2 v w hv hw hne hread

end Inverse

/-- Settles O32: the decided index is that of a nearest point (R122), which here is the sample itself. -/
theorem constellationInverseLaw : Obligations.ConstellationInverseLaw := by
  intro dst src s v hinv hready horder hsrc hres hexact
  have ⟨_, _, hvalid, _, _⟩ := hready
  obtain ⟨t, u, hexec, -, hholds, hnearest⟩ := demapFindsNearestPoint dst src s hready (by omega) hsrc hres
  have hindex : ∀ i, i < s.count src → u i = v i := fun i hi => by
    obtain ⟨hv, helem⟩ := hexact i hi
    obtain ⟨hu, hleast⟩ := hnearest i hi
    have hsample : s.cplxElem src i = (s.point (v i)).sample := helem
    obtain ⟨hre, him⟩ := (s.point (v i)).sample_finite
    rw [hsample] at hleast
    have hzero := hleast hre him (v i) hv
    rw [distSq_sample_self] at hzero
    exact hinv.index_unique hvalid horder hu hv (eq_of_distSq_sample_le hzero)
  refine ⟨t, hexec, hholds.congr fun n hn => ?_⟩
  rw [hindex _ (Nat.div_lt_of_lt_mul (by rwa [Nat.mul_comm]))]

end Sys2Proof.Machine
end

section
/-! PROOFS. Completion and errors: every command completes, an error is precise, the common checks come in their order, a
CMD write issues, and irq follows completion (60_exceptions.md R126 to R133). -/

namespace Sys2Proof.Machine

section Completion

variable {i : Instr} {s t : State}

/-! Completion (R127, R128). -/

/-- Before completion a command's writes change no bit of STATUS but CFG_VALID. -/
theorem CommandWrites.status {r : State} (h : CommandWrites i s r) :
    r.status = { s.status with cfgValid := r.status.cfgValid } := by
  cases i with
  | nop => obtain rfl : r = s := h; rfl
  | config => obtain ⟨d, -, rfl⟩ := h; rfl
  | awgn => obtain ⟨r0, ⟨y, -, rfl⟩, rfl | ⟨n, sig, rfl⟩⟩ := h <;> rfl
  | fadeRay | fadeRic => obtain ⟨r0, g, ⟨y, -, rfl⟩, rfl⟩ := h; rfl
  | _ => obtain ⟨y, -, rfl⟩ := h; rfl

/-- R127's STATUS after every command, with the ERR byte it completes with. -/
theorem exec_completes (i : Instr) (s : State) : ∃ t err, exec i s = .next t ∧ legalErr err = true
    ∧ t.status = { s.status.completed i.opcode err with cfgValid := t.status.cfgValid } := by
  rcases exec_outcome i s with ⟨e, he⟩ | ⟨r, hr, he⟩
  · exact ⟨_, e.code, he, legalErr_code e, rfl⟩
  · exact ⟨_, 0#8, he, rfl, by rw [State.complete_status, hr.status]; rfl⟩

/-- The legal ERR bytes, one by one. -/
theorem toNat_mem_of_legalErr {err : BitVec 8} (h : legalErr err = true) :
    err.toNat ∈ [0, 1, 2, 3, 4, 5, 6, 7, 8, 9, 16, 17, 18] := by
  simp only [legalErr, Bool.or_eq_true, Bool.and_eq_true, decide_eq_true_eq] at h
  simp only [List.mem_cons, List.not_mem_nil, or_false]
  omega

/-! Errors (R130): an error is `raiseError` of the opcode field, whatever the command word. -/

theorem exec_error (hexec : exec i s = .next t) (herr : t.status.err ≠ 0#8) : ∃ e, t = s.raiseError i.opcode e := by
  rcases exec_outcome i s with ⟨e, he⟩ | ⟨r, -, he⟩
  · exact ⟨e, by simpa [he] using hexec.symm⟩
  · obtain rfl : r.complete i.opcode = t := by simpa [he] using hexec
    exact absurd rfl herr

theorem engineTurn_error (hbusy : s.status.busy = true) (hturn : engineTurn s = .next t) (herr : t.status.err ≠ 0#8) :
    ∃ e, t = s.raiseError (fieldOpc s.cmd) e := by
  cases hdec : decode s.cmd with
  | error e =>
    rw [engineTurn_of_illegal hbusy hdec] at hturn
    exact ⟨.illegal, by simpa using hturn.symm⟩
  | ok i =>
    rw [engineTurn_of_decode hbusy hdec] at hturn
    rw [(fieldsMatch_of_decode hdec).opc]
    exact exec_error hturn herr

/-- What `raiseError` writes, `isConfig` saying that the opcode is CONFIG's. -/
theorem eq_of_raiseError {opc : BitVec 8} {e : ErrCode} {isConfig : Prop} [Decidable isConfig]
    (hopc : opc = 0x01#8 ↔ isConfig) (ht : t = s.raiseError opc e) :
    t = { s with
          status :=
            { s.status with
              busy := false, done := true, err := t.status.err, lastOpc := opc
              cfgValid := if isConfig then false else s.status.cfgValid } } := by
  subst ht
  simp only [State.raiseError, hopc]
  rfl

/-! The common checks (R129). -/

theorem isSignal_eq_false_of_not_taken {k : BufKind} (h : decide (k = .real ∨ k = .cplx) = false) :
    k.isSignal = false := by
  cases k with
  | none | bits => rfl
  | real | cplx => cases h

/-- A data command is `dataCommand` of checks and writes of its own, the first of which is that of the source kind. -/
theorem exec_eq_dataCommand {d x : Nat} (hops : i.operands = some (d, x)) (s : State) :
    ∃ body, exec i s = dataCommand i.opcode d x s body
      ∧ (takesKind i (s.buf x).kind = false → body (s.buf x) = .error .kind) := by
  cases i with
  | nop | config => cases hops
  | map | comb | rrc | upconv | matchFull | matchTrim | sample | sampleAuto | demap =>
    cases hops
    exact ⟨_, rfl, fun h => if_pos (of_decide_eq_false h)⟩
  | awgn | fadeRay | fadeRic | fofs | fdrift | fdelay | downconv =>
    cases hops
    exact ⟨_, rfl, fun h => if_pos (isSignal_eq_false_of_not_taken h)⟩

/-! irq (R133). -/

theorem exec_irq (hexec : exec i s = .next t) : t.irq = s.irqEn := by
  obtain ⟨u, err, hu, -, hstatus⟩ := exec_completes i s
  obtain rfl : u = t := by simpa [hu] using hexec
  have hdone : u.status.done = true := by rw [hstatus]; rfl
  have hirqEn : u.irqEn = s.irqEn := by rw [(exec_keepsFrame hexec).rest]
  rw [State.irq, hdone, hirqEn, Bool.true_and]

theorem engineTurn_irq (hbusy : s.status.busy = true) (hturn : engineTurn s = .next t) : t.irq = s.irqEn := by
  cases hdec : decode s.cmd with
  | error e =>
    obtain rfl : s.raiseError (fieldOpc s.cmd) .illegal = t := by
      simpa [engineTurn_of_illegal hbusy hdec] using hturn
    exact Bool.true_and _
  | ok i => exact exec_irq (engineTurn_of_decode hbusy hdec ▸ hturn)

end Completion

/-- Settles O6, by the two ways a command can complete (`exec_outcome`). -/
theorem everyCommandCompletes : Obligations.EveryCommandCompletes := by
  intro i s
  obtain ⟨t, err, hexec, herr, hstatus⟩ := exec_completes i s
  refine ⟨t, hexec, ?_⟩
  rw [hstatus]
  exact ⟨rfl, rfl, rfl, toNat_mem_of_legalErr herr, rfl, rfl, rfl⟩

/-- Settles O8: an error is `raiseError`, and CONFIG is told by its opcode. -/
theorem errorsArePrecise : Obligations.ErrorsArePrecise := by
  refine ⟨fun i s t hexec herr => ?_, fun s t hbusy hnil hstep herr => ?_⟩
  · obtain ⟨e, ht⟩ := exec_error hexec herr
    exact eq_of_raiseError (opcode_eq_config_iff i) ht
  · obtain ⟨e, ht⟩ := engineTurn_error hbusy (step_of_inbox_nil hnil ▸ hstep) herr
    exact eq_of_raiseError (fieldOpc_eq_iff s.cmd 0x01#8) ht

/-- Settles O9, by the three ways past the common checks (`dataCommand_cases`). -/
theorem commonChecksInOrder : Obligations.CommonChecksInOrder := by
  intro i d x s hops
  obtain ⟨body, hexec, hkind⟩ := exec_eq_dataCommand hops s
  rw [hexec]
  rcases dataCommand_cases i.opcode d x s body with ⟨hid, he⟩ | ⟨hx, hd, hcfg, he⟩ | ⟨hx, hd, hcfg, he⟩
  · exact ⟨_, he, fun _ => rfl, fun hx hd => by omega, fun hx hd => by omega⟩
  · exact ⟨_, he, fun hid => by omega, fun _ _ _ => rfl, fun _ _ hvalid => by simp [hcfg] at hvalid⟩
  · obtain ⟨t, ht⟩ := finish_next i.opcode s (body (s.buf x))
    refine ⟨t, he.trans ht, fun hid => by omega, fun _ _ hinvalid => by simp [hcfg] at hinvalid, fun _ _ _ h => ?_⟩
    rw [hkind h, finish_error] at ht
    obtain rfl : s.raiseError i.opcode .kind = t := by simpa using ht
    rfl

/-- Settles O33: CMD is issued by a write while idle, and marks the overrun while BUSY. -/
theorem cmdWriteIssues : Obligations.CmdWriteIssues := by
  refine fun s c => ⟨fun hbusy => (busyWrites s 0x030 c hbusy).1 rfl, fun hidle => ?_⟩
  rw [write_of_idle hidle rfl c rfl]
  have hissue : s.writeIdle (regAt 0x030) c = { s with cmd := c, status := s.status.issued } :=
    if_neg (by simp [hidle])
  rw [hissue]
  rfl

/-- Settles O37: completion sets DONE and keeps IRQ_EN, and each of the other steps clears one of the two. -/
theorem interruptLevel : Obligations.InterruptLevel := by
  intro s t v
  obtain ⟨-, hctrl, hsrst, hrst⟩ := controlAndResets s v
  refine ⟨Bool.and_eq_true_iff, fun i => exec_irq, ?turn, ?turnEvent, ?w1c, ?issue, ?softReset, ?mask, ?rst⟩
  case turn => exact fun hbusy hnil hstep => engineTurn_irq hbusy (step_of_inbox_nil hnil ▸ hstep)
  case turnEvent =>
    intro rest hbusy hcons hstep
    rw [step_of_inbox_cons hcons] at hstep
    exact engineTurn_irq (s := { s with inbox := rest }) hbusy hstep
  case w1c =>
    intro hv haccess
    rw [(statusRegister s v).2] at haccess
    cases haccess
    simp [State.irq, hv]
  case issue =>
    intro hidle haccess
    rw [(cmdWriteIssues s v).2 hidle] at haccess
    cases haccess
    rfl
  case softReset =>
    intro hv haccess
    rw [hsrst hv] at haccess
    cases haccess
    rfl
  case mask =>
    intro hv hirqEn haccess
    rw [hctrl hv] at haccess
    cases haccess
    refine ⟨?_, rfl⟩
    dsimp only [State.irq]
    rw [hirqEn, Bool.and_false]
  case rst =>
    intro rest hcons hstep
    rw [hrst rest hcons] at hstep
    cases hstep
    rfl

end Sys2Proof.Machine
end

section
/-! PROOFS. What an access while BUSY changes: a write STATUS only, CTRL apart, and a read the response and the draw
counter only (70_reset_and_hazards.md R151, R152). -/

namespace Sys2Proof.Machine

/-- The offset of CTRL (R16). -/
theorem regAt_eq_ctrl_iff (off : Nat) : regAt off = .ctrl ↔ off = 0x020 := by
  unfold regAt
  split <;> simp_all

/-- R152: the registers up to CMD show their values while BUSY. -/
theorem regAt_shownBusy_of_le {off : Nat} (haligned : off % 8 = 0) (h : off ≤ 0x030) : (regAt off).shownBusy = true := by
  obtain ⟨k, rfl⟩ := Nat.dvd_of_mod_eq_zero haligned
  have hk : k ≤ 6 := by omega
  interval_cases k <;> rfl

section Busy

variable {s : State}

/-- R150, R151: a write while BUSY to any register but CTRL changes STATUS alone, and there neither BUSY nor a bit that
the command in flight reads. -/
theorem State.writeBusy_status {r : Reg} (hr : r ≠ .ctrl) (hbusy : s.status.busy = true) (v : Word) :
    ∃ st : Status, s.writeBusy r v = { s with status := st } ∧ st.busy = true ∧ st.cfgValid = s.status.cfgValid
      ∧ st.kValid = s.status.kValid := by
  unfold State.writeBusy
  split
  · exact absurd rfl hr
  · exact ⟨_, rfl, hbusy, rfl, rfl⟩
  · exact ⟨_, if_pos hbusy, hbusy, rfl, rfl⟩
  · split
    · exact ⟨s.status, rfl, hbusy, rfl, rfl⟩
    · exact ⟨_, rfl, hbusy, rfl, rfl⟩

/-- R152: a read while BUSY answers some word, and changes the response and the draw counter only. -/
theorem State.readBusy_eq (s : State) (r : Reg) :
    ∃ w, s.readBusy r = { s with resp := .data w, draws := (s.readBusy r).draws } := by
  obtain ⟨x, hx⟩ : ∃ x, s.readBusy r = s.answer x := by
    unfold State.readBusy
    split
    · exact ⟨_, rfl⟩
    · exact ⟨_, rfl⟩
  obtain ⟨w, hanswer, -⟩ := State.answer_cases s x
  exact ⟨w, hx ▸ hanswer⟩

theorem read_of_busy {off : Nat} (hbusy : s.status.busy = true) (haligned : off % 8 = 0) :
    accessOffset off 8 none s = .next (s.readBusy (regAt off)) := by
  rw [accessOffset_admitted haligned (.inl hbusy), State.accessReg, hbusy]
  rfl

end Busy

/-- Settles O47: a read answers a word, and a write of any register but CTRL changes STATUS alone. -/
theorem flightIsUndisturbed : Obligations.FlightIsUndisturbed := by
  intro s t off width wdata hbusy haccess hctrl
  obtain ⟨f, hfault⟩ | hnext := accessOffset_outcome off width wdata s
  · rw [hfault] at haccess
    cases haccess
  obtain rfl : s.accessReg (regAt off) wdata = t := by simpa [hnext] using haccess
  cases wdata with
  | none =>
    obtain ⟨w, hread⟩ := s.readBusy_eq (regAt off)
    rw [State.accessReg, hbusy, if_pos rfl, hread]
    exact ⟨rfl, hbusy, rfl, rfl⟩
  | some v =>
    have hreg : regAt off ≠ .ctrl := fun h => by cases hctrl ((regAt_eq_ctrl_iff off).1 h)
    obtain ⟨st, hwrite, hbusy', hcfg, hk⟩ := State.writeBusy_status hreg hbusy v
    rw [State.accessReg, hbusy, if_pos rfl, hwrite]
    exact ⟨rfl, hbusy', hcfg, hk⟩

/-- Settles O48: the registers up to CMD and the reserved offsets are shown while BUSY, and every read answers a word. -/
theorem busyReads : Obligations.BusyReads := by
  intro s off hbusy haligned
  refine ⟨?cmd, fun h => read_shownBusy haligned (regAt_shownBusy_of_le haligned (by omega)), fun h => ?reserved, ?any⟩
  case cmd =>
    rintro rfl
    exact read_shownBusy rfl rfl
  case reserved =>
    have hreg : regAt off = .reserved := regAt_reserved haligned h
    rw [read_shownBusy haligned (by rw [hreg]; rfl), hreg]
    rfl
  case any =>
    obtain ⟨w, hread⟩ := s.readBusy_eq (regAt off)
    exact ⟨_, w, read_of_busy hbusy haligned, hread⟩

end Sys2Proof.Machine
end
